-- ==== Sys2Proof/Word.lean ====
section
/-! DEFINITION. The words of the block: bytes, command words, line levels, duty and drive entries, link events and
responses. All of it plain data. -/

namespace Sys2Proof

/-- One byte of a byte array (00_scope.md R14: bit 0 is the least significant bit). -/
abbrev Byte := BitVec 8

/-- A command word or an argument word (30_encoding.md R90). -/
abbrev Word := BitVec 32

/-- One of the three byte arrays `dir`, `wr`, `rd`: MAX_BYTES = 16 bytes (00_scope.md R6). -/
abbrev ByteArray16 := Vector Byte 16

/-- A command as the host presents it: the pair (C, A) of 30_encoding.md R90. -/
structure Command where
  /-- the command word C -/
  c : Word
  /-- the argument word A -/
  a : Word
deriving DecidableEq, Repr

/-- The level of a line (20_memory.md R70). -/
inductive Level where
  | low
  | high
deriving DecidableEq, Repr, Inhabited

/-- The three control lines the block drives (20_memory.md R70). -/
inductive Line where
  | data
  | clock
  | latch
deriving DecidableEq, Repr

/-- One entry of the PWM duty table, in the tagged form of 10_state.md R30. -/
inductive Duty where
  | disabled
  | enabled (d : Byte)
deriving DecidableEq, Repr

/-- One entry of the tracked drive state (10_state.md R31). The stored code 11 has no constructor (U17 of 93). -/
inductive Track where
  | off
  | on
  | unknown
deriving DecidableEq, Repr

/-- A link event: one invocation of a Physical Link primitive (20_memory.md R70). -/
inductive LinkEvent where
  | setLevel (line : Line) (level : Level)
  | shiftByte (b : Byte)
  | sample (level : Level)
deriving DecidableEq, Repr

/-- The named STATUS values of a response (60_exceptions.md R240). -/
inductive Status where
  | ok
  | illegal
  | capacity
  | frequency
  | address
  | batch
  | noSense
deriving DecidableEq, Repr

/-- The response to a command: (STATUS, DATA), DATA one bit (30_encoding.md R95). -/
structure Response where
  status : Status
  data : Bool
deriving DecidableEq, Repr

end Sys2Proof
end

