-- ==== Sys2Proof/Config.lean ====
section
/-! DEFINITION. The parameters an implementation fixes (00_scope.md R10 to R12) and the free values: what the spec
leaves to a draw. A free value is an opaque constant: nothing can compute it or prove a value of it. -/

namespace Sys2Proof

/-- The parameters of the block. They are fixed while it runs, so no step writes them; they stand in State so that every
statement about states is a statement about every choice of them (log entry 1). -/
structure Config where
  /-- SENSE_PRESENT, 00_scope.md R10: the optional read line is wired. -/
  sensePresent : Bool
  /-- TIME_BITS, 00_scope.md R11: the width of the elapsed-time counter. -/
  timeBits : Nat
  /-- MIN_PERIOD_US, 00_scope.md R12: the smallest period SETFREQ accepts. -/
  minPeriodUs : Nat
deriving DecidableEq, Repr

/-- The parameters' legal values: TIME_BITS 1 to 32 (30_encoding.md R94), MIN_PERIOD_US at least 1 (00_scope.md R12) and
at most 10,000 (10_state.md R28). -/
def Config.wf (c : Config) : Bool :=
  decide (1 ≤ c.timeBits) && decide (c.timeBits ≤ 32) && decide (1 ≤ c.minPeriodUs) && decide (c.minPeriodUs ≤ 10000)

/-- The parameters of the machine `State.reset`: the spec's defaults for TIME_BITS and MIN_PERIOD_US; SENSE_PRESENT true,
DESIGN CHOICE (log entry 1: the spec leaves it open). -/
def Config.default : Config := { sensePresent := true, timeBits := 32, minPeriodUs := 1 }

/-- PERIOD_NUMERATOR (00_scope.md R9). -/
def Config.periodNumerator : Nat := 1000000

/-- DEFAULT_PERIOD_US (00_scope.md R9). -/
def Config.defaultPeriodUs : Nat := 10000

/-- DUTY_MAX (00_scope.md R8). -/
def Config.dutyMax : Nat := 255

/-- PWM_ENTRIES (00_scope.md R7). -/
def Config.pwmEntries : Nat := 64

/-- The capacity in bits, 8 * MAX_BYTES (00_scope.md R6). -/
def Config.capacityBits : Nat := 128

/-- FREE VALUE. The level of the draw-th SAMPLE, where the environment's list is empty (20_memory.md R75; log entry 4). -/
opaque Config.freeSense : Nat → Level

/-- FREE VALUE. The level the shift primitive leaves on CLOCK after a SHIFTBYTE (10_state.md R33; log entry 6). -/
opaque Config.freeClock : Nat → Level

/-- FREE VALUE. The level the shift primitive leaves on DATA after a SHIFTBYTE (10_state.md R33; log entry 6). -/
opaque Config.freeData : Nat → Level

/-- FREE VALUE. The chain outputs before the first flush (10_state.md R32; log entry 5). -/
opaque Config.freeChain : List Byte

/-- FREE VALUE. The control line levels before the first flush (10_state.md R33; log entry 5). -/
opaque Config.freeResetLevel : Line → Level

end Sys2Proof
end

