-- ==== Sys2Proof/Syntax.lean ====
section
/-! DEFINITION. The instructions: one constructor per row of spec/opcode_table.json (30_encoding.md R97), and the
pseudo-instructions of 30_encoding.md R103 with their expansions' shape. -/

namespace Sys2Proof

/-- The 19 commands. Every operand is an unsigned natural (30_encoding.md R93, R94); `v` is one bit. -/
inductive Instr where
  /-- SETCAP n: configure capacity (40_bit_buffer.md R121). -/
  | setcap (n : Nat)
  /-- SETMODE b, v: set pin direction (R123). -/
  | setmode (b : Nat) (v : Bool)
  /-- WSOFT b, v: soft write (R125). -/
  | wsoft (b : Nat) (v : Bool)
  /-- WHARD b, v: hard write (R127). -/
  | whard (b : Nat) (v : Bool)
  /-- FLUSH: transfer the write cache (R129). -/
  | flush
  /-- RHARD b: hard read through the isolation protocol (R131). -/
  | rhard (b : Nat)
  /-- RSOFT b: soft read (R135). -/
  | rsoft (b : Nat)
  /-- GETW b: read back the write cache (R137). -/
  | getw (b : Nat)
  /-- RALL: read all input bits (R139). -/
  | rall
  /-- BWBEGIN: open a write batch (41_transaction.md R171). -/
  | bwbegin
  /-- BWEND: close a write batch (R172). -/
  | bwend
  /-- BRBEGIN: open a read batch (R173). -/
  | brbegin
  /-- BREND: close a read batch (R174). -/
  | brend
  /-- WRITEBIT b, v: routed write (R176). -/
  | writebit (b : Nat) (v : Bool)
  /-- READBIT b: routed read (R178). -/
  | readbit (b : Nat)
  /-- SETFREQ hz: set the PWM frequency (42_pwm.md R200). -/
  | setfreq (hz : Nat)
  /-- ENROLL b, d: enable PWM on a pin (R202). -/
  | enroll (b : Nat) (d : Nat)
  /-- UNENROLL b: disable PWM on a pin (R204). -/
  | unenroll (b : Nat)
  /-- TICK t: one scheduling step (R208). -/
  | tick (t : Nat)
deriving DecidableEq, Repr

/-- The five command formats (30_encoding.md R92). -/
inductive Format where
  | fn
  | fa
  | fb
  | fbv
  | fbd
deriving DecidableEq, Repr

/-- The pseudo-instructions (30_encoding.md R103). -/
inductive Pseudo where
  /-- `SETMODE b, in` -/
  | setmodeIn (b : Nat)
  /-- `SETMODE b, out` -/
  | setmodeOut (b : Nat)
  /-- `SETBITCOUNT n` -/
  | setbitcount (n : Nat)
  /-- `WRITEPWM b, d` -/
  | writepwm (b : Nat) (d : Nat)
  /-- `BATCHWRITE` of WRITEBITs -/
  | batchwrite (writes : List (Nat × Bool))
  /-- `BATCHREAD` of READBITs -/
  | batchread (reads : List Nat)
deriving DecidableEq, Repr

/-- The expansion of a pseudo-instruction (30_encoding.md R103). -/
def Pseudo.expand : Pseudo → List Instr
  | .setmodeIn b => [.setmode b true]
  | .setmodeOut b => [.setmode b false]
  | .setbitcount n => [.setcap n]
  | .writepwm b d => [.enroll b d]
  | .batchwrite ws => .bwbegin :: (ws.map fun w => .writebit w.1 w.2) ++ [.bwend]
  | .batchread bs => .brbegin :: (bs.map fun b => .readbit b) ++ [.brend]

end Sys2Proof
end

