-- ==== Sys2Proof/WellFormed.lean ====
section
/-! DEFINITION. Which terms of `Instr` an assembler accepts: an operand fits its field (30_encoding.md R102: "An
assembler rejects b > 255, v > 1, d > 255 and n, hz or t above 2^32 - 1"). `v` is one bit by its type. -/

namespace Sys2Proof

/-- A bit index fits the 8-bit field BIT (30_encoding.md R91, R93). -/
def fitsBit (b : Nat) : Bool := decide (b ≤ 255)

/-- A duty fits VAL[7:0] (30_encoding.md R94). -/
def fitsDuty (d : Nat) : Bool := decide (d ≤ 255)

/-- An argument fits A[31:0] (30_encoding.md R94). -/
def fitsArg (n : Nat) : Bool := decide (n < 2 ^ 32)

/-- Every operand fits its field. -/
def Instr.wf : Instr → Bool
  | .setcap n => fitsArg n
  | .setmode b _ => fitsBit b
  | .wsoft b _ => fitsBit b
  | .whard b _ => fitsBit b
  | .flush => true
  | .rhard b => fitsBit b
  | .rsoft b => fitsBit b
  | .getw b => fitsBit b
  | .rall => true
  | .bwbegin => true
  | .bwend => true
  | .brbegin => true
  | .brend => true
  | .writebit b _ => fitsBit b
  | .readbit b => fitsBit b
  | .setfreq hz => fitsArg hz
  | .enroll b d => fitsBit b && fitsDuty d
  | .unenroll b => fitsBit b
  | .tick t => fitsArg t

end Sys2Proof
end

