-- ==== Sys2Proof/Decode.lean ====
section
/-! DEFINITION. The decoder, total on every pair of words and rejecting by name (30_encoding.md R98, R99); the encoder,
written from the same tables (R92, R97, R102); and the opcode table as match and mask rows (R98). -/

namespace Sys2Proof

/-- `w[hi:lo]` as an unsigned number (00_scope.md R14). -/
def bitsOf (w : Word) (hi lo : Nat) : Nat := (w.extractLsb hi lo).toNat

/-- The field OP, C[31:24] (30_encoding.md R91). -/
def opField (c : Word) : Nat := bitsOf c 31 24

/-- The field BIT, C[23:16] (30_encoding.md R91). -/
def bitField (c : Word) : Nat := bitsOf c 23 16

/-- The field VAL, C[15:0] (30_encoding.md R91). -/
def valField (c : Word) : Nat := bitsOf c 15 0

/-- Why a command word is illegal (30_encoding.md R99). The block answers E_ILLEGAL for each of them. -/
inductive DecodeError where
  /-- OP is not in the opcode map. -/
  | unassignedOp
  /-- BIT must be 0 in this format and is not. -/
  | reservedBit
  /-- A bit of VAL must be 0 in this format and is not. -/
  | reservedVal
deriving DecidableEq, Repr

/-- Format FN: BIT and VAL must be 0, A is ignored (30_encoding.md R92). -/
def decodeFN (k : Command) (i : Instr) : Except DecodeError Instr :=
  if bitField k.c ≠ 0 then .error .reservedBit
  else if valField k.c ≠ 0 then .error .reservedVal
  else .ok i

/-- Format FA: BIT and VAL must be 0, the operand is A[31:0] (30_encoding.md R92, R94). -/
def decodeFA (k : Command) (f : Nat → Instr) : Except DecodeError Instr :=
  if bitField k.c ≠ 0 then .error .reservedBit
  else if valField k.c ≠ 0 then .error .reservedVal
  else .ok (f k.a.toNat)

/-- Format FB: the bit index, VAL must be 0 (30_encoding.md R92, R93). -/
def decodeFB (k : Command) (f : Nat → Instr) : Except DecodeError Instr :=
  if valField k.c ≠ 0 then .error .reservedVal
  else .ok (f (bitField k.c))

/-- Format FBV: the bit index and v = VAL[0], VAL[15:1] must be 0 (30_encoding.md R92, R94). -/
def decodeFBV (k : Command) (f : Nat → Bool → Instr) : Except DecodeError Instr :=
  if bitsOf k.c 15 1 ≠ 0 then .error .reservedVal
  else .ok (f (bitField k.c) (decide (bitsOf k.c 0 0 = 1)))

/-- Format FBD: the bit index and d = VAL[7:0], VAL[15:8] must be 0 (30_encoding.md R92, R94). -/
def decodeFBD (k : Command) (f : Nat → Nat → Instr) : Except DecodeError Instr :=
  if bitsOf k.c 15 8 ≠ 0 then .error .reservedVal
  else .ok (f (bitField k.c) (bitsOf k.c 7 0))

/-- The decoder (30_encoding.md R97, R98). Every OP that the map does not assign is illegal (R99, R100). -/
def decode (k : Command) : Except DecodeError Instr :=
  match opField k.c with
  | 0x01 => decodeFA k .setcap
  | 0x02 => decodeFBV k .setmode
  | 0x03 => decodeFBV k .wsoft
  | 0x04 => decodeFBV k .whard
  | 0x05 => decodeFN k .flush
  | 0x06 => decodeFB k .rhard
  | 0x07 => decodeFB k .rsoft
  | 0x08 => decodeFB k .getw
  | 0x09 => decodeFN k .rall
  | 0x10 => decodeFN k .bwbegin
  | 0x11 => decodeFN k .bwend
  | 0x12 => decodeFN k .brbegin
  | 0x13 => decodeFN k .brend
  | 0x14 => decodeFBV k .writebit
  | 0x15 => decodeFB k .readbit
  | 0x20 => decodeFA k .setfreq
  | 0x21 => decodeFBD k .enroll
  | 0x22 => decodeFB k .unenroll
  | 0x23 => decodeFA k .tick
  | _ => .error .unassignedOp

/-- The command word with fields OP, BIT and VAL: `OP << 24 | BIT << 16 | VAL` (30_encoding.md R91, R102). -/
def commandWord (op bit val : Nat) : Word := BitVec.ofNat 32 (op * 2 ^ 24 + bit * 2 ^ 16 + val)

/-- VAL of format FBV for the value v (30_encoding.md R92). -/
def valOfBit (v : Bool) : Nat := if v then 1 else 0

/-- A command whose argument word is not given by the assembler table: A is 0 (30_encoding.md R102). -/
def wordCommand (op bit val : Nat) : Command := { c := commandWord op bit val, a := 0 }

/-- A command of format FA. -/
def argCommand (op arg : Nat) : Command := { c := commandWord op 0 0, a := BitVec.ofNat 32 arg }

/-- The encoder (30_encoding.md R102). -/
def encode : Instr → Command
  | .setcap n => argCommand 0x01 n
  | .setmode b v => wordCommand 0x02 b (valOfBit v)
  | .wsoft b v => wordCommand 0x03 b (valOfBit v)
  | .whard b v => wordCommand 0x04 b (valOfBit v)
  | .flush => wordCommand 0x05 0 0
  | .rhard b => wordCommand 0x06 b 0
  | .rsoft b => wordCommand 0x07 b 0
  | .getw b => wordCommand 0x08 b 0
  | .rall => wordCommand 0x09 0 0
  | .bwbegin => wordCommand 0x10 0 0
  | .bwend => wordCommand 0x11 0 0
  | .brbegin => wordCommand 0x12 0 0
  | .brend => wordCommand 0x13 0 0
  | .writebit b v => wordCommand 0x14 b (valOfBit v)
  | .readbit b => wordCommand 0x15 b 0
  | .setfreq hz => argCommand 0x20 hz
  | .enroll b d => wordCommand 0x21 b d
  | .unenroll b => wordCommand 0x22 b 0
  | .tick t => argCommand 0x23 t

/-- The format of each command (30_encoding.md R92). -/
def Instr.format : Instr → Format
  | .setcap _ => .fa
  | .setmode _ _ => .fbv
  | .wsoft _ _ => .fbv
  | .whard _ _ => .fbv
  | .flush => .fn
  | .rhard _ => .fb
  | .rsoft _ => .fb
  | .getw _ => .fb
  | .rall => .fn
  | .bwbegin => .fn
  | .bwend => .fn
  | .brbegin => .fn
  | .brend => .fn
  | .writebit _ _ => .fbv
  | .readbit _ => .fb
  | .setfreq _ => .fa
  | .enroll _ _ => .fbd
  | .unenroll _ => .fb
  | .tick _ => .fa

/-- The mnemonic of each command (30_encoding.md R97). -/
def Instr.mnemonic : Instr → String
  | .setcap _ => "SETCAP"
  | .setmode _ _ => "SETMODE"
  | .wsoft _ _ => "WSOFT"
  | .whard _ _ => "WHARD"
  | .flush => "FLUSH"
  | .rhard _ => "RHARD"
  | .rsoft _ => "RSOFT"
  | .getw _ => "GETW"
  | .rall => "RALL"
  | .bwbegin => "BWBEGIN"
  | .bwend => "BWEND"
  | .brbegin => "BRBEGIN"
  | .brend => "BREND"
  | .writebit _ _ => "WRITEBIT"
  | .readbit _ => "READBIT"
  | .setfreq _ => "SETFREQ"
  | .enroll _ _ => "ENROLL"
  | .unenroll _ => "UNENROLL"
  | .tick _ => "TICK"

/-- The mask of each format (30_encoding.md R98). -/
def Format.mask : Format → Word
  | .fn => 0xFFFFFFFF
  | .fa => 0xFFFFFFFF
  | .fb => 0xFF00FFFF
  | .fbv => 0xFF00FFFE
  | .fbd => 0xFF00FF00

/-- One row of the opcode map (30_encoding.md R97). -/
structure OpcodeRow where
  op : Nat
  mnemonic : String
  format : Format
deriving DecidableEq, Repr

/-- The match value of a row, `OP << 24` (30_encoding.md R98). -/
def OpcodeRow.matchWord (r : OpcodeRow) : Word := BitVec.ofNat 32 (r.op * 2 ^ 24)

/-- Rows 0x01 to 0x09 of the opcode map: the Bit Buffer commands. -/
def bitBufferRows : List OpcodeRow :=
  [⟨0x01, "SETCAP", .fa⟩, ⟨0x02, "SETMODE", .fbv⟩, ⟨0x03, "WSOFT", .fbv⟩, ⟨0x04, "WHARD", .fbv⟩, ⟨0x05, "FLUSH", .fn⟩,
   ⟨0x06, "RHARD", .fb⟩, ⟨0x07, "RSOFT", .fb⟩, ⟨0x08, "GETW", .fb⟩, ⟨0x09, "RALL", .fn⟩]

/-- Rows 0x10 to 0x15 of the opcode map: the Transaction Controller commands. -/
def transactionRows : List OpcodeRow :=
  [⟨0x10, "BWBEGIN", .fn⟩, ⟨0x11, "BWEND", .fn⟩, ⟨0x12, "BRBEGIN", .fn⟩, ⟨0x13, "BREND", .fn⟩, ⟨0x14, "WRITEBIT", .fbv⟩,
   ⟨0x15, "READBIT", .fb⟩]

/-- Rows 0x20 to 0x23 of the opcode map: the PWM Scheduler commands. -/
def pwmRows : List OpcodeRow :=
  [⟨0x20, "SETFREQ", .fa⟩, ⟨0x21, "ENROLL", .fbd⟩, ⟨0x22, "UNENROLL", .fb⟩, ⟨0x23, "TICK", .fa⟩]

/-- The opcode map (30_encoding.md R97). -/
def opcodeMap : List OpcodeRow := bitBufferRows ++ transactionRows ++ pwmRows

/-- A command word matches a row: `C AND mask = match` (30_encoding.md R98). -/
def OpcodeRow.matches (r : OpcodeRow) (c : Word) : Bool := c &&& r.format.mask == r.matchWord

/-- The command whose bits the opcode table numbers `w`, of which it gives `nbits`: C is bits 31 to 0, A is bits 63 to 32,
and every bit above nbits is 0. -/
def commandOfTableWord (nbits w : Nat) : Command :=
  { c := BitVec.ofNat 32 (w % 2 ^ nbits), a := BitVec.ofNat 32 (w % 2 ^ nbits / 2 ^ 32) }

/-- What the decoder reads from the command whose bits are `w`, numbered as spec/opcode_table.json numbers them. -/
def decodeTableWord (nbits w : Nat) : Option Instr :=
  match decode (commandOfTableWord nbits w) with
  | .ok i => some i
  | .error _ => none

end Sys2Proof
end

