-- ==== Sys2Proof/Machine/State.lean ====
section
/-! DEFINITION. The state of the machine: everything the spec gives the block, the external state it says a model must
track, the block's outputs, and the model's own fields for the host and the environment. Plain data. -/

namespace Sys2Proof.Machine

/-- The level on each control line, `lvl` of 10_state.md R33. -/
structure LineLevels where
  data : Level
  clock : Level
  latch : Level
deriving DecidableEq, Repr

/-- The whole state (10_state.md R36). -/
structure State where
  /-- The parameters (00_scope.md R10 to R12); no step writes them. -/
  cfg : Config
  /-- Direction mask, bit 1 = input (R21). -/
  dir : ByteArray16
  /-- Write cache (R22). -/
  wr : ByteArray16
  /-- Read cache (R23). -/
  rd : ByteArray16
  /-- Configured byte count, 5 bits, legal 0 to 16 (R24). -/
  byteCount : BitVec 5
  /-- Write-batching flag, true = Active (R26). -/
  wbActive : Bool
  /-- Read-batching flag, true = Active (R27). -/
  rbActive : Bool
  /-- PWM period in microseconds, 20 bits (R28). -/
  period : BitVec 20
  /-- Tick-start timestamp, TIME_BITS bits held in 32 (R29; log entry 9). -/
  tickStart : BitVec 32
  /-- PWM duty table (R30). -/
  duty : Vector Duty 64
  /-- Tracked drive state (R31). -/
  track : Vector Track 64
  /-- Chain outputs, held by the external chain (R32). -/
  chainOut : List Byte
  /-- Levels of the control lines (R33). -/
  lvl : LineLevels
  /-- The link event sequence, oldest first (20_memory.md R70, R78). -/
  events : List LinkEvent
  /-- The responses given, oldest first (30_encoding.md R95). -/
  responses : List Response
  /-- MODEL'S OWN: the commands the host has still to present, next first (R20; log entry 2). -/
  commands : List Command
  /-- MODEL'S OWN: the levels the environment presents at the next SAMPLEs, next first (20_memory.md R75; log entry 4). -/
  senseLine : List Level
  /-- MODEL'S OWN: how many draws have been made (log entry 7). -/
  draws : Nat
  /-- MODEL'S OWN: none if every link primitive completes, or how many complete before one never returns
  (20_memory.md R77; log entry 8). -/
  linkHangsAfter : Option Nat
  /-- The block is stalled for good: a link primitive of the command it last took never returned (20_memory.md R77,
  70_reset_and_hazards.md R288). -/
  linkStuck : Bool
deriving DecidableEq, Repr

/-- Why the machine stops with a fault: never. The block has no trap (60_exceptions.md R248), an error is a response (R241),
and a link primitive that never returns leaves the block stuck, not faulted (20_memory.md R77): `State.linkStuck`. -/
inductive Fault where
deriving DecidableEq, Repr

/-- Why the machine refuses an instruction. -/
inductive Refusal where
  /-- The instruction has no meaning in the model. Raised only by an arm of `exec` that is not written yet. Safe. -/
  | notModelled (mnemonic : String)
deriving DecidableEq, Repr

/-- The state right after construction (70_reset_and_hazards.md R270), for the parameters `cfg`. -/
def State.resetWith (cfg : Config) : State where
  cfg := cfg
  dir := Vector.replicate 16 0#8
  wr := Vector.replicate 16 0#8
  rd := Vector.replicate 16 0#8
  byteCount := 0
  wbActive := false
  rbActive := false
  period := BitVec.ofNat 20 Config.defaultPeriodUs
  tickStart := 0
  duty := Vector.replicate 64 .disabled
  track := Vector.replicate 64 .unknown
  chainOut := Config.freeChain
  lvl := { data := Config.freeResetLevel .data, clock := Config.freeResetLevel .clock, latch := Config.freeResetLevel .latch }
  events := []
  responses := []
  commands := []
  senseLine := []
  draws := 0
  linkHangsAfter := none
  linkStuck := false

/-- The machine right after reset, with the parameters `Config.default` (log entry 1). -/
def State.reset : State := State.resetWith Config.default

end Sys2Proof.Machine
end

