-- ==== Sys2Proof/Machine/Operands.lean ====
section
/-! DEFINITION. Operand forms: bit-index translation and the bit arrays (00_scope.md R15), the range checks
(60_exceptions.md R243), levels as bits (20_memory.md R74), the argument of TICK (30_encoding.md R94), and the STATUS
codes (60_exceptions.md R240). -/

namespace Sys2Proof.Machine

/-- `byteOf(i) = i div 8` (00_scope.md R15). -/
def byteOf (i : Nat) : Nat := i / 8

/-- `offOf(i) = i mod 8` (00_scope.md R15). -/
def offOf (i : Nat) : Nat := i % 8

/-- `arr[k]`. The array has 16 bytes; no command reads at k of 16 or more, where this answers 0 (log entry 10). -/
def byteAt (arr : ByteArray16) (k : Nat) : Byte := arr[k]?.getD 0

/-- `BitRead(arr, i) = arr[byteOf(i)][offOf(i)]` (00_scope.md R15). -/
def bitRead (arr : ByteArray16) (i : Nat) : Bool := (byteAt arr (byteOf i)).getLsbD (offOf i)

/-- The byte with only the bit at offset `o` set. -/
def offMask (o : Nat) : Byte := 1#8 <<< o

/-- The byte x with its bit at offset `o` set to v. -/
def withBit (x : Byte) (o : Nat) (v : Bool) : Byte := if v then x ||| offMask o else x &&& ~~~ offMask o

/-- `BitWrite(arr, i, v)` (00_scope.md R15). -/
def bitWrite (arr : ByteArray16) (i : Nat) (v : Bool) : ByteArray16 :=
  arr.setIfInBounds (byteOf i) (withBit (byteAt arr (byteOf i)) (offOf i) v)

/-- The first n bytes of an array, as a byte sequence. -/
def bytesOf (n : Nat) (arr : ByteArray16) : List Byte := (List.range n).map (byteAt arr)

/-- `SHIFTBYTE(b)` presents b[7] first and b[0] last on the data line (20_memory.md R71). -/
def shiftBits (b : Byte) : List Bool := (List.range 8).map fun p => b.getLsbD (7 - p)

/-- `bitCount = 8 * byteCount` (00_scope.md R13). -/
def bitCount (s : State) : Nat := 8 * s.byteCount.toNat

/-- A bit index is in range (10_state.md R24). -/
def bitInRange (s : State) (b : Nat) : Bool := decide (b < bitCount s)

/-- A PWM index is in range (20_memory.md R60). -/
def pwmInRange (b : Nat) : Bool := decide (b < Config.pwmEntries)

/-- `duty[i]`. No command reads at i of 64 or more, where this answers Disabled (log entry 10). -/
def dutyAt (s : State) (i : Nat) : Duty := s.duty[i]?.getD .disabled

/-- `track[i]`. No command reads at i of 64 or more, where this answers Unknown (log entry 10). -/
def trackAt (s : State) (i : Nat) : Track := s.track[i]?.getD .unknown

/-- A sampled High is recorded as 1 and a Low as 0 (20_memory.md R74). -/
def bitOfLevel : Level → Bool
  | .high => true
  | .low => false

/-- `now = A[TIME_BITS-1:0]` (30_encoding.md R94). -/
def operandNow (cfg : Config) (t : Nat) : Nat := t % 2 ^ cfg.timeBits

/-- The 8-bit STATUS code (60_exceptions.md R240). -/
def statusCode : Status → BitVec 8
  | .ok => 0x00
  | .illegal => 0x01
  | .capacity => 0x02
  | .frequency => 0x03
  | .address => 0x04
  | .batch => 0x05
  | .noSense => 0x06

/-- The DATA bit of the response, as a number (30_encoding.md R95). -/
def dataBit (r : Response) : BitVec 1 := BitVec.ofBool r.data

end Sys2Proof.Machine
end

