-- ==== Sys2Proof/Machine/Flags.lean ====
section
/-! DEFINITION. The flag computations: the two batch flags (41_transaction.md R170) and the conditions of the PWM
scheduler (42_pwm.md R208 to R211, R213). -/

namespace Sys2Proof.Machine

/-- Set the write-batching flag (10_state.md R26). -/
def setWbActive (v : Bool) (s : State) : State := { s with wbActive := v }

/-- Set the read-batching flag (10_state.md R27). -/
def setRbActive (v : Bool) (s : State) : State := { s with rbActive := v }

/-- `1_000_000 div hz` (42_pwm.md R200). -/
def periodOfHertz (hz : Nat) : Nat := Config.periodNumerator / hz

/-- `(now - start) mod 2^TIME_BITS` (42_pwm.md R208, R209). -/
def elapsed (cfg : Config) (now start : Nat) : Nat :=
  (((now : Int) - (start : Int)) % ((2 ^ cfg.timeBits : Nat) : Int)).toNat

/-- The period boundary is reached: `(now - tickStart) mod Mod >= period` (42_pwm.md R209). -/
def boundaryReached (s : State) (now : Nat) : Bool := decide (s.period.toNat ≤ elapsed s.cfg now s.tickStart.toNat)

/-- `onWindow = (period * d) div 255` (42_pwm.md R211). -/
def onWindow (period d : Nat) : Nat := period * d / Config.dutyMax

/-- A pin's target is On exactly when `e < onWindow` (42_pwm.md R211). -/
def pwmTarget (period d e : Nat) : Track := if e < onWindow period d then .on else .off

end Sys2Proof.Machine
end

