-- ==== Sys2Proof/Machine/Ops.lean ====
section
/-! DEFINITION. The shared operations: responses and errors (60_exceptions.md R241), the host's command port
(30_encoding.md R90), link events and the flush (20_memory.md R70 to R75), and the helpers of 40_bit_buffer.md R120. -/

namespace Sys2Proof.Machine

/-- Give the response (STATUS, DATA) (30_encoding.md R95). -/
def respond (status : Status) (data : Bool) (s : State) : State :=
  { s with responses := s.responses ++ [{ status := status, data := data }] }

/-- `raise E_X`: the error response, which is all the block has of exception entry. No state changes, no link event,
DATA is 0 (00_scope.md R17, 60_exceptions.md R241, R248). There is no return beside it: the block has none (R249). -/
def raise (status : Status) (s : State) : Host.Outcome State Fault Refusal := .next (respond status false s)

/-- An illegal command word responds E_ILLEGAL, whatever makes it illegal (30_encoding.md R99, 60_exceptions.md R242). -/
def rejectIllegal (_why : DecodeError) (s : State) : Host.Outcome State Fault Refusal := raise .illegal s

/-- The block stuck in a command that it took in `s` and that has no completing step: no response, and nothing of a partly
executed command to be seen (20_memory.md R69, R77, 00_scope.md R18; log entry 8). -/
def stall (s : State) : State := { s with linkStuck := true }

/-- End a command that began in `s` and has made the changes that give `t`: respond (OK, data). If the environment lets a
link primitive of this command never return, the block is stuck in it (20_memory.md R77; log entry 8). -/
def complete (s t : State) (data : Bool) : Host.Outcome State Fault Refusal :=
  match s.linkHangsAfter with
  | none => .next (respond .ok data t)
  | some n =>
    if t.events.length - s.events.length ≤ n then
      .next (respond .ok data { t with linkHangsAfter := some (n - (t.events.length - s.events.length)) })
    else .next (stall s)

/-- The next command the host presents, and the state once it is taken; none while the host presents nothing, and none from
a stuck block: no command can be cancelled or times out (70_reset_and_hazards.md R288). -/
def nextCommand (s : State) : Option (Command × State) :=
  match s.linkStuck, s.commands with
  | true, _ => none
  | false, [] => none
  | false, k :: rest => some (k, { s with commands := rest })

/-- Between commands the block holds its state and does nothing (60_exceptions.md R255); so does a stuck block, for good
(20_memory.md R77). -/
def idle (s : State) : Host.Outcome State Fault Refusal := .next s

/-- The host presents `k` as its next command, in place of the one it would have presented, to a block that is not stuck. -/
def presentCommand (k : Command) (s : State) : State := { s with commands := k :: s.commands.tail, linkStuck := false }

/-- `Emit(e)` (00_scope.md R17): append the event, and record the level it leaves on a control line (10_state.md R33).
After a SHIFTBYTE the levels of CLOCK and DATA are the shift primitive's: free values (log entry 6). -/
def emit (e : LinkEvent) (s : State) : State :=
  match e with
  | .setLevel .data l => { s with events := s.events ++ [e], lvl := { s.lvl with data := l } }
  | .setLevel .clock l => { s with events := s.events ++ [e], lvl := { s.lvl with clock := l } }
  | .setLevel .latch l => { s with events := s.events ++ [e], lvl := { s.lvl with latch := l } }
  | .shiftByte _ =>
    { s with
      events := s.events ++ [e]
      lvl := { s.lvl with data := Config.freeData s.draws, clock := Config.freeClock s.draws }
      draws := s.draws + 1 }
  | .sample _ => { s with events := s.events ++ [e] }

/-- Emit the events in order. -/
def emitAll (es : List LinkEvent) (s : State) : State := es.foldl (fun t e => emit e t) s

/-- The event sequence of `Flush(T)` (20_memory.md R72): CLOCK Low, LATCH Low, the bytes in buffer order, LATCH High. -/
def flushEvents (bytes : List Byte) : List LinkEvent :=
  [.setLevel .clock .low, .setLevel .latch .low] ++ bytes.map .shiftByte ++ [.setLevel .latch .high]

/-- `Flush(T)`: its events, after which `chainOut = T` (20_memory.md R72, R73). -/
def flushBytes (bytes : List Byte) (s : State) : State := { emitAll (flushEvents bytes) s with chainOut := bytes }

/-- The level on the sense line at the next SAMPLE: the environment's choice (20_memory.md R75; log entry 4). -/
def senseLevel (s : State) : Level :=
  match s.senseLine with
  | l :: _ => l
  | [] => Config.freeSense s.draws

/-- The state after `Sample()`: the SAMPLE event is emitted and the environment's choice is used up (00_scope.md R17). -/
def takeSample (s : State) : State :=
  emit (.sample (senseLevel s)) { s with senseLine := s.senseLine.tail, draws := s.draws + 1 }

/-- `BitWrite(dir, b, v)`. -/
def writeDir (b : Nat) (v : Bool) (s : State) : State := { s with dir := bitWrite s.dir b v }

/-- `BitWrite(wr, b, v)`. -/
def writeWr (b : Nat) (v : Bool) (s : State) : State := { s with wr := bitWrite s.wr b v }

/-- `BitWrite(rd, b, v)`. -/
def writeRd (b : Nat) (v : Bool) (s : State) : State := { s with rd := bitWrite s.rd b v }

/-- `duty[b] <- x`, for b below 64. -/
def setDuty (b : Nat) (x : Duty) (s : State) : State := { s with duty := s.duty.setIfInBounds b x }

/-- `track[b] <- x`, for b below 64. -/
def setTrack (b : Nat) (x : Track) (s : State) : State := { s with track := s.track.setIfInBounds b x }

/-- `PwmDisable(b)`: an ordinary write's side effect, for b below 64 only; track is left unchanged (40_bit_buffer.md
R120). -/
def pwmDisable (b : Nat) (s : State) : State := if pwmInRange b then setDuty b .disabled s else s

/-- `WR()`: the write cache as a byte sequence of byteCount bytes (40_bit_buffer.md R120). -/
def wrBytes (s : State) : List Byte := bytesOf s.byteCount.toNat s.wr

/-- `Flush(WR())`. -/
def flushCache (s : State) : State := flushBytes (wrBytes s) s

/-- Byte k of `IsolationPattern(b)`: `(wr[k] & ~dir[k]) | (dir[k] & M_k)` (40_bit_buffer.md R120). -/
def isolationByte (s : State) (b k : Nat) : Byte :=
  (byteAt s.wr k &&& ~~~ byteAt s.dir k) ||| (byteAt s.dir k &&& (if k = byteOf b then offMask (offOf b) else 0#8))

/-- `IsolationPattern(b)` (40_bit_buffer.md R120). -/
def isolationPattern (s : State) (b : Nat) : List Byte := (List.range s.byteCount.toNat).map (isolationByte s b)

/-- The bit `HardReadBody(b)` returns: the level at its SAMPLE, which follows the isolation flush. -/
def hardReadBit (b : Nat) (s : State) : Bool := bitOfLevel (senseLevel (flushBytes (isolationPattern s b) s))

/-- The state after `HardReadBody(b)`: flush the isolation pattern, sample, store the sample in the read cache
(40_bit_buffer.md R120). -/
def hardRead (b : Nat) (s : State) : State :=
  writeRd b (hardReadBit b s) (takeSample (flushBytes (isolationPattern s b) s))

/-- The input-configured bits in range, ascending (40_bit_buffer.md R139). -/
def inputBits (s : State) : List Nat := (List.range (bitCount s)).filter (bitRead s.dir)

/-- One hard read of each listed bit, in order (40_bit_buffer.md R139). -/
def hardReadAll (bits : List Nat) (s : State) : State := bits.foldl (fun t i => hardRead i t) s

/-- Step 1 of TICK: at a period boundary a new cycle begins at `now` (42_pwm.md R209). -/
def beginCycle (now : Nat) (s : State) : State :=
  if boundaryReached s now then { s with tickStart := BitVec.ofNat 32 now } else s

/-- `PwmDrive(i, target)`: write the write cache, flush it, record the drive. It is not an ordinary write, so PWM stays
enabled (42_pwm.md R212). -/
def pwmDrive (i : Nat) (target : Track) (s : State) : State :=
  setTrack i target (flushCache (writeWr i (decide (target = .on)) s))

/-- Steps 2 and 3 of TICK for pin i, with elapsed time e: an enrolled pin in range is driven exactly when its target
differs from its tracked state (42_pwm.md R208, R210, R213). -/
def tickPin (e : Nat) (s : State) (i : Nat) : State :=
  match dutyAt s i with
  | .disabled => s
  | .enabled d =>
    if i < bitCount s ∧ trackAt s i ≠ pwmTarget s.period.toNat d.toNat e then
      pwmDrive i (pwmTarget s.period.toNat d.toNat e) s
    else s

/-- Steps 2 and 3 of TICK: every pin 0 to 63 in ascending order (42_pwm.md R210). -/
def tickScan (e : Nat) (s : State) : State := (List.range Config.pwmEntries).foldl (tickPin e) s

end Sys2Proof.Machine
end

