-- ==== Sys2Proof/Machine/BitBuffer.lean ====
section
/-! DEFINITION. The Bit Buffer commands (spec/40_bit_buffer.md). Every check comes before the first state write and the
first link event (60_exceptions.md R242). -/

namespace Sys2Proof.Machine

/-- SETCAP n (R121, R122). -/
def execSetcap (n : Nat) (s : State) : Host.Outcome State Fault Refusal :=
  if n > Config.capacityBits ∨ n % 8 ≠ 0 then raise .capacity s
  else
    complete s
      { s with
        byteCount := BitVec.ofNat 5 (n / 8)
        dir := Vector.replicate 16 0#8
        wr := Vector.replicate 16 0#8
        rd := Vector.replicate 16 0#8
        track := Vector.replicate 64 .unknown }
      false

/-- SETMODE b, v (R123). -/
def execSetmode (b : Nat) (v : Bool) (s : State) : Host.Outcome State Fault Refusal :=
  if bitInRange s b then complete s (writeDir b v s) false else raise .address s

/-- WSOFT b, v (R125, R126, R128). -/
def execWsoft (b : Nat) (v : Bool) (s : State) : Host.Outcome State Fault Refusal :=
  if bitInRange s b then complete s (pwmDisable b (writeWr b v s)) false else raise .address s

/-- WHARD b, v (R127, R128). -/
def execWhard (b : Nat) (v : Bool) (s : State) : Host.Outcome State Fault Refusal :=
  if bitInRange s b then complete s (flushCache (pwmDisable b (writeWr b v s))) false else raise .address s

/-- FLUSH (R129). -/
def execFlush (s : State) : Host.Outcome State Fault Refusal := complete s (flushCache s) false

/-- RHARD b (R131): always hard, whatever the read batch. -/
def execRhard (b : Nat) (s : State) : Host.Outcome State Fault Refusal :=
  if bitInRange s b then
    if s.cfg.sensePresent then complete s (hardRead b s) (hardReadBit b s) else raise .noSense s
  else raise .address s

/-- RSOFT b (R135). -/
def execRsoft (b : Nat) (s : State) : Host.Outcome State Fault Refusal :=
  if bitInRange s b then complete s s (bitRead s.rd b) else raise .address s

/-- GETW b (R137). -/
def execGetw (b : Nat) (s : State) : Host.Outcome State Fault Refusal :=
  if bitInRange s b then complete s s (bitRead s.wr b) else raise .address s

/-- RALL (R139, R140). -/
def execRall (s : State) : Host.Outcome State Fault Refusal :=
  if inputBits s ≠ [] ∧ s.cfg.sensePresent = false then raise .noSense s
  else complete s (hardReadAll (inputBits s) s) false

end Sys2Proof.Machine
end

