-- ==== Sys2Proof/Machine/Pwm.lean ====
section
/-! DEFINITION. The PWM Scheduler commands (spec/42_pwm.md). -/

namespace Sys2Proof.Machine

/-- SETFREQ hz (R200). -/
def execSetfreq (hz : Nat) (s : State) : Host.Outcome State Fault Refusal :=
  if hz = 0 then raise .frequency s
  else if periodOfHertz hz < s.cfg.minPeriodUs then raise .frequency s
  else complete s { s with period := BitVec.ofNat 20 (periodOfHertz hz) } false

/-- ENROLL b, d (R202). -/
def execEnroll (b d : Nat) (s : State) : Host.Outcome State Fault Refusal :=
  if pwmInRange b && bitInRange s b then
    complete s (setTrack b .unknown (setDuty b (.enabled (BitVec.ofNat 8 d)) s)) false
  else raise .address s

/-- UNENROLL b (R204): b need not be below bitCount. -/
def execUnenroll (b : Nat) (s : State) : Host.Outcome State Fault Refusal :=
  if pwmInRange b then complete s (setTrack b .unknown (setDuty b .disabled s)) false else raise .address s

/-- The elapsed time e that a TICK at `now` uses for every pin (R208, R210): after step 1. -/
def tickElapsed (now : Nat) (s : State) : Nat := elapsed s.cfg now (beginCycle now s).tickStart.toNat

/-- TICK t (R208). The batch flags are not read (R214). -/
def execTick (t : Nat) (s : State) : Host.Outcome State Fault Refusal :=
  complete s (tickScan (tickElapsed (operandNow s.cfg t) s) (beginCycle (operandNow s.cfg t) s)) false

end Sys2Proof.Machine
end

