-- ==== Sys2Proof/Machine/Transaction.lean ====
section
/-! DEFINITION. The Transaction Controller commands (spec/41_transaction.md). -/

namespace Sys2Proof.Machine

/-- BWBEGIN (R171, R175). -/
def execBwbegin (s : State) : Host.Outcome State Fault Refusal :=
  if s.wbActive then raise .batch s else complete s (setWbActive true s) false

/-- BWEND (R172, R175). -/
def execBwend (s : State) : Host.Outcome State Fault Refusal :=
  if s.wbActive then complete s (setWbActive false (flushCache s)) false else raise .batch s

/-- BRBEGIN (R173, R175): atomic, so a rejected one leaves the flag Idle. -/
def execBrbegin (s : State) : Host.Outcome State Fault Refusal :=
  if s.rbActive then raise .batch s
  else if inputBits s ≠ [] ∧ s.cfg.sensePresent = false then raise .noSense s
  else complete s (setRbActive true (hardReadAll (inputBits s) s)) false

/-- BREND (R174, R175). -/
def execBrend (s : State) : Host.Outcome State Fault Refusal :=
  if s.rbActive then complete s (setRbActive false s) false else raise .batch s

/-- WRITEBIT b, v (R176): soft inside a write batch, hard outside one. -/
def execWritebit (b : Nat) (v : Bool) (s : State) : Host.Outcome State Fault Refusal :=
  if bitInRange s b then
    if s.wbActive then complete s (pwmDisable b (writeWr b v s)) false
    else complete s (flushCache (pwmDisable b (writeWr b v s))) false
  else raise .address s

/-- READBIT b (R178): soft inside a read batch, hard outside one. -/
def execReadbit (b : Nat) (s : State) : Host.Outcome State Fault Refusal :=
  if bitInRange s b then
    if s.rbActive then complete s s (bitRead s.rd b)
    else if s.cfg.sensePresent then complete s (hardRead b s) (hardReadBit b s)
    else raise .noSense s
  else raise .address s

end Sys2Proof.Machine
end

