-- ==== Sys2Proof/Machine/Dispatch.lean ====
section
/-! DEFINITION. One arm per command: its meaning. -/

namespace Sys2Proof.Machine

def exec (i : Instr) (s : State) : Host.Outcome State Fault Refusal :=
  match i with
  | .setcap n => Sys2Proof.Machine.execSetcap n s
  | .setmode b v => Sys2Proof.Machine.execSetmode b v s
  | .wsoft b v => Sys2Proof.Machine.execWsoft b v s
  | .whard b v => Sys2Proof.Machine.execWhard b v s
  | .flush => Sys2Proof.Machine.execFlush s
  | .rhard b => Sys2Proof.Machine.execRhard b s
  | .rsoft b => Sys2Proof.Machine.execRsoft b s
  | .getw b => Sys2Proof.Machine.execGetw b s
  | .rall => Sys2Proof.Machine.execRall s
  | .bwbegin => Sys2Proof.Machine.execBwbegin s
  | .bwend => Sys2Proof.Machine.execBwend s
  | .brbegin => Sys2Proof.Machine.execBrbegin s
  | .brend => Sys2Proof.Machine.execBrend s
  | .writebit b v => Sys2Proof.Machine.execWritebit b v s
  | .readbit b => Sys2Proof.Machine.execReadbit b s
  | .setfreq hz => Sys2Proof.Machine.execSetfreq hz s
  | .enroll b d => Sys2Proof.Machine.execEnroll b d s
  | .unenroll b => Sys2Proof.Machine.execUnenroll b s
  | .tick t => Sys2Proof.Machine.execTick t s

end Sys2Proof.Machine
end

