-- ==== Sys2Proof/Machine/Step.lean ====
section
/-! DEFINITION. One step: take the host's next command, decode it, run it (30_encoding.md R90, 60_exceptions.md R242). -/

namespace Sys2Proof.Machine

/-- One step. While the host presents no command, or the block is stuck, it holds its state (60_exceptions.md R255,
20_memory.md R77). -/
def step (s : State) : Host.Outcome State Fault Refusal :=
  match nextCommand s with
  | none => idle s
  | some (k, s1) =>
    match decode k with
    | .ok i => exec i s1
    | .error e => rejectIllegal e s1

/-- `s` with the command whose table bits are `w` presented next. -/
def State.withFetchWord (s : State) (nbits w : Nat) : State := presentCommand (commandOfTableWord nbits w) s

end Sys2Proof.Machine
end

