-- ==== Sys2Proof/Machine/Assembler.lean ====
section
/-! DEFINITION. The assembler syntax of 30_encoding.md R102, one command per line, and the one-line pseudo-instructions
of R103. What the spec leaves open of the text (white space, the digits' letter case) is log entry 12. -/

namespace Sys2Proof

/-- White space inside a line. -/
def isBlank (c : Char) : Bool := c == ' ' || c == '\t'

/-- A line without the white space at its two ends. -/
def trimBlank (cs : List Char) : List Char := ((cs.dropWhile isBlank).reverse.dropWhile isBlank).reverse

/-- The parts of a line between separators. -/
def splitAtChar (sep : Char) : List Char → List (List Char)
  | [] => [[]]
  | c :: cs =>
    match splitAtChar sep cs with
    | [] => [[c]]
    | p :: ps => if c == sep then [] :: p :: ps else (c :: p) :: ps

/-- The value of a digit in a base of at most 16. -/
def digitValue (base : Nat) (c : Char) : Option Nat :=
  let v := if c.toNat < 58 then c.toNat - 48 else if c.toNat < 71 then c.toNat - 55 else c.toNat - 87
  let isDigit := (48 ≤ c.toNat && c.toNat ≤ 57) || (65 ≤ c.toNat && c.toNat ≤ 70) || (97 ≤ c.toNat && c.toNat ≤ 102)
  if isDigit && v < base then some v else none

/-- The number that digits write, after those that wrote `acc`. -/
def digitsValue (base acc : Nat) : List Char → Option Nat
  | [] => some acc
  | c :: cs =>
    match digitValue base c with
    | none => none
    | some v => digitsValue base (acc * base + v) cs

/-- An operand: decimal, or hexadecimal with a `0x` prefix (R102). -/
def parseNumber : List Char → Option Nat
  | [] => none
  | '0' :: 'x' :: [] => none
  | '0' :: 'x' :: ds => digitsValue 16 0 ds
  | ds => digitsValue 10 0 ds

/-- All the operands, or none if one of them is no number. -/
def parseNumbers : List (List Char) → Option (List Nat)
  | [] => some []
  | p :: ps =>
    match parseNumber (trimBlank p), parseNumbers ps with
    | some n, some ns => some (n :: ns)
    | _, _ => none

/-- The value operand: an assembler rejects v > 1 (R102). -/
def valueOperand (v : Nat) : Option Bool := if v = 0 then some false else if v = 1 then some true else none

/-- The command a mnemonic and its operands name (R102), before the check that they fit. -/
def instrOfParts (mnemonic : String) (operands : List Nat) : Option Instr :=
  match operands with
  | [] =>
    if mnemonic = "FLUSH" then some .flush
    else if mnemonic = "RALL" then some .rall
    else if mnemonic = "BWBEGIN" then some .bwbegin
    else if mnemonic = "BWEND" then some .bwend
    else if mnemonic = "BRBEGIN" then some .brbegin
    else if mnemonic = "BREND" then some .brend
    else none
  | [x] =>
    if mnemonic = "SETCAP" then some (.setcap x)
    else if mnemonic = "SETBITCOUNT" then some (.setcap x)
    else if mnemonic = "RHARD" then some (.rhard x)
    else if mnemonic = "RSOFT" then some (.rsoft x)
    else if mnemonic = "GETW" then some (.getw x)
    else if mnemonic = "READBIT" then some (.readbit x)
    else if mnemonic = "SETFREQ" then some (.setfreq x)
    else if mnemonic = "UNENROLL" then some (.unenroll x)
    else if mnemonic = "TICK" then some (.tick x)
    else none
  | [x, y] =>
    if mnemonic = "SETMODE" then (valueOperand y).map (Instr.setmode x)
    else if mnemonic = "WSOFT" then (valueOperand y).map (Instr.wsoft x)
    else if mnemonic = "WHARD" then (valueOperand y).map (Instr.whard x)
    else if mnemonic = "WRITEBIT" then (valueOperand y).map (Instr.writebit x)
    else if mnemonic = "ENROLL" then some (.enroll x y)
    else if mnemonic = "WRITEPWM" then some (.enroll x y)
    else none
  | _ => none

/-- An assembler rejects an operand that does not fit its field (R102). -/
def assembleParts (mnemonic : String) (operands : List Nat) : Option Instr :=
  match instrOfParts mnemonic operands with
  | some i => if i.wf then some i else none
  | none => none

/-- `in` and `out` in the place of SETMODE's value operand (R103). -/
def directionWord (cs : List Char) : List Char :=
  if cs = ['i', 'n'] then ['1'] else if cs = ['o', 'u', 't'] then ['0'] else cs

/-- The operand texts of a command; SETMODE's second may be a direction word (R103). -/
def operandTexts (mnemonic : String) (cs : List Char) : List (List Char) :=
  let parts := (splitAtChar ',' cs).map trimBlank
  match parts with
  | [[]] => []
  | [b, w] => if mnemonic = "SETMODE" then [b, directionWord w] else [b, w]
  | _ => parts

/-- One line of assembly: `;` starts a comment (R102). -/
def assembleLine (line : List Char) : Option Instr :=
  let code := trimBlank (line.takeWhile (fun c => c != ';'))
  let mnemonic := String.ofList (code.takeWhile (fun c => !isBlank c))
  match parseNumbers (operandTexts mnemonic (trimBlank (code.dropWhile (fun c => !isBlank c)))) with
  | some ns => assembleParts mnemonic ns
  | none => none

end Sys2Proof
end

