-- ==== Sys2Proof/Safety.lean ====
section
/-! DEFINITION. What claims are stated in: a legal state (spec/10_state.md), and what an observer of the link can read
off the event sequence (spec/20_memory.md R64, R72, R73, R79). -/

namespace Sys2Proof.Machine

/-- Byte k of every array holds 0. -/
abbrev byteIsZero (s : State) (k : Nat) : Prop := byteAt s.dir k = 0#8 ∧ byteAt s.wr k = 0#8 ∧ byteAt s.rd k = 0#8

/-- The unreachable bytes, at positions byteCount and above, hold 0 (10_state.md R25). -/
abbrev State.UnreachableZero (s : State) : Prop := ∀ k, k < 16 → s.byteCount.toNat ≤ k → byteIsZero s k

/-- Every field is at a legal value (10_state.md R36): legal parameters, byteCount at most 16, the unreachable bytes 0,
the period between MIN_PERIOD_US and 1,000,000, and tickStart a number of TIME_BITS bits. -/
abbrev State.Legal (s : State) : Prop :=
  s.cfg.wf = true ∧ s.byteCount.toNat ≤ 16 ∧ s.UnreachableZero ∧
    (s.cfg.minPeriodUs ≤ s.period.toNat ∧ s.period.toNat ≤ 1000000) ∧ s.tickStart.toNat < 2 ^ s.cfg.timeBits

/-- Every link primitive completes: the spec's assumption (20_memory.md R77). -/
abbrev State.LinkReliable (s : State) : Prop := s.linkHangsAfter = none

/-- The block is not stuck in a command whose link primitive never returned (20_memory.md R77). -/
abbrev State.Running (s : State) : Prop := s.linkStuck = false

/-- The events an observer has seen since the link was last quiet. -/
inductive LinkPhase where
  /-- Outside a flush. -/
  | quiet
  /-- CLOCK was driven Low. -/
  | opened
  /-- LATCH was driven Low, and these bytes have been shifted. -/
  | shifting (sent : List Byte)
  /-- A flush has just ended with LATCH High. A SAMPLE may follow it. -/
  | latched
  /-- The events are not a sequence of whole flushes, each with at most one SAMPLE after it. -/
  | broken
deriving DecidableEq, Repr

/-- What an observer of the link knows: the phase, and the bytes of the last whole flush, if there was one. -/
structure LinkView where
  phase : LinkPhase
  chain : Option (List Byte)
deriving DecidableEq, Repr

/-- One more event seen (20_memory.md R72, R73, R79). -/
def LinkView.see (v : LinkView) (e : LinkEvent) : LinkView :=
  match v.phase, e with
  | .quiet, .setLevel .clock .low => { v with phase := .opened }
  | .latched, .setLevel .clock .low => { v with phase := .opened }
  | .opened, .setLevel .latch .low => { v with phase := .shifting [] }
  | .shifting sent, .shiftByte b => { v with phase := .shifting (sent ++ [b]) }
  | .shifting sent, .setLevel .latch .high => { phase := .latched, chain := some sent }
  | .latched, .sample _ => { v with phase := .quiet }
  | _, _ => { v with phase := .broken }

/-- What an observer knows after the whole event sequence. -/
def linkView (es : List LinkEvent) : LinkView := es.foldl LinkView.see { phase := .quiet, chain := none }

/-- The events are whole flushes, each with at most one SAMPLE right after it (20_memory.md R68, R69, R79), and once a
flush has ended the chain outputs are its bytes (R73) and LATCH is High (10_state.md R33). -/
abbrev State.LinkConsistent (s : State) : Prop :=
  ((linkView s.events).phase = .quiet ∨ (linkView s.events).phase = .latched) ∧
    ((linkView s.events).chain = none ∨ ((linkView s.events).chain = some s.chainOut ∧ s.lvl.latch = .high))

/-- The level that the chain output for logical bit j presents once the bytes T are latched, `BitRead(T, j)` (20_memory.md
R73). -/
def listBit (bytes : List Byte) (j : Nat) : Bool := (bytes.getD (byteOf j) 0#8).getLsbD (offOf j)

/-- The bits that link events put on the serial data line, in order (20_memory.md R64, R71). -/
def serialBits (es : List LinkEvent) : List Bool :=
  es.flatMap fun e =>
    match e with
    | .shiftByte b => shiftBits b
    | .setLevel _ _ => []
    | .sample _ => []

/-- The levels that were sampled, in order (20_memory.md R70). -/
def sampledLevels (es : List LinkEvent) : List Level :=
  es.filterMap fun e =>
    match e with
    | .sample l => some l
    | .shiftByte _ => none
    | .setLevel _ _ => none

/-- The target of an enrolled pin in range, at elapsed time e (42_pwm.md R211); none for a pin TICK skips (R210). -/
def scanTarget (e : Nat) (s : State) (i : Nat) : Option Track :=
  match dutyAt s i with
  | .disabled => none
  | .enabled d => if i < bitCount s then some (pwmTarget s.period.toNat d.toNat e) else none

/-- The drive of pin i in a TICK with elapsed time e from `s`, if there is one: its target differs from its tracked
state (42_pwm.md R213). -/
def drivenPin (e : Nat) (s : State) (i : Nat) : Option (Nat × Track) :=
  match scanTarget e s i with
  | none => none
  | some g => if trackAt s i = g then none else some (i, g)

/-- The pins that a TICK with elapsed time e drives from `s`, ascending, each with its target (42_pwm.md R208). -/
def drivenPins (e : Nat) (s : State) : List (Nat × Track) := (List.range Config.pwmEntries).filterMap (drivenPin e s)

/-- The write cache after these drives, in order (42_pwm.md R212). -/
def cacheAfter (pins : List (Nat × Track)) (arr : ByteArray16) : ByteArray16 :=
  pins.foldl (fun a p => bitWrite a p.1 (decide (p.2 = .on))) arr

/-- The link events of these drives, for a chain of n bytes: one flush after each pin's write cache update (42_pwm.md
R218). -/
def driveEvents (n : Nat) (arr : ByteArray16) (pins : List (Nat × Track)) : List LinkEvent :=
  (List.range pins.length).flatMap fun k => flushEvents (bytesOf n (cacheAfter (pins.take (k + 1)) arr))

/-- The columns of the access matrix (10_state.md R38). -/
inductive Element where
  | dir
  | wr
  | rd
  | byteCount
  | wbActive
  | rbActive
  | period
  | tickStart
  | duty
  | track
deriving DecidableEq, Repr

/-- The elements a command may write: the W, W0 and Wc entries of its row in the access matrix (10_state.md R38). -/
def mayWrite : Instr → List Element
  | .setcap _ => [.dir, .wr, .rd, .byteCount, .track]
  | .setmode _ _ => [.dir]
  | .wsoft _ _ => [.wr, .duty]
  | .whard _ _ => [.wr, .duty]
  | .flush => []
  | .rhard _ => [.rd]
  | .rsoft _ => []
  | .getw _ => []
  | .rall => [.rd]
  | .bwbegin => [.wbActive]
  | .bwend => [.wbActive]
  | .brbegin => [.rd, .rbActive]
  | .brend => [.rbActive]
  | .writebit _ _ => [.wr, .duty]
  | .readbit _ => [.rd]
  | .setfreq _ => [.period]
  | .enroll _ _ => [.duty, .track]
  | .unenroll _ => [.duty, .track]
  | .tick _ => [.wr, .tickStart, .track]

/-- The error a command reports from `s`, if there is one: the first that applies of its row (60_exceptions.md R244, with
the causes of R240). -/
def reportedError (i : Instr) (s : State) : Option Status :=
  let outOfRange (b : Nat) : Bool := decide (8 * s.byteCount.toNat ≤ b)
  let noInput : Bool := (List.range (8 * s.byteCount.toNat)).all fun j => !bitRead s.dir j
  match i with
  | .setcap n => if 128 < n ∨ n % 8 ≠ 0 then some .capacity else none
  | .setmode b _ => if outOfRange b then some .address else none
  | .wsoft b _ => if outOfRange b then some .address else none
  | .whard b _ => if outOfRange b then some .address else none
  | .flush => none
  | .rhard b => if outOfRange b then some .address else if s.cfg.sensePresent then none else some .noSense
  | .rsoft b => if outOfRange b then some .address else none
  | .getw b => if outOfRange b then some .address else none
  | .rall => if s.cfg.sensePresent || noInput then none else some .noSense
  | .bwbegin => if s.wbActive then some .batch else none
  | .bwend => if s.wbActive then none else some .batch
  | .brbegin => if s.rbActive then some .batch else if s.cfg.sensePresent || noInput then none else some .noSense
  | .brend => if s.rbActive then none else some .batch
  | .writebit b _ => if outOfRange b then some .address else none
  | .readbit b =>
    if outOfRange b then some .address else if s.rbActive || s.cfg.sensePresent then none else some .noSense
  | .setfreq hz => if hz = 0 ∨ 1000000 / hz < s.cfg.minPeriodUs then some .frequency else none
  | .enroll b _ => if 64 ≤ b ∨ outOfRange b then some .address else none
  | .unenroll b => if 64 ≤ b then some .address else none
  | .tick _ => none

/-- The DATA bit of an OK response: the returned bit for RHARD, RSOFT, GETW and READBIT, else 0 (30_encoding.md R95). -/
def returnsData : Instr → Bool
  | .setcap _ => false
  | .setmode _ _ => false
  | .wsoft _ _ => false
  | .whard _ _ => false
  | .flush => false
  | .rhard _ => true
  | .rsoft _ => true
  | .getw _ => true
  | .rall => false
  | .bwbegin => false
  | .bwend => false
  | .brbegin => false
  | .brend => false
  | .writebit _ _ => false
  | .readbit _ => true
  | .setfreq _ => false
  | .enroll _ _ => false
  | .unenroll _ => false
  | .tick _ => false

/-- How many link events a completed command emits (70_reset_and_hazards.md R291): n = byteCount, k input bits, m driven
pins. -/
def eventCount (i : Instr) (s : State) : Nat :=
  let n := s.byteCount.toNat
  match i with
  | .setcap _ => 0
  | .setmode _ _ => 0
  | .wsoft _ _ => 0
  | .whard _ _ => n + 3
  | .flush => n + 3
  | .rhard _ => n + 4
  | .rsoft _ => 0
  | .getw _ => 0
  | .rall => (inputBits s).length * (n + 4)
  | .bwbegin => 0
  | .bwend => n + 3
  | .brbegin => (inputBits s).length * (n + 4)
  | .brend => 0
  | .writebit _ _ => if s.wbActive then 0 else n + 3
  | .readbit _ => if s.rbActive then 0 else n + 4
  | .setfreq _ => 0
  | .enroll _ _ => 0
  | .unenroll _ => 0
  | .tick t => (drivenPins (tickElapsed (operandNow s.cfg t) s) s).length * (n + 3)

/-- The must-be-0 fields of a format are 0 (30_encoding.md R92). -/
def reservedZero (f : Format) (c : Word) : Bool :=
  match f with
  | .fn => decide (bitField c = 0) && decide (valField c = 0)
  | .fa => decide (bitField c = 0) && decide (valField c = 0)
  | .fb => decide (valField c = 0)
  | .fbv => decide (valField c < 2)
  | .fbd => decide (valField c < 256)

/-- The operands and the E_ILLEGAL of a command rule: a word whose OP is `op` runs the command that `mk` reads from its
fields where the must-be-0 fields of format `f` are 0, and is rejected where they are not (30_encoding.md R92 to R99). -/
def CommandForm (op : Nat) (f : Format) (mk : Command → Instr) : Prop :=
  ∀ (s : State) (k : Command) (rest : List Command), s.Running → s.commands = k :: rest → opField k.c = op →
    (reservedZero f k.c = true → step s = exec (mk k) { s with commands := rest }) ∧
    (reservedZero f k.c = false →
      step s = .next { s with commands := rest, responses := s.responses ++ [{ status := .illegal, data := false }] })

/-- `o` is the rejection of a command taken in `s`: the response, and no other change (60_exceptions.md R241). -/
def Rejected (o : Host.Outcome State Fault Refusal) (status : Status) (s : State) : Prop :=
  o = .next { s with responses := s.responses ++ [{ status := status, data := false }] }

/-- `t` is `s` after `BitWrite(wr, b, v)` and `PwmDisable(b)`, and the OK response (40_bit_buffer.md R125). -/
def SoftWritten (b : Nat) (v : Bool) (s t : State) : Prop :=
  (∀ j, bitRead t.wr j = if j = b then v else bitRead s.wr j) ∧
  (∀ j, dutyAt t j = if j = b then .disabled else dutyAt s j) ∧
  t = { s with wr := t.wr, duty := t.duty, responses := s.responses ++ [{ status := .ok, data := false }] }

/-- `t` is `s` after the soft write and a flush of the whole write cache (40_bit_buffer.md R127). -/
def HardWritten (b : Nat) (v : Bool) (s t : State) : Prop :=
  (∀ j, bitRead t.wr j = if j = b then v else bitRead s.wr j) ∧
  (∀ j, dutyAt t j = if j = b then .disabled else dutyAt s j) ∧
  t.chainOut = bytesOf s.byteCount.toNat t.wr ∧
  t.events = s.events ++ flushEvents (bytesOf s.byteCount.toNat t.wr) ∧ t.lvl.latch = .high ∧
  t = { s with
    wr := t.wr, duty := t.duty, chainOut := t.chainOut, events := t.events, lvl := t.lvl, draws := t.draws
    responses := s.responses ++ [{ status := .ok, data := false }] }

/-- `t` is `s` after the isolation flush for b and a sample of level l, stored and returned (40_bit_buffer.md R120, R131;
20_memory.md R74). -/
def HardlyRead (b : Nat) (l : Level) (s t : State) : Prop :=
  t.events = s.events ++ flushEvents (isolationPattern s b) ++ [.sample l] ∧
  (∀ j, bitRead t.rd j = if j = b then decide (l = .high) else bitRead s.rd j) ∧
  t.chainOut = isolationPattern s b ∧ t.lvl.latch = .high ∧
  t = { s with
    rd := t.rd, chainOut := t.chainOut, events := t.events, lvl := t.lvl, draws := t.draws
    senseLine := t.senseLine
    responses := s.responses ++ [{ status := .ok, data := decide (l = .high) }] }

/-- The commands that flush the write cache, where they emit link events at all (20_memory.md R80). -/
def latchesWriteCache (s : State) : Instr → Bool
  | .setcap _ => false
  | .setmode _ _ => false
  | .wsoft _ _ => false
  | .whard _ _ => true
  | .flush => true
  | .rhard _ => false
  | .rsoft _ => false
  | .getw _ => false
  | .rall => false
  | .bwbegin => false
  | .bwend => true
  | .brbegin => false
  | .brend => false
  | .writebit _ _ => !s.wbActive
  | .readbit _ => false
  | .setfreq _ => false
  | .enroll _ _ => false
  | .unenroll _ => false
  | .tick _ => true

/-- The commands that flush an isolation pattern, where they emit link events at all (20_memory.md R80). -/
def latchesPattern (s : State) : Instr → Bool
  | .setcap _ => false
  | .setmode _ _ => false
  | .wsoft _ _ => false
  | .whard _ _ => false
  | .flush => false
  | .rhard _ => true
  | .rsoft _ => false
  | .getw _ => false
  | .rall => true
  | .bwbegin => false
  | .bwend => false
  | .brbegin => true
  | .brend => false
  | .writebit _ _ => false
  | .readbit _ => !s.rbActive
  | .setfreq _ => false
  | .enroll _ _ => false
  | .unenroll _ => false
  | .tick _ => false

/-- The write that a command of a write batch adds to the write cache, if it adds one and emits no flush, for a buffer of
n bytes (41_transaction.md R177). -/
def pendingWrite (n : Nat) : Instr → Option (Nat × Bool)
  | .wsoft b v => if b < 8 * n then some (b, v) else none
  | .writebit b v => if b < 8 * n then some (b, v) else none
  | .setcap _ => none
  | .setmode _ _ => none
  | .whard _ _ => none
  | .flush => none
  | .rhard _ => none
  | .rsoft _ => none
  | .getw _ => none
  | .rall => none
  | .bwbegin => none
  | .bwend => none
  | .brbegin => none
  | .brend => none
  | .readbit _ => none
  | .setfreq _ => none
  | .enroll _ _ => none
  | .unenroll _ => none
  | .tick _ => none

/-- The commands run one after another. -/
def execAll : List Instr → State → Host.Outcome State Fault Refusal
  | [], s => .next s
  | i :: is, s =>
    match exec i s with
    | .next t => execAll is t
    | .fault f => .fault f
    | .refused r => .refused r

/-! The assembler. -/

/-- The words that a mnemonic and its operands encode (30_encoding.md R102). -/
def Assembles (mnemonic : String) (operands : List Nat) (c a : Word) : Prop :=
  (assembleParts mnemonic operands).map encode = some { c := c, a := a }

/-- Text without a blank, a comma or the start of a comment: a mnemonic or an operand (30_encoding.md R102). -/
abbrev PlainText (cs : List Char) : Prop := ∀ c ∈ cs, isBlank c = false ∧ c ≠ ',' ∧ c ≠ ';'

end Sys2Proof.Machine
end

