-- ==== Sys2Proof/Certificates/Slice0/Obligations.lean ====
section
/-! DEFINITION. The statements for the provers. A statement about a next state says what changed field by field and,
by `t = { s with … }`, that every other field of State is unchanged. -/

open Sys2Proof Sys2Proof.Machine

/-! ### Encoding -/

/-- 30_encoding.md R92, R97, R102: decoding an encoded well-formed command gives it back, with every operand; and every
command that decodes is well-formed and is the encoding of what it decodes to, up to the argument word A, which only
format FA reads. -/
def Obligations.DecodeAndEncodeAgree : Prop :=
  (∀ i : Instr, i.wf = true → decode (encode i) = .ok i) ∧
  (∀ (k : Command) (i : Instr), decode k = .ok i →
    i.wf = true ∧ (encode i).c = k.c ∧ (i.format = .fa → encode i = k) ∧ (i.format ≠ .fa → (encode i).a = 0#32))

/-- 30_encoding.md R98: a command word decodes exactly when it matches a row of the opcode map, `C AND mask = match`, with
the masks of the five formats and the match value `OP << 24`; the row is the one of the command it selects; at most one
row matches; and every word either selects a command or is illegal. -/
def Obligations.DecoderSelectsTheMatchingRow : Prop :=
  (∀ k : Command, (∃ i, decode k = .ok i) ↔ ∃ r ∈ opcodeMap, k.c &&& r.format.mask = BitVec.ofNat 32 (r.op * 2 ^ 24)) ∧
  (∀ (k : Command) (i : Instr), decode k = .ok i →
    ∃ r ∈ opcodeMap, k.c &&& r.format.mask = BitVec.ofNat 32 (r.op * 2 ^ 24) ∧ r.op = opField k.c ∧
      r.mnemonic = i.mnemonic ∧ r.format = i.format) ∧
  (∀ r ∈ opcodeMap, ∀ r' ∈ opcodeMap, ∀ c : Word, r.matches c = true → r'.matches c = true → r = r') ∧
  Format.fn.mask = 0xFFFFFFFF#32 ∧ Format.fa.mask = 0xFFFFFFFF#32 ∧ Format.fb.mask = 0xFF00FFFF#32 ∧
  Format.fbv.mask = 0xFF00FFFE#32 ∧ Format.fbd.mask = 0xFF00FF00#32 ∧
  (∀ k : Command, (∃ i, decode k = .ok i) ∨ ∃ e, decode k = .error e)

/-- 30_encoding.md R99: a command word whose OP is unassigned, or whose must-be-0 field is not 0, is illegal, the all-zero
word among them; and an illegal command responds E_ILLEGAL, changes no state and emits no link event. -/
def Obligations.IllegalWordsAreRejected : Prop :=
  (∀ k : Command,
    (opField k.c = 0 ∨ (0x0A ≤ opField k.c ∧ opField k.c ≤ 0x0F) ∨ (0x16 ≤ opField k.c ∧ opField k.c ≤ 0x1F) ∨
      0x24 ≤ opField k.c) → decode k = .error .unassignedOp) ∧
  (∀ k : Command, opField k.c ∈ [0x01, 0x05, 0x09, 0x10, 0x11, 0x12, 0x13, 0x20, 0x23] →
    (bitField k.c ≠ 0 ∨ valField k.c ≠ 0) → decode k = .error .reservedBit ∨ decode k = .error .reservedVal) ∧
  (∀ k : Command, opField k.c ∈ [0x06, 0x07, 0x08, 0x15, 0x22] → valField k.c ≠ 0 → decode k = .error .reservedVal) ∧
  (∀ k : Command, opField k.c ∈ [0x02, 0x03, 0x04, 0x14] → 2 ≤ valField k.c → decode k = .error .reservedVal) ∧
  (∀ k : Command, opField k.c = 0x21 → 256 ≤ valField k.c → decode k = .error .reservedVal) ∧
  (∀ a : Word, decode { c := 0#32, a := a } = .error .unassignedOp) ∧
  (∀ (s : State) (k : Command) (rest : List Command) (e : DecodeError), s.Running → s.commands = k :: rest →
    decode k = .error e →
    step s = .next { s with commands := rest, responses := s.responses ++ [{ status := .illegal, data := false }] })

/-- A sanity statement: words written out from the encodings of 30_encoding.md R92 and R97, at least one of each format
and family, decode to the command they stand for. -/
def Obligations.WrittenOutWordsDecode : Prop :=
  decode { c := 0b00000001_00000000_00000000_00000000#32, a := 0x10#32 } = .ok (.setcap 16) ∧
  decode { c := 0b00000010_00000101_00000000_00000001#32, a := 0#32 } = .ok (.setmode 5 true) ∧
  decode { c := 0b00000101_00000000_00000000_00000000#32, a := 0xFFFFFFFF#32 } = .ok .flush ∧
  decode { c := 0b00000110_11001000_00000000_00000000#32, a := 0#32 } = .ok (.rhard 200) ∧
  decode { c := 0b00010100_00001100_00000000_00000001#32, a := 0#32 } = .ok (.writebit 12 true) ∧
  decode { c := 0b00010101_00001001_00000000_00000000#32, a := 0#32 } = .ok (.readbit 9) ∧
  decode { c := 0b00100001_00000010_00000000_10000000#32, a := 0#32 } = .ok (.enroll 2 128) ∧
  decode { c := 0b00100010_00111111_00000000_00000000#32, a := 0#32 } = .ok (.unenroll 63) ∧
  decode { c := 0b00100011_00000000_00000000_00000000#32, a := 20000#32 } = .ok (.tick 20000)

/-- 30_encoding.md R102, R103: a command that the assembler accepts is well-formed, so its encoding decodes to it; the
expansion of each pseudo-instruction, command by command; and an expansion whose operands fit is a list of well-formed
commands. -/
def Obligations.AssemblerEmitsDecodableCommands : Prop :=
  (∀ (line : List Char) (i : Instr), assembleLine line = some i → decode (encode i) = .ok i) ∧
  (∀ (mnemonic : String) (operands : List Nat) (i : Instr), assembleParts mnemonic operands = some i →
    decode (encode i) = .ok i) ∧
  (∀ b, (Pseudo.setmodeIn b).expand = [.setmode b true] ∧ (Pseudo.setmodeOut b).expand = [.setmode b false]) ∧
  (∀ n, (Pseudo.setbitcount n).expand = [.setcap n]) ∧
  (∀ b d, (Pseudo.writepwm b d).expand = [.enroll b d]) ∧
  (∀ ws : List (Nat × Bool),
    (Pseudo.batchwrite ws).expand = [.bwbegin] ++ ws.map (fun w => .writebit w.1 w.2) ++ [.bwend]) ∧
  (∀ bs : List Nat, (Pseudo.batchread bs).expand = [.brbegin] ++ bs.map (fun b => .readbit b) ++ [.brend]) ∧
  (∀ b ≤ 255, (∀ i ∈ (Pseudo.setmodeIn b).expand ++ (Pseudo.setmodeOut b).expand, i.wf = true)) ∧
  (∀ n < 2 ^ 32, ∀ i ∈ (Pseudo.setbitcount n).expand, i.wf = true) ∧
  (∀ b ≤ 255, ∀ d ≤ 255, ∀ i ∈ (Pseudo.writepwm b d).expand, i.wf = true) ∧
  (∀ ws : List (Nat × Bool), (∀ w ∈ ws, w.1 ≤ 255) → ∀ i ∈ (Pseudo.batchwrite ws).expand, i.wf = true) ∧
  (∀ bs : List Nat, (∀ b ∈ bs, b ≤ 255) → ∀ i ∈ (Pseudo.batchread bs).expand, i.wf = true)

/-- 30_encoding.md R102, with the two renamed mnemonics of R103: the words that each mnemonic and its operands encode, row by
row of the table, A being 0 wherever the table does not give it; and what an assembler rejects. -/
def Obligations.TheAssemblerEncodesTheMnemonicTable : Prop :=
  (∀ b ≤ 255, ∀ v ≤ 1, ∀ d ≤ 255, ∀ n < 2 ^ 32,
    Assembles "SETCAP" [n] 0x01000000#32 (BitVec.ofNat 32 n) ∧
    Assembles "SETMODE" [b, v] (0x02000000#32 ||| BitVec.ofNat 32 b <<< 16 ||| BitVec.ofNat 32 v) 0#32 ∧
    Assembles "WSOFT" [b, v] (0x03000000#32 ||| BitVec.ofNat 32 b <<< 16 ||| BitVec.ofNat 32 v) 0#32 ∧
    Assembles "WHARD" [b, v] (0x04000000#32 ||| BitVec.ofNat 32 b <<< 16 ||| BitVec.ofNat 32 v) 0#32 ∧
    Assembles "FLUSH" [] 0x05000000#32 0#32 ∧
    Assembles "RHARD" [b] (0x06000000#32 ||| BitVec.ofNat 32 b <<< 16) 0#32 ∧
    Assembles "RSOFT" [b] (0x07000000#32 ||| BitVec.ofNat 32 b <<< 16) 0#32 ∧
    Assembles "GETW" [b] (0x08000000#32 ||| BitVec.ofNat 32 b <<< 16) 0#32 ∧
    Assembles "RALL" [] 0x09000000#32 0#32 ∧
    Assembles "BWBEGIN" [] 0x10000000#32 0#32 ∧
    Assembles "BWEND" [] 0x11000000#32 0#32 ∧
    Assembles "BRBEGIN" [] 0x12000000#32 0#32 ∧
    Assembles "BREND" [] 0x13000000#32 0#32 ∧
    Assembles "WRITEBIT" [b, v] (0x14000000#32 ||| BitVec.ofNat 32 b <<< 16 ||| BitVec.ofNat 32 v) 0#32 ∧
    Assembles "READBIT" [b] (0x15000000#32 ||| BitVec.ofNat 32 b <<< 16) 0#32 ∧
    Assembles "SETFREQ" [n] 0x20000000#32 (BitVec.ofNat 32 n) ∧
    Assembles "ENROLL" [b, d] (0x21000000#32 ||| BitVec.ofNat 32 b <<< 16 ||| BitVec.ofNat 32 d) 0#32 ∧
    Assembles "UNENROLL" [b] (0x22000000#32 ||| BitVec.ofNat 32 b <<< 16) 0#32 ∧
    Assembles "TICK" [n] 0x23000000#32 (BitVec.ofNat 32 n) ∧
    Assembles "SETBITCOUNT" [n] 0x01000000#32 (BitVec.ofNat 32 n) ∧
    Assembles "WRITEPWM" [b, d] (0x21000000#32 ||| BitVec.ofNat 32 b <<< 16 ||| BitVec.ofNat 32 d) 0#32) ∧
  (∀ m ∈ ["SETMODE", "WSOFT", "WHARD", "WRITEBIT"], ∀ b v, 255 < b ∨ 1 < v → assembleParts m [b, v] = none) ∧
  (∀ m ∈ ["ENROLL", "WRITEPWM"], ∀ b d, 255 < b ∨ 255 < d → assembleParts m [b, d] = none) ∧
  (∀ m ∈ ["RHARD", "RSOFT", "GETW", "READBIT", "UNENROLL"], ∀ b, 255 < b → assembleParts m [b] = none) ∧
  (∀ m ∈ ["SETCAP", "SETBITCOUNT", "SETFREQ", "TICK"], ∀ n, 2 ^ 32 - 1 < n → assembleParts m [n] = none)

/-- 30_encoding.md R102, R103: how a line of text is read: a comment counts for nothing; the mnemonic and its operands, of
which there are at most two, name the command; `in` and `out` stand for the values 1 and 0 of SETMODE; and every number is
read from its decimal digits, and from its hexadecimal digits after `0x`. The one blank between the parts is the model's
choice (log entry 12). -/
def Obligations.TheAssemblerReadsOneCommandPerLine : Prop :=
  (∀ line comment : List Char, assembleLine (line ++ ';' :: comment) = assembleLine line) ∧
  (∀ (m px py : List Char) (x y : Nat), m ≠ [] → PlainText m → PlainText px → PlainText py → parseNumber px = some x →
    parseNumber py = some y →
    assembleLine m = assembleParts (String.ofList m) [] ∧
    assembleLine (m ++ ' ' :: px) = assembleParts (String.ofList m) [x] ∧
    assembleLine (m ++ ' ' :: (px ++ ',' :: ' ' :: py)) = assembleParts (String.ofList m) [x, y]) ∧
  (∀ (px : List Char) (x : Nat), PlainText px → parseNumber px = some x →
    assembleLine ("SETMODE ".toList ++ px ++ ", in".toList) = assembleParts "SETMODE" [x, 1] ∧
    assembleLine ("SETMODE ".toList ++ px ++ ", out".toList) = assembleParts "SETMODE" [x, 0]) ∧
  (∀ n : Nat, parseNumber (Nat.toDigits 10 n) = some n ∧ parseNumber ('0' :: 'x' :: Nat.toDigits 16 n) = some n)

/-! ### The step -/

/-- When the next command decodes to i and the block is not stuck, the step is the meaning of i at the state from which the
command is taken; the encoding of a well-formed i runs i; and while the host presents no command, or the block is stuck, it
holds its state (60_exceptions.md R255, 20_memory.md R77; how commands are presented is the model's choice, log entry 2). -/
def Obligations.StepRunsTheDecodedCommand : Prop :=
  (∀ (s : State) (k : Command) (rest : List Command) (i : Instr), s.Running → s.commands = k :: rest → decode k = .ok i →
    step s = exec i { s with commands := rest }) ∧
  (∀ (s : State) (rest : List Command) (i : Instr), i.wf = true → s.Running → s.commands = encode i :: rest →
    step s = exec i { s with commands := rest }) ∧
  (∀ s : State, s.commands = [] ∨ s.linkStuck = true → step s = .next s)

/-- 30_encoding.md R90, 20_memory.md R77, R78: a step that takes a command takes just that one, gives exactly one response
unless the block is stuck in it, when it gives none, and only appends to the link event sequence. The parameters never
change. -/
def Obligations.EveryCommandGivesOneResponse : Prop :=
  ∀ (s t : State) (k : Command) (rest : List Command), s.Running → s.commands = k :: rest → step s = .next t →
    t.commands = rest ∧ (t.Running → ∃ r, t.responses = s.responses ++ [r]) ∧
    (t.linkStuck = true → t.responses = s.responses) ∧ (∃ es, t.events = s.events ++ es) ∧ t.cfg = s.cfg

/-- 20_memory.md R77, 60_exceptions.md R241: every step, from every state, ends in a next state, never in a fault or a
refusal; and where every link primitive completes no step leaves the block stuck, so it goes on accepting commands whatever
was presented. -/
def Obligations.StepNeverStops : Prop :=
  (∀ s : State, ∃ t, step s = .next t) ∧
  (∀ s t : State, s.LinkReliable → s.Running → step s = .next t → t.LinkReliable ∧ t.Running)

/-- 20_memory.md R77, 70_reset_and_hazards.md R288: a command that emits m link events has its ordinary outcome where the
environment lets at least m primitives complete; where it lets fewer the block is stuck in the command: it gives no response
and the command has no effect that could be seen (R69, R18; the form is the model's, log entry 8). A stuck block stays as it
is for good: no number of steps changes it. -/
def Obligations.AHungPrimitiveLeavesTheBlockStuck : Prop :=
  (∀ (i : Instr) (s u : State) (n : Nat), s.linkHangsAfter = some n → exec i { s with linkHangsAfter := none } = .next u →
    (u.events.length - s.events.length ≤ n →
      exec i s = .next { u with linkHangsAfter := some (n - (u.events.length - s.events.length)) }) ∧
    (n < u.events.length - s.events.length → exec i s = .next { s with linkStuck := true })) ∧
  (∀ (s : State) (n : Nat), s.linkStuck = true → Host.Core.run Sys2Proof.core n s = .next s)

/-! ### Reset and the invariants -/

/-- 70_reset_and_hazards.md R270, with the values of 10_state.md R36: the state after reset, for every choice of the
parameters. Nothing is said of the external chain and line levels, which are unknown (R272). -/
def Obligations.ResetHoldsTheStatedValues : Prop :=
  ∀ s : State, (s = State.reset ∨ ∃ cfg, s = State.resetWith cfg) →
    (∀ k < 16, byteIsZero s k) ∧ s.byteCount.toNat = 0 ∧ s.wbActive = false ∧ s.rbActive = false ∧
    s.period.toNat = 10000 ∧ s.tickStart.toNat = 0 ∧ (∀ i < 64, dutyAt s i = .disabled) ∧
    (∀ i < 64, trackAt s i = .unknown) ∧ s.events = []

/-- The invariants hold at reset, for every legal choice of the parameters. -/
def Obligations.ResetIsLegalAndConsistent : Prop :=
  ∀ cfg : Config, cfg.wf = true → (State.resetWith cfg).Legal ∧ (State.resetWith cfg).LinkConsistent

/-- 10_state.md R24, R25, R28, R29: every step keeps every field at a legal value; in particular the unreachable bytes of
the three arrays hold 0 at every point. -/
def Obligations.StepKeepsTheStateLegal : Prop :=
  ∀ s t : State, s.Legal → step s = .next t → t.Legal

/-- 20_memory.md R68, R69, R73, R79, 10_state.md R33: every step keeps the link event sequence a sequence of whole
flushes, each with at most one SAMPLE right after it, with the chain outputs equal to the bytes of the last flush and LATCH
High. -/
def Obligations.StepKeepsTheLinkConsistent : Prop :=
  ∀ s t : State, s.LinkConsistent → step s = .next t → t.LinkConsistent

/-! ### Errors -/

/-- 60_exceptions.md R240, 30_encoding.md R95: the STATUS codes. -/
def Obligations.StatusCodesAreTheSpecs : Prop :=
  statusCode .ok = 0x00#8 ∧ statusCode .illegal = 0x01#8 ∧ statusCode .capacity = 0x02#8 ∧
  statusCode .frequency = 0x03#8 ∧ statusCode .address = 0x04#8 ∧ statusCode .batch = 0x05#8 ∧
  statusCode .noSense = 0x06#8 ∧
  ∀ st : Status, (statusCode st = 0#8 ↔ st = .ok) ∧ (statusCode st).toNat ≤ 0x06

/-- 60_exceptions.md R241: a command that responds with a STATUS other than OK leaves every state element as it was, emits
no link event, and responds DATA = 0. -/
def Obligations.ARejectedCommandHasNoEffect : Prop :=
  ∀ (s t : State) (r : Response), step s = .next t → t.responses = s.responses ++ [r] → r.status ≠ .ok →
    r.data = false ∧ t = { s with commands := s.commands.tail, responses := s.responses ++ [r] }

/-- 60_exceptions.md R244, R243: which error a command reports when several apply, and that it responds OK when none
does. -/
def Obligations.EachCommandReportsItsFirstError : Prop :=
  ∀ (i : Instr) (s : State), s.LinkReliable →
    (∀ e, reportedError i s = some e →
      exec i s = .next { s with responses := s.responses ++ [{ status := e, data := false }] }) ∧
    (reportedError i s = none →
      ∃ t d, exec i s = .next t ∧ t.responses = s.responses ++ [{ status := .ok, data := d }] ∧
        (returnsData i = false → d = false))

/-! ### Whole-machine rules -/

/-- 10_state.md R38: a command writes no element outside its row of the access matrix. -/
def Obligations.CommandsWriteOnlyTheirMatrixRow : Prop :=
  ∀ (i : Instr) (s t : State), exec i s = .next t →
    (.dir ∉ mayWrite i → t.dir = s.dir) ∧ (.wr ∉ mayWrite i → t.wr = s.wr) ∧ (.rd ∉ mayWrite i → t.rd = s.rd) ∧
    (.byteCount ∉ mayWrite i → t.byteCount = s.byteCount) ∧ (.wbActive ∉ mayWrite i → t.wbActive = s.wbActive) ∧
    (.rbActive ∉ mayWrite i → t.rbActive = s.rbActive) ∧ (.period ∉ mayWrite i → t.period = s.period) ∧
    (.tickStart ∉ mayWrite i → t.tickStart = s.tickStart) ∧ (.duty ∉ mayWrite i → t.duty = s.duty) ∧
    (.track ∉ mayWrite i → t.track = s.track)

/-- 70_reset_and_hazards.md R291: how many link events each command emits; a rejected one emits none. -/
def Obligations.CommandsEmitTheCountedEvents : Prop :=
  ∀ (i : Instr) (s : State), s.LinkReliable →
    ∃ t, exec i s = .next t ∧
      t.events.length = s.events.length + (if reportedError i s = none then eventCount i s else 0)

/-- 20_memory.md R73, 10_state.md R32: between flushes the chain outputs and the line levels do not change; and a command
whose events end with a flush or a hard read leaves LATCH High. -/
def Obligations.TheChainChangesOnlyByLinkEvents : Prop :=
  ∀ (i : Instr) (s t : State), exec i s = .next t →
    (t.events = s.events → t.chainOut = s.chainOut ∧ t.lvl = s.lvl) ∧
    (t.events ≠ s.events → t.lvl.latch = .high ∧ t.chainOut.length = s.byteCount.toNat)

/-- 20_memory.md R75: every sampled level is the environment's choice: the levels a command samples are the next ones of
the list `senseLine`, as far as it goes, and a command uses up as many as it samples (the list is the model's form of the
environment, log entry 4; beyond it the level is a free value). -/
def Obligations.TheEnvironmentChoosesEverySample : Prop :=
  ∀ (i : Instr) (s t : State), exec i s = .next t →
    ∃ es, t.events = s.events ++ es ∧ t.senseLine = s.senseLine.drop (sampledLevels es).length ∧
      ∀ k l, k < (sampledLevels es).length → s.senseLine[k]? = some l → (sampledLevels es)[k]? = some l

/-- 10_state.md R27, 41_transaction.md R170: the two batch flags change only by the transitions of the state machine, each
by its own begin and end, so they are independent. -/
def Obligations.BatchFlagsMoveOnlyByTheirCommands : Prop :=
  ∀ (i : Instr) (s t : State), exec i s = .next t →
    (t.wbActive ≠ s.wbActive →
      (i = .bwbegin ∧ s.wbActive = false ∧ t.wbActive = true ∧ t.events = s.events) ∨
      (i = .bwend ∧ s.wbActive = true ∧ t.wbActive = false ∧ t.events = s.events ++ flushEvents (wrBytes s))) ∧
    (t.rbActive ≠ s.rbActive →
      (i = .brbegin ∧ s.rbActive = false ∧ t.rbActive = true) ∨
      (i = .brend ∧ s.rbActive = true ∧ t.rbActive = false ∧ t.events = s.events))

/-! ### Bit Buffer -/

/-- 40_bit_buffer.md R121, R122: SETCAP. All 16 bytes of each array are zeroed; the flags, the PWM table, the period, the
tick start and the chain keep their values. -/
def Obligations.SetcapConfiguresAndZeroes : Prop :=
  CommandForm 0x01 .fa (fun k => .setcap k.a.toNat) ∧
  (∀ (n : Nat) (s : State), n ≤ 128 → n % 8 = 0 →
    ∃ t, exec (.setcap n) s = .next t ∧
      bitCount t = n ∧ t.byteCount.toNat = n / 8 ∧ (∀ k < 16, byteIsZero t k) ∧ (∀ i < 64, trackAt t i = .unknown) ∧
      t = { s with
        byteCount := t.byteCount, dir := t.dir, wr := t.wr, rd := t.rd, track := t.track
        responses := s.responses ++ [{ status := .ok, data := false }] }) ∧
  (∀ (n : Nat) (s : State), 128 < n ∨ n % 8 ≠ 0 → Rejected (exec (.setcap n) s) .capacity s)

/-- 40_bit_buffer.md R123: SETMODE. -/
def Obligations.SetmodeWritesOneDirectionBit : Prop :=
  CommandForm 0x02 .fbv (fun k => .setmode (bitField k.c) (decide (valField k.c = 1))) ∧
  (∀ (b : Nat) (v : Bool) (s : State), s.byteCount.toNat ≤ 16 → b < bitCount s →
    ∃ t, exec (.setmode b v) s = .next t ∧ (∀ j, bitRead t.dir j = if j = b then v else bitRead s.dir j) ∧
      t = { s with dir := t.dir, responses := s.responses ++ [{ status := .ok, data := false }] }) ∧
  (∀ (b : Nat) (v : Bool) (s : State), bitCount s ≤ b → Rejected (exec (.setmode b v) s) .address s)

/-- 40_bit_buffer.md R125: WSOFT. The write cache bit is written whatever the pin's direction, PWM is disabled on it, and
nothing else changes. -/
def Obligations.WsoftChangesOneCacheBit : Prop :=
  CommandForm 0x03 .fbv (fun k => .wsoft (bitField k.c) (decide (valField k.c = 1))) ∧
  (∀ (b : Nat) (v : Bool) (s : State), s.byteCount.toNat ≤ 16 → b < bitCount s →
    ∃ t, exec (.wsoft b v) s = .next t ∧ SoftWritten b v s t) ∧
  (∀ (b : Nat) (v : Bool) (s : State), bitCount s ≤ b → Rejected (exec (.wsoft b v) s) .address s)

/-- 40_bit_buffer.md R127: WHARD: the soft write, then one flush of the whole write cache, in either batch state. -/
def Obligations.WhardFlushesTheWholeCache : Prop :=
  CommandForm 0x04 .fbv (fun k => .whard (bitField k.c) (decide (valField k.c = 1))) ∧
  (∀ (b : Nat) (v : Bool) (s : State), s.LinkReliable → s.byteCount.toNat ≤ 16 → b < bitCount s →
    ∃ t, exec (.whard b v) s = .next t ∧ HardWritten b v s t) ∧
  (∀ (b : Nat) (v : Bool) (s : State), bitCount s ≤ b → Rejected (exec (.whard b v) s) .address s)

/-- 40_bit_buffer.md R129: FLUSH: CLOCK Low, LATCH Low, every byte of the write cache in buffer order, LATCH High;
afterwards the chain outputs are the write cache. With no byte it emits the three level events alone. -/
def Obligations.FlushTransfersTheWriteCache : Prop :=
  CommandForm 0x05 .fn (fun _ => .flush) ∧
  ∀ s : State, s.LinkReliable →
    ∃ t, exec .flush s = .next t ∧
      t.events = s.events ++ ([.setLevel .clock .low, .setLevel .latch .low] ++
        (bytesOf s.byteCount.toNat s.wr).map .shiftByte ++ [.setLevel .latch .high]) ∧
      t.chainOut = bytesOf s.byteCount.toNat s.wr ∧ t.lvl.latch = .high ∧
      (s.byteCount.toNat = 0 → t.lvl.clock = .low ∧
        t.events = s.events ++ [.setLevel .clock .low, .setLevel .latch .low, .setLevel .latch .high]) ∧
      t = { s with
        chainOut := t.chainOut, events := t.events, lvl := t.lvl, draws := t.draws
        responses := s.responses ++ [{ status := .ok, data := false }] }

/-- 20_memory.md R64: a flush of n bytes puts 8n bits on the serial line, and serial position p carries bit
7 - (p mod 8) of byte p div 8; that is logical bit 8(p div 8) + 7 - (p mod 8) (R63); so the first serial bit is logical bit 7
and the last is logical bit 8n - 8. -/
def Obligations.AFlushIsSerialMsbFirstInBufferOrder : Prop :=
  ∀ (bytes : List Byte) (p : Nat),
    (serialBits (flushEvents bytes)).length = 8 * bytes.length ∧
    (p < 8 * bytes.length →
      (serialBits (flushEvents bytes))[p]? = some ((bytes.getD (p / 8) 0#8).getLsbD (7 - p % 8)) ∧
      (serialBits (flushEvents bytes))[p]? = some (listBit bytes (8 * (p / 8) + 7 - p % 8))) ∧
    (bytes ≠ [] →
      (serialBits (flushEvents bytes))[0]? = some (listBit bytes 7) ∧
      (serialBits (flushEvents bytes))[8 * bytes.length - 1]? = some (listBit bytes (8 * bytes.length - 8)))

/-- 20_memory.md R73, R80: a command that emits link events is one of those that flush the write cache (FLUSH, WHARD, BWEND,
WRITEBIT outside a write batch, a TICK that drives a pin), and then the chain output for every in-range bit presents that bit
of the write cache; or it is one of the hard reads (RHARD, RALL, BRBEGIN, READBIT outside a read batch), and then the chain
presents the isolation pattern of an in-range bit. A soft write is neither: it emits nothing. -/
def Obligations.AfterAFlushTheChainShowsEveryCacheBit : Prop :=
  ∀ (i : Instr) (s t : State), exec i s = .next t → t.events ≠ s.events →
    (latchesWriteCache s i = true ∧ ∀ j < bitCount s, listBit t.chainOut j = bitRead t.wr j) ∨
    (latchesPattern s i = true ∧ ∃ b < bitCount s, t.chainOut = isolationPattern s b)

/-- 40_bit_buffer.md R132: the three properties of the isolation pattern, at every in-range bit. -/
def Obligations.TheIsolationPatternSelectsOneInput : Prop :=
  ∀ (s : State) (b j : Nat), b < bitCount s → j < bitCount s →
    (isolationPattern s b).length = s.byteCount.toNat ∧
    (bitRead s.dir j = false → listBit (isolationPattern s b) j = bitRead s.wr j) ∧
    (bitRead s.dir j = true → j ≠ b → listBit (isolationPattern s b) j = false) ∧
    (bitRead s.dir b = true → listBit (isolationPattern s b) b = true)

/-- 40_bit_buffer.md R131: RHARD: the isolation flush, then a sample, whose level is stored in the read cache and
returned. The level is the environment's. It is hard whatever the batch flags. -/
def Obligations.RhardFlushesSamplesAndStores : Prop :=
  CommandForm 0x06 .fb (fun k => .rhard (bitField k.c)) ∧
  (∀ (b : Nat) (s : State), s.LinkReliable → s.byteCount.toNat ≤ 16 → b < bitCount s → s.cfg.sensePresent = true →
    ∃ t l, exec (.rhard b) s = .next t ∧ HardlyRead b l s t) ∧
  (∀ (b : Nat) (s : State), b < bitCount s → s.cfg.sensePresent = false → Rejected (exec (.rhard b) s) .noSense s) ∧
  (∀ (b : Nat) (s : State), bitCount s ≤ b → Rejected (exec (.rhard b) s) .address s)

/-- 40_bit_buffer.md R135, R137: RSOFT returns the read cache bit and GETW the write cache bit; they change nothing and
need no read line. -/
def Obligations.SoftReadsReturnTheCachedBit : Prop :=
  CommandForm 0x07 .fb (fun k => .rsoft (bitField k.c)) ∧ CommandForm 0x08 .fb (fun k => .getw (bitField k.c)) ∧
  (∀ (b : Nat) (s : State), b < bitCount s →
    exec (.rsoft b) s = .next { s with responses := s.responses ++ [{ status := .ok, data := bitRead s.rd b }] } ∧
    exec (.getw b) s = .next { s with responses := s.responses ++ [{ status := .ok, data := bitRead s.wr b }] }) ∧
  (∀ (b : Nat) (s : State), bitCount s ≤ b →
    Rejected (exec (.rsoft b) s) .address s ∧ Rejected (exec (.getw b) s) .address s)

/-- 40_bit_buffer.md R139: RALL: one hard read of each input bit in ascending order, every pattern built from the
same write cache and direction mask; the other bits of the read cache are untouched. With no input bit there is no event
and no read line is needed; with an input bit and no read line: E_NOSENSE. -/
def Obligations.RallReadsEveryInputOnce : Prop :=
  CommandForm 0x09 .fn (fun _ => .rall) ∧
  (∀ s : State, s.cfg.sensePresent = false → (∃ j < bitCount s, bitRead s.dir j = true) →
    Rejected (exec .rall s) .noSense s) ∧
  ∀ s : State, s.LinkReliable → s.byteCount.toNat ≤ 16 →
    (s.cfg.sensePresent = true ∨ ∀ j < bitCount s, bitRead s.dir j = false) →
    ∃ t ls, exec .rall s = .next t ∧
      ls.length = ((List.range (bitCount s)).filter (bitRead s.dir)).length ∧
      t.events = s.events ++ (((List.range (bitCount s)).filter (bitRead s.dir)).zip ls).flatMap
        (fun p => flushEvents (isolationPattern s p.1) ++ [.sample p.2]) ∧
      (∀ p ∈ ((List.range (bitCount s)).filter (bitRead s.dir)).zip ls, bitRead t.rd p.1 = decide (p.2 = .high)) ∧
      (∀ j, (bitCount s ≤ j ∨ bitRead s.dir j = false) → bitRead t.rd j = bitRead s.rd j) ∧
      (∀ h : (List.range (bitCount s)).filter (bitRead s.dir) ≠ [],
        t.chainOut = isolationPattern s (((List.range (bitCount s)).filter (bitRead s.dir)).getLast h)) ∧
      t = { s with
        rd := t.rd, chainOut := t.chainOut, events := t.events, lvl := t.lvl, draws := t.draws
        senseLine := t.senseLine
        responses := s.responses ++ [{ status := .ok, data := false }] }

/-- Source property 1 (95_test_vectors.md V-L1-1), from 40_bit_buffer.md R125 and R137: a soft write is read back, for
every in-range bit and value. -/
def Obligations.ASoftWriteIsReadBack : Prop :=
  ∀ (b : Nat) (v : Bool) (s : State), s.byteCount.toNat ≤ 16 → b < bitCount s →
    ∃ t u, exec (.wsoft b v) s = .next t ∧ exec (.getw b) t = .next u ∧
      u.responses = s.responses ++ [{ status := .ok, data := false }, { status := .ok, data := v }]

/-- 10_state.md R34, 70_reset_and_hazards.md R282: after a hard read the chain shows the isolation pattern, GETW still
reads the write cache, and the next FLUSH puts the write cache back on the chain. -/
def Obligations.AFlushRestoresTheChainAfterAHardRead : Prop :=
  ∀ (b : Nat) (s t u : State), s.cfg.sensePresent = true → b < bitCount s → exec (.rhard b) s = .next t →
    exec .flush t = .next u → u.Running →
    t.chainOut = isolationPattern s b ∧ t.wr = s.wr ∧ u.chainOut = bytesOf s.byteCount.toNat s.wr ∧ u.rd = t.rd

/-! ### Transaction Controller -/

/-- 41_transaction.md R171, R172: BWBEGIN and BWEND, in both states of the flag. -/
def Obligations.WriteBatchOpensAndCloses : Prop :=
  CommandForm 0x10 .fn (fun _ => .bwbegin) ∧ CommandForm 0x11 .fn (fun _ => .bwend) ∧
  (∀ s : State, s.wbActive = false →
    exec .bwbegin s =
      .next { s with wbActive := true, responses := s.responses ++ [{ status := .ok, data := false }] }) ∧
  (∀ s : State, s.LinkReliable → s.wbActive = true →
    ∃ t, exec .bwend s = .next t ∧ t.wbActive = false ∧
      t.events = s.events ++ flushEvents (bytesOf s.byteCount.toNat s.wr) ∧
      t.chainOut = bytesOf s.byteCount.toNat s.wr ∧ t.lvl.latch = .high ∧
      t = { s with
        wbActive := false, chainOut := t.chainOut, events := t.events, lvl := t.lvl, draws := t.draws
        responses := s.responses ++ [{ status := .ok, data := false }] }) ∧
  (∀ s : State, s.wbActive = true → Rejected (exec .bwbegin s) .batch s) ∧
  (∀ s : State, s.wbActive = false → Rejected (exec .bwend s) .batch s)

/-- 41_transaction.md R173, R174: BRBEGIN is exactly RALL and then the flag; BREND clears the flag and nothing else; a
rejected BRBEGIN leaves the flag Idle and emits nothing. -/
def Obligations.ReadBatchOpensAndCloses : Prop :=
  CommandForm 0x12 .fn (fun _ => .brbegin) ∧ CommandForm 0x13 .fn (fun _ => .brend) ∧
  (∀ s : State, s.LinkReliable → s.rbActive = false →
    (s.cfg.sensePresent = true ∨ ∀ j < bitCount s, bitRead s.dir j = false) →
    ∃ t, exec .rall s = .next t ∧ t.responses = s.responses ++ [{ status := .ok, data := false }] ∧
      exec .brbegin s = .next { t with rbActive := true }) ∧
  (∀ s : State, s.rbActive = false → s.cfg.sensePresent = false → (∃ j < bitCount s, bitRead s.dir j = true) →
    Rejected (exec .brbegin s) .noSense s) ∧
  (∀ s : State, s.rbActive = true → Rejected (exec .brbegin s) .batch s) ∧
  (∀ s : State, s.rbActive = true →
    exec .brend s =
      .next { s with rbActive := false, responses := s.responses ++ [{ status := .ok, data := false }] }) ∧
  (∀ s : State, s.rbActive = false → Rejected (exec .brend s) .batch s)

/-- 41_transaction.md R176: WRITEBIT: inside a write batch the soft write, outside one the soft write and a flush. -/
def Obligations.WritebitIsRoutedByTheWriteBatch : Prop :=
  CommandForm 0x14 .fbv (fun k => .writebit (bitField k.c) (decide (valField k.c = 1))) ∧
  (∀ (b : Nat) (v : Bool) (s : State), s.byteCount.toNat ≤ 16 → b < bitCount s → s.wbActive = true →
    ∃ t, exec (.writebit b v) s = .next t ∧ SoftWritten b v s t) ∧
  (∀ (b : Nat) (v : Bool) (s : State), s.LinkReliable → s.byteCount.toNat ≤ 16 → b < bitCount s → s.wbActive = false →
    ∃ t, exec (.writebit b v) s = .next t ∧ HardWritten b v s t) ∧
  (∀ (b : Nat) (v : Bool) (s : State), bitCount s ≤ b → Rejected (exec (.writebit b v) s) .address s)

/-- 41_transaction.md R178: READBIT: inside a read batch the cached bit, with no read line needed; outside one the hard
read. -/
def Obligations.ReadbitIsRoutedByTheReadBatch : Prop :=
  CommandForm 0x15 .fb (fun k => .readbit (bitField k.c)) ∧
  (∀ (b : Nat) (s : State), b < bitCount s → s.rbActive = true →
    exec (.readbit b) s = .next { s with responses := s.responses ++ [{ status := .ok, data := bitRead s.rd b }] }) ∧
  (∀ (b : Nat) (s : State), s.LinkReliable → s.byteCount.toNat ≤ 16 → b < bitCount s → s.rbActive = false →
    s.cfg.sensePresent = true → ∃ t l, exec (.readbit b) s = .next t ∧ HardlyRead b l s t) ∧
  (∀ (b : Nat) (s : State), b < bitCount s → s.rbActive = false → s.cfg.sensePresent = false →
    Rejected (exec (.readbit b) s) .noSense s) ∧
  (∀ (b : Nat) (s : State), bitCount s ≤ b → Rejected (exec (.readbit b) s) .address s)

/-- 41_transaction.md R177 (source property 2): between BWBEGIN and BWEND, let the commands be any but SETCAP, and let none
of them emit a flush; then the batch emits exactly one flush, at BWEND, of the write cache as it stood at BWBEGIN with the
batch's writes applied in order. A batch of WRITEBITs of any length is one such, and runs to its end. -/
def Obligations.AWriteBatchIsOneFlush : Prop :=
  (∀ (is : List Instr) (s t u : State), s.wbActive = false → (∀ i ∈ is, ∀ n, i ≠ .setcap n) →
    execAll (.bwbegin :: is) s = .next t → t.events = s.events → exec .bwend t = .next u → u.Running →
    t.wbActive = true ∧ t.chainOut = s.chainOut ∧
    u.wr = (is.filterMap (pendingWrite s.byteCount.toNat)).foldl (fun a w => bitWrite a w.1 w.2) s.wr ∧
    u.wbActive = false ∧ u.chainOut = bytesOf s.byteCount.toNat u.wr ∧
    u.events = s.events ++ flushEvents (bytesOf s.byteCount.toNat u.wr)) ∧
  (∀ (ws : List (Nat × Bool)) (s : State), s.LinkReliable → s.wbActive = false → (∀ w ∈ ws, w.1 < bitCount s) →
    ∃ t u, execAll (.bwbegin :: ws.map (fun w => .writebit w.1 w.2)) s = .next t ∧ exec .bwend t = .next u ∧
      t.events = s.events ∧ u.wr = ws.foldl (fun a w => bitWrite a w.1 w.2) s.wr)

/-- 41_transaction.md R179, 20_memory.md R81: inside a read batch, any commands but RHARD, RALL, SETCAP and BREND leave the
read cache, and so every READBIT's value, as it was, whatever the sense line does. -/
def Obligations.ReadBatchValuesAreStable : Prop :=
  ∀ (is : List Instr) (b : Nat) (s t : State), s.rbActive = true →
    (∀ i ∈ is, (∀ x, i ≠ .rhard x) ∧ i ≠ .rall ∧ (∀ n, i ≠ .setcap n) ∧ i ≠ .brend) → execAll is s = .next t →
    b < bitCount s →
    t.rd = s.rd ∧ t.rbActive = true ∧
    exec (.readbit b) t = .next { t with responses := t.responses ++ [{ status := .ok, data := bitRead s.rd b }] }

/-! ### PWM Scheduler -/

/-- 42_pwm.md R200: SETFREQ. -/
def Obligations.SetfreqSetsOrRejectsThePeriod : Prop :=
  CommandForm 0x20 .fa (fun k => .setfreq k.a.toNat) ∧
  (∀ (hz : Nat) (s : State), hz ≠ 0 → s.cfg.minPeriodUs ≤ 1000000 / hz →
    ∃ t, exec (.setfreq hz) s = .next t ∧ t.period.toNat = 1000000 / hz ∧
      t = { s with period := t.period, responses := s.responses ++ [{ status := .ok, data := false }] }) ∧
  (∀ (hz : Nat) (s : State), hz = 0 ∨ 1000000 / hz < s.cfg.minPeriodUs → Rejected (exec (.setfreq hz) s) .frequency s)

/-- 42_pwm.md R202: ENROLL. -/
def Obligations.EnrollEnablesOnePin : Prop :=
  CommandForm 0x21 .fbd (fun k => .enroll (bitField k.c) (valField k.c)) ∧
  (∀ (b d : Nat) (s : State), b < 64 → b < bitCount s → d ≤ 255 →
    ∃ t, exec (.enroll b d) s = .next t ∧
      (∀ j, dutyAt t j = if j = b then .enabled (BitVec.ofNat 8 d) else dutyAt s j) ∧ (BitVec.ofNat 8 d).toNat = d ∧
      (∀ j, trackAt t j = if j = b then .unknown else trackAt s j) ∧
      t = { s with duty := t.duty, track := t.track, responses := s.responses ++ [{ status := .ok, data := false }] }) ∧
  (∀ (b d : Nat) (s : State), 64 ≤ b ∨ bitCount s ≤ b → Rejected (exec (.enroll b d) s) .address s)

/-- 42_pwm.md R204: UNENROLL, which does not require b below bitCount. -/
def Obligations.UnenrollDisablesOnePin : Prop :=
  CommandForm 0x22 .fb (fun k => .unenroll (bitField k.c)) ∧
  (∀ (b : Nat) (s : State), b < 64 →
    ∃ t, exec (.unenroll b) s = .next t ∧
      (∀ j, dutyAt t j = if j = b then .disabled else dutyAt s j) ∧
      (∀ j, trackAt t j = if j = b then .unknown else trackAt s j) ∧
      t = { s with duty := t.duty, track := t.track, responses := s.responses ++ [{ status := .ok, data := false }] }) ∧
  (∀ (b : Nat) (s : State), 64 ≤ b → Rejected (exec (.unenroll b) s) .address s)

/-- 42_pwm.md R208, R213: TICK drives exactly the enrolled in-range pins whose target differs from
their tracked state, in ascending order, with one flush of the write cache after each pin's write, whatever the batch
state; afterwards every scanned pin is tracked at its target, and nothing else changes. -/
def Obligations.TickDrivesThePinsWhoseTargetChanged : Prop :=
  CommandForm 0x23 .fa (fun k => .tick k.a.toNat) ∧
  ∀ (s : State) (tm : Nat), s.LinkReliable → s.cfg.wf = true →
    let now := tm % 2 ^ s.cfg.timeBits
    let start := if s.period.toNat ≤ elapsed s.cfg now s.tickStart.toNat then now else s.tickStart.toNat
    let e := elapsed s.cfg now start
    ∃ t, exec (.tick tm) s = .next t ∧
      t.tickStart.toNat = start ∧
      t.events = s.events ++ driveEvents s.byteCount.toNat s.wr (drivenPins e s) ∧
      t.wr = cacheAfter (drivenPins e s) s.wr ∧
      (∀ i < 64, trackAt t i = match scanTarget e s i with | some g => g | none => trackAt s i) ∧
      t.chainOut = (if drivenPins e s = [] then s.chainOut else bytesOf s.byteCount.toNat t.wr) ∧
      (drivenPins e s = [] → t.lvl = s.lvl ∧ t.draws = s.draws) ∧
      t = { s with
        tickStart := t.tickStart, wr := t.wr, track := t.track, chainOut := t.chainOut, events := t.events
        lvl := t.lvl, draws := t.draws, responses := s.responses ++ [{ status := .ok, data := false }] }

/-- 42_pwm.md R210: an enrolled pin at or above bitCount can come about only by a SETCAP that reduces the capacity: any
other command that leaves one found it so. -/
def Obligations.OnlySetcapLeavesAnEnrolledPinOutOfRange : Prop :=
  ∀ (i : Instr) (b : Nat) (s t : State), exec i s = .next t → dutyAt t b ≠ .disabled → bitCount t ≤ b →
    dutyAt s b ≠ .disabled ∧ (bitCount s ≤ b ∨ ∃ n, i = .setcap n ∧ n = bitCount t ∧ bitCount t < bitCount s)

/-- 42_pwm.md R212, R210: bit by bit, TICK writes a bit of the write cache exactly where it drives that pin, with 1 for
On and 0 for Off; every other bit keeps its value. -/
def Obligations.TickWritesOnlyTheDrivenBits : Prop :=
  ∀ (s t : State) (tm j : Nat), exec (.tick tm) s = .next t → t.Running →
    bitRead t.wr j =
      match drivenPin (tickElapsed (operandNow s.cfg tm) s) s j with
      | some p => decide (p.2 = .on)
      | none => bitRead s.wr j

/-- 42_pwm.md R209: the period boundary. tickStart moves to `now` exactly when the modular difference has reached the
period, else it stays; a step of the host's time backward by x starts a new cycle at `now` where x is at most
2^TIME_BITS - period, and where it is larger it starts none and leaves the elapsed time 2^TIME_BITS - x. -/
def Obligations.TheTickBoundaryIsModular : Prop :=
  ∀ (s t : State) (tm : Nat), s.Legal → exec (.tick tm) s = .next t → t.Running →
    (s.period.toNat ≤ (tm % 2 ^ s.cfg.timeBits + 2 ^ s.cfg.timeBits - s.tickStart.toNat) % 2 ^ s.cfg.timeBits →
      t.tickStart.toNat = tm % 2 ^ s.cfg.timeBits) ∧
    ((tm % 2 ^ s.cfg.timeBits + 2 ^ s.cfg.timeBits - s.tickStart.toNat) % 2 ^ s.cfg.timeBits < s.period.toNat →
      t.tickStart = s.tickStart) ∧
    (∀ x, 1 ≤ x → x ≤ s.tickStart.toNat → x + s.period.toNat ≤ 2 ^ s.cfg.timeBits →
      tm % 2 ^ s.cfg.timeBits = s.tickStart.toNat - x → t.tickStart.toNat = tm % 2 ^ s.cfg.timeBits) ∧
    (∀ x, 1 ≤ x → x ≤ s.tickStart.toNat → 2 ^ s.cfg.timeBits < x + s.period.toNat →
      tm % 2 ^ s.cfg.timeBits = s.tickStart.toNat - x →
      t.tickStart = s.tickStart ∧ tickElapsed (operandNow s.cfg tm) s = 2 ^ s.cfg.timeBits - x)

/-- 42_pwm.md R216 (source property 3): after step 1 the elapsed time is below the period; so at every TICK an in-range
pin enrolled with duty 0 is left tracked Off, and one with duty 255 is left tracked On. -/
def Obligations.BoundaryDutiesAreAlwaysOffAndAlwaysOn : Prop :=
  ∀ (s t : State) (tm i : Nat), s.Legal → exec (.tick tm) s = .next t → t.Running → i < 64 → i < bitCount s →
    tickElapsed (operandNow s.cfg tm) s < s.period.toNat ∧
    (dutyAt s i = .enabled 0#8 → trackAt t i = .off) ∧ (dutyAt s i = .enabled 255#8 → trackAt t i = .on)

/-- 42_pwm.md R211: the on-window is the exact product divided by 255 with truncation; it is 0 for duty 0 and the period
for duty 255, and it grows with the duty; a pin's target is On exactly when the elapsed time is below it. -/
def Obligations.TheOnWindowScalesWithDuty : Prop :=
  (∀ (period d e : Nat),
    onWindow period d = period * d / 255 ∧ onWindow period 0 = 0 ∧ onWindow period 255 = period ∧
    (pwmTarget period d e = .on ↔ e < onWindow period d) ∧ (pwmTarget period d e = .off ↔ onWindow period d ≤ e)) ∧
  (∀ (period d d' : Nat), d ≤ d' → d' ≤ 255 → onWindow period d ≤ onWindow period d' ∧ onWindow period d' ≤ period) ∧
  (∀ (period d : Nat), period ≤ 1000000 → d ≤ 255 → period * d < 2 ^ 28) ∧
  onWindow 10000 128 = 5019

/-- 42_pwm.md R203: after an ENROLL of b, whatever commands follow it, the first TICK at which b is in range drives b, even
to Off: it emits at least one flush, and afterwards the chain output and the write cache bit for b equal the target that TICK
computed from the duty enrolled, and b is tracked at it. The commands between may be any, and TICKs at which b is out of
range, but no ENROLL, UNENROLL or ordinary write of b, which would give b another duty or none. -/
def Obligations.TheFirstTickAfterEnrollDrivesThePin : Prop :=
  ∀ (b d tm : Nat) (is : List Instr) (s t u w : State), b < 64 → b < bitCount s → exec (.enroll b d) s = .next t →
    (∀ i ∈ is, (∀ d', i ≠ .enroll b d') ∧ i ≠ .unenroll b ∧
      ∀ v, i ≠ .wsoft b v ∧ i ≠ .whard b v ∧ i ≠ .writebit b v) →
    (∀ (pre post : List Instr) (tm' : Nat) (r : State), is = pre ++ .tick tm' :: post → execAll pre t = .next r →
      bitCount r ≤ b) →
    execAll is t = .next u → b < bitCount u → exec (.tick tm) u = .next w → w.Running →
    ∃ g, scanTarget (tickElapsed (operandNow u.cfg tm) u) u b = some g ∧ dutyAt u b = .enabled (BitVec.ofNat 8 d) ∧
      trackAt w b = g ∧ u.events.length + u.byteCount.toNat + 3 ≤ w.events.length ∧
      bitRead w.wr b = decide (g = .on) ∧ listBit w.chainOut b = decide (g = .on)

/-- 42_pwm.md R217 (source property 5): of two TICKs with no TICK, ENROLL, UNENROLL or SETCAP between them, the second does
not drive a pin for which it computes the target the first computed; and a second TICK at the same instant right after the
first changes nothing and emits nothing. -/
def Obligations.AnUnchangedTargetIsNotDrivenAgain : Prop :=
  (∀ (is : List Instr) (s t u : State) (t1 t2 i : Nat), exec (.tick t1) s = .next t → execAll is t = .next u →
    (∀ j ∈ is, (∀ x, j ≠ .tick x) ∧ (∀ b d, j ≠ .enroll b d) ∧ (∀ b, j ≠ .unenroll b) ∧ (∀ n, j ≠ .setcap n)) → i < 64 →
    (∀ g, scanTarget (tickElapsed (operandNow u.cfg t2) u) u i = some g →
      scanTarget (tickElapsed (operandNow s.cfg t1) s) s i = some g) → t.Running →
    drivenPin (tickElapsed (operandNow u.cfg t2) u) u i = none) ∧
  (∀ (s t : State) (tm : Nat), s.Legal → exec (.tick tm) s = .next t → t.Running →
    exec (.tick tm) t = .next { t with responses := t.responses ++ [{ status := .ok, data := false }] })

/-- 40_bit_buffer.md R128 (source property 4): an ordinary write to b stores its value and disables PWM on b, in either
batch state; and until an ENROLL of b, whatever else is run, TICK skips b: it does not drive it, and leaves its write cache
bit and its tracked state as they were. A TICK itself disables no pin. -/
def Obligations.AnOrdinaryWriteStopsPwmOnThePin : Prop :=
  ∀ (i : Instr) (b : Nat) (v : Bool) (is : List Instr) (s t u w : State) (tm : Nat), s.byteCount.toNat ≤ 16 →
    b < bitCount s → (i = .wsoft b v ∨ i = .whard b v ∨ i = .writebit b v) → exec i s = .next t → t.Running →
    (∀ j ∈ is, ∀ d, j ≠ .enroll b d) → execAll is t = .next u → exec (.tick tm) u = .next w →
    bitRead t.wr b = v ∧ dutyAt t b = .disabled ∧ trackAt t b = trackAt s b ∧
    drivenPin (tickElapsed (operandNow u.cfg tm) u) u b = none ∧ bitRead w.wr b = bitRead u.wr b ∧
    trackAt w b = trackAt u b ∧ w.duty = u.duty
end

