-- ==== Sys2Proof/Laws/State.lean ====
section
/-! SUPPORT. One lemma per field per named update of the state, each true by rfl, so that no proof unfolds a record
update. -/

namespace Sys2Proof.Machine

variable (s : State)

/-! What `respond` leaves in each field. -/

@[simp] theorem respond_cfg (st : Status) (d : Bool) : (respond st d s).cfg = s.cfg := rfl
@[simp] theorem respond_dir (st : Status) (d : Bool) : (respond st d s).dir = s.dir := rfl
@[simp] theorem respond_wr (st : Status) (d : Bool) : (respond st d s).wr = s.wr := rfl
@[simp] theorem respond_rd (st : Status) (d : Bool) : (respond st d s).rd = s.rd := rfl
@[simp] theorem respond_byteCount (st : Status) (d : Bool) : (respond st d s).byteCount = s.byteCount := rfl
@[simp] theorem respond_wbActive (st : Status) (d : Bool) : (respond st d s).wbActive = s.wbActive := rfl
@[simp] theorem respond_rbActive (st : Status) (d : Bool) : (respond st d s).rbActive = s.rbActive := rfl
@[simp] theorem respond_period (st : Status) (d : Bool) : (respond st d s).period = s.period := rfl
@[simp] theorem respond_tickStart (st : Status) (d : Bool) : (respond st d s).tickStart = s.tickStart := rfl
@[simp] theorem respond_duty (st : Status) (d : Bool) : (respond st d s).duty = s.duty := rfl
@[simp] theorem respond_track (st : Status) (d : Bool) : (respond st d s).track = s.track := rfl
@[simp] theorem respond_chainOut (st : Status) (d : Bool) : (respond st d s).chainOut = s.chainOut := rfl
@[simp] theorem respond_lvl (st : Status) (d : Bool) : (respond st d s).lvl = s.lvl := rfl
@[simp] theorem respond_events (st : Status) (d : Bool) : (respond st d s).events = s.events := rfl
@[simp] theorem respond_responses (st : Status) (d : Bool) : (respond st d s).responses = s.responses ++ [{ status := st, data := d }] := rfl
@[simp] theorem respond_commands (st : Status) (d : Bool) : (respond st d s).commands = s.commands := rfl
@[simp] theorem respond_senseLine (st : Status) (d : Bool) : (respond st d s).senseLine = s.senseLine := rfl
@[simp] theorem respond_draws (st : Status) (d : Bool) : (respond st d s).draws = s.draws := rfl
@[simp] theorem respond_linkHangsAfter (st : Status) (d : Bool) : (respond st d s).linkHangsAfter = s.linkHangsAfter := rfl
@[simp] theorem respond_linkStuck (st : Status) (d : Bool) : (respond st d s).linkStuck = s.linkStuck := rfl

/-! What `stall` leaves in each field. -/

@[simp] theorem stall_cfg : (stall s).cfg = s.cfg := rfl
@[simp] theorem stall_dir : (stall s).dir = s.dir := rfl
@[simp] theorem stall_wr : (stall s).wr = s.wr := rfl
@[simp] theorem stall_rd : (stall s).rd = s.rd := rfl
@[simp] theorem stall_byteCount : (stall s).byteCount = s.byteCount := rfl
@[simp] theorem stall_wbActive : (stall s).wbActive = s.wbActive := rfl
@[simp] theorem stall_rbActive : (stall s).rbActive = s.rbActive := rfl
@[simp] theorem stall_period : (stall s).period = s.period := rfl
@[simp] theorem stall_tickStart : (stall s).tickStart = s.tickStart := rfl
@[simp] theorem stall_duty : (stall s).duty = s.duty := rfl
@[simp] theorem stall_track : (stall s).track = s.track := rfl
@[simp] theorem stall_chainOut : (stall s).chainOut = s.chainOut := rfl
@[simp] theorem stall_lvl : (stall s).lvl = s.lvl := rfl
@[simp] theorem stall_events : (stall s).events = s.events := rfl
@[simp] theorem stall_responses : (stall s).responses = s.responses := rfl
@[simp] theorem stall_commands : (stall s).commands = s.commands := rfl
@[simp] theorem stall_senseLine : (stall s).senseLine = s.senseLine := rfl
@[simp] theorem stall_draws : (stall s).draws = s.draws := rfl
@[simp] theorem stall_linkHangsAfter : (stall s).linkHangsAfter = s.linkHangsAfter := rfl
@[simp] theorem stall_linkStuck : (stall s).linkStuck = true := rfl

/-! What `setWbActive` leaves in each field. -/

@[simp] theorem setWbActive_cfg (v : Bool) : (setWbActive v s).cfg = s.cfg := rfl
@[simp] theorem setWbActive_dir (v : Bool) : (setWbActive v s).dir = s.dir := rfl
@[simp] theorem setWbActive_wr (v : Bool) : (setWbActive v s).wr = s.wr := rfl
@[simp] theorem setWbActive_rd (v : Bool) : (setWbActive v s).rd = s.rd := rfl
@[simp] theorem setWbActive_byteCount (v : Bool) : (setWbActive v s).byteCount = s.byteCount := rfl
@[simp] theorem setWbActive_wbActive (v : Bool) : (setWbActive v s).wbActive = v := rfl
@[simp] theorem setWbActive_rbActive (v : Bool) : (setWbActive v s).rbActive = s.rbActive := rfl
@[simp] theorem setWbActive_period (v : Bool) : (setWbActive v s).period = s.period := rfl
@[simp] theorem setWbActive_tickStart (v : Bool) : (setWbActive v s).tickStart = s.tickStart := rfl
@[simp] theorem setWbActive_duty (v : Bool) : (setWbActive v s).duty = s.duty := rfl
@[simp] theorem setWbActive_track (v : Bool) : (setWbActive v s).track = s.track := rfl
@[simp] theorem setWbActive_chainOut (v : Bool) : (setWbActive v s).chainOut = s.chainOut := rfl
@[simp] theorem setWbActive_lvl (v : Bool) : (setWbActive v s).lvl = s.lvl := rfl
@[simp] theorem setWbActive_events (v : Bool) : (setWbActive v s).events = s.events := rfl
@[simp] theorem setWbActive_responses (v : Bool) : (setWbActive v s).responses = s.responses := rfl
@[simp] theorem setWbActive_commands (v : Bool) : (setWbActive v s).commands = s.commands := rfl
@[simp] theorem setWbActive_senseLine (v : Bool) : (setWbActive v s).senseLine = s.senseLine := rfl
@[simp] theorem setWbActive_draws (v : Bool) : (setWbActive v s).draws = s.draws := rfl
@[simp] theorem setWbActive_linkHangsAfter (v : Bool) : (setWbActive v s).linkHangsAfter = s.linkHangsAfter := rfl
@[simp] theorem setWbActive_linkStuck (v : Bool) : (setWbActive v s).linkStuck = s.linkStuck := rfl

/-! What `setRbActive` leaves in each field. -/

@[simp] theorem setRbActive_cfg (v : Bool) : (setRbActive v s).cfg = s.cfg := rfl
@[simp] theorem setRbActive_dir (v : Bool) : (setRbActive v s).dir = s.dir := rfl
@[simp] theorem setRbActive_wr (v : Bool) : (setRbActive v s).wr = s.wr := rfl
@[simp] theorem setRbActive_rd (v : Bool) : (setRbActive v s).rd = s.rd := rfl
@[simp] theorem setRbActive_byteCount (v : Bool) : (setRbActive v s).byteCount = s.byteCount := rfl
@[simp] theorem setRbActive_wbActive (v : Bool) : (setRbActive v s).wbActive = s.wbActive := rfl
@[simp] theorem setRbActive_rbActive (v : Bool) : (setRbActive v s).rbActive = v := rfl
@[simp] theorem setRbActive_period (v : Bool) : (setRbActive v s).period = s.period := rfl
@[simp] theorem setRbActive_tickStart (v : Bool) : (setRbActive v s).tickStart = s.tickStart := rfl
@[simp] theorem setRbActive_duty (v : Bool) : (setRbActive v s).duty = s.duty := rfl
@[simp] theorem setRbActive_track (v : Bool) : (setRbActive v s).track = s.track := rfl
@[simp] theorem setRbActive_chainOut (v : Bool) : (setRbActive v s).chainOut = s.chainOut := rfl
@[simp] theorem setRbActive_lvl (v : Bool) : (setRbActive v s).lvl = s.lvl := rfl
@[simp] theorem setRbActive_events (v : Bool) : (setRbActive v s).events = s.events := rfl
@[simp] theorem setRbActive_responses (v : Bool) : (setRbActive v s).responses = s.responses := rfl
@[simp] theorem setRbActive_commands (v : Bool) : (setRbActive v s).commands = s.commands := rfl
@[simp] theorem setRbActive_senseLine (v : Bool) : (setRbActive v s).senseLine = s.senseLine := rfl
@[simp] theorem setRbActive_draws (v : Bool) : (setRbActive v s).draws = s.draws := rfl
@[simp] theorem setRbActive_linkHangsAfter (v : Bool) : (setRbActive v s).linkHangsAfter = s.linkHangsAfter := rfl
@[simp] theorem setRbActive_linkStuck (v : Bool) : (setRbActive v s).linkStuck = s.linkStuck := rfl

/-! What `writeDir` leaves in each field. -/

@[simp] theorem writeDir_cfg (b : Nat) (v : Bool) : (writeDir b v s).cfg = s.cfg := rfl
@[simp] theorem writeDir_dir (b : Nat) (v : Bool) : (writeDir b v s).dir = bitWrite s.dir b v := rfl
@[simp] theorem writeDir_wr (b : Nat) (v : Bool) : (writeDir b v s).wr = s.wr := rfl
@[simp] theorem writeDir_rd (b : Nat) (v : Bool) : (writeDir b v s).rd = s.rd := rfl
@[simp] theorem writeDir_byteCount (b : Nat) (v : Bool) : (writeDir b v s).byteCount = s.byteCount := rfl
@[simp] theorem writeDir_wbActive (b : Nat) (v : Bool) : (writeDir b v s).wbActive = s.wbActive := rfl
@[simp] theorem writeDir_rbActive (b : Nat) (v : Bool) : (writeDir b v s).rbActive = s.rbActive := rfl
@[simp] theorem writeDir_period (b : Nat) (v : Bool) : (writeDir b v s).period = s.period := rfl
@[simp] theorem writeDir_tickStart (b : Nat) (v : Bool) : (writeDir b v s).tickStart = s.tickStart := rfl
@[simp] theorem writeDir_duty (b : Nat) (v : Bool) : (writeDir b v s).duty = s.duty := rfl
@[simp] theorem writeDir_track (b : Nat) (v : Bool) : (writeDir b v s).track = s.track := rfl
@[simp] theorem writeDir_chainOut (b : Nat) (v : Bool) : (writeDir b v s).chainOut = s.chainOut := rfl
@[simp] theorem writeDir_lvl (b : Nat) (v : Bool) : (writeDir b v s).lvl = s.lvl := rfl
@[simp] theorem writeDir_events (b : Nat) (v : Bool) : (writeDir b v s).events = s.events := rfl
@[simp] theorem writeDir_responses (b : Nat) (v : Bool) : (writeDir b v s).responses = s.responses := rfl
@[simp] theorem writeDir_commands (b : Nat) (v : Bool) : (writeDir b v s).commands = s.commands := rfl
@[simp] theorem writeDir_senseLine (b : Nat) (v : Bool) : (writeDir b v s).senseLine = s.senseLine := rfl
@[simp] theorem writeDir_draws (b : Nat) (v : Bool) : (writeDir b v s).draws = s.draws := rfl
@[simp] theorem writeDir_linkHangsAfter (b : Nat) (v : Bool) : (writeDir b v s).linkHangsAfter = s.linkHangsAfter := rfl
@[simp] theorem writeDir_linkStuck (b : Nat) (v : Bool) : (writeDir b v s).linkStuck = s.linkStuck := rfl

/-! What `writeWr` leaves in each field. -/

@[simp] theorem writeWr_cfg (b : Nat) (v : Bool) : (writeWr b v s).cfg = s.cfg := rfl
@[simp] theorem writeWr_dir (b : Nat) (v : Bool) : (writeWr b v s).dir = s.dir := rfl
@[simp] theorem writeWr_wr (b : Nat) (v : Bool) : (writeWr b v s).wr = bitWrite s.wr b v := rfl
@[simp] theorem writeWr_rd (b : Nat) (v : Bool) : (writeWr b v s).rd = s.rd := rfl
@[simp] theorem writeWr_byteCount (b : Nat) (v : Bool) : (writeWr b v s).byteCount = s.byteCount := rfl
@[simp] theorem writeWr_wbActive (b : Nat) (v : Bool) : (writeWr b v s).wbActive = s.wbActive := rfl
@[simp] theorem writeWr_rbActive (b : Nat) (v : Bool) : (writeWr b v s).rbActive = s.rbActive := rfl
@[simp] theorem writeWr_period (b : Nat) (v : Bool) : (writeWr b v s).period = s.period := rfl
@[simp] theorem writeWr_tickStart (b : Nat) (v : Bool) : (writeWr b v s).tickStart = s.tickStart := rfl
@[simp] theorem writeWr_duty (b : Nat) (v : Bool) : (writeWr b v s).duty = s.duty := rfl
@[simp] theorem writeWr_track (b : Nat) (v : Bool) : (writeWr b v s).track = s.track := rfl
@[simp] theorem writeWr_chainOut (b : Nat) (v : Bool) : (writeWr b v s).chainOut = s.chainOut := rfl
@[simp] theorem writeWr_lvl (b : Nat) (v : Bool) : (writeWr b v s).lvl = s.lvl := rfl
@[simp] theorem writeWr_events (b : Nat) (v : Bool) : (writeWr b v s).events = s.events := rfl
@[simp] theorem writeWr_responses (b : Nat) (v : Bool) : (writeWr b v s).responses = s.responses := rfl
@[simp] theorem writeWr_commands (b : Nat) (v : Bool) : (writeWr b v s).commands = s.commands := rfl
@[simp] theorem writeWr_senseLine (b : Nat) (v : Bool) : (writeWr b v s).senseLine = s.senseLine := rfl
@[simp] theorem writeWr_draws (b : Nat) (v : Bool) : (writeWr b v s).draws = s.draws := rfl
@[simp] theorem writeWr_linkHangsAfter (b : Nat) (v : Bool) : (writeWr b v s).linkHangsAfter = s.linkHangsAfter := rfl
@[simp] theorem writeWr_linkStuck (b : Nat) (v : Bool) : (writeWr b v s).linkStuck = s.linkStuck := rfl

/-! What `writeRd` leaves in each field. -/

@[simp] theorem writeRd_cfg (b : Nat) (v : Bool) : (writeRd b v s).cfg = s.cfg := rfl
@[simp] theorem writeRd_dir (b : Nat) (v : Bool) : (writeRd b v s).dir = s.dir := rfl
@[simp] theorem writeRd_wr (b : Nat) (v : Bool) : (writeRd b v s).wr = s.wr := rfl
@[simp] theorem writeRd_rd (b : Nat) (v : Bool) : (writeRd b v s).rd = bitWrite s.rd b v := rfl
@[simp] theorem writeRd_byteCount (b : Nat) (v : Bool) : (writeRd b v s).byteCount = s.byteCount := rfl
@[simp] theorem writeRd_wbActive (b : Nat) (v : Bool) : (writeRd b v s).wbActive = s.wbActive := rfl
@[simp] theorem writeRd_rbActive (b : Nat) (v : Bool) : (writeRd b v s).rbActive = s.rbActive := rfl
@[simp] theorem writeRd_period (b : Nat) (v : Bool) : (writeRd b v s).period = s.period := rfl
@[simp] theorem writeRd_tickStart (b : Nat) (v : Bool) : (writeRd b v s).tickStart = s.tickStart := rfl
@[simp] theorem writeRd_duty (b : Nat) (v : Bool) : (writeRd b v s).duty = s.duty := rfl
@[simp] theorem writeRd_track (b : Nat) (v : Bool) : (writeRd b v s).track = s.track := rfl
@[simp] theorem writeRd_chainOut (b : Nat) (v : Bool) : (writeRd b v s).chainOut = s.chainOut := rfl
@[simp] theorem writeRd_lvl (b : Nat) (v : Bool) : (writeRd b v s).lvl = s.lvl := rfl
@[simp] theorem writeRd_events (b : Nat) (v : Bool) : (writeRd b v s).events = s.events := rfl
@[simp] theorem writeRd_responses (b : Nat) (v : Bool) : (writeRd b v s).responses = s.responses := rfl
@[simp] theorem writeRd_commands (b : Nat) (v : Bool) : (writeRd b v s).commands = s.commands := rfl
@[simp] theorem writeRd_senseLine (b : Nat) (v : Bool) : (writeRd b v s).senseLine = s.senseLine := rfl
@[simp] theorem writeRd_draws (b : Nat) (v : Bool) : (writeRd b v s).draws = s.draws := rfl
@[simp] theorem writeRd_linkHangsAfter (b : Nat) (v : Bool) : (writeRd b v s).linkHangsAfter = s.linkHangsAfter := rfl
@[simp] theorem writeRd_linkStuck (b : Nat) (v : Bool) : (writeRd b v s).linkStuck = s.linkStuck := rfl

/-! What `setDuty` leaves in each field. -/

@[simp] theorem setDuty_cfg (b : Nat) (x : Duty) : (setDuty b x s).cfg = s.cfg := rfl
@[simp] theorem setDuty_dir (b : Nat) (x : Duty) : (setDuty b x s).dir = s.dir := rfl
@[simp] theorem setDuty_wr (b : Nat) (x : Duty) : (setDuty b x s).wr = s.wr := rfl
@[simp] theorem setDuty_rd (b : Nat) (x : Duty) : (setDuty b x s).rd = s.rd := rfl
@[simp] theorem setDuty_byteCount (b : Nat) (x : Duty) : (setDuty b x s).byteCount = s.byteCount := rfl
@[simp] theorem setDuty_wbActive (b : Nat) (x : Duty) : (setDuty b x s).wbActive = s.wbActive := rfl
@[simp] theorem setDuty_rbActive (b : Nat) (x : Duty) : (setDuty b x s).rbActive = s.rbActive := rfl
@[simp] theorem setDuty_period (b : Nat) (x : Duty) : (setDuty b x s).period = s.period := rfl
@[simp] theorem setDuty_tickStart (b : Nat) (x : Duty) : (setDuty b x s).tickStart = s.tickStart := rfl
@[simp] theorem setDuty_duty (b : Nat) (x : Duty) : (setDuty b x s).duty = s.duty.setIfInBounds b x := rfl
@[simp] theorem setDuty_track (b : Nat) (x : Duty) : (setDuty b x s).track = s.track := rfl
@[simp] theorem setDuty_chainOut (b : Nat) (x : Duty) : (setDuty b x s).chainOut = s.chainOut := rfl
@[simp] theorem setDuty_lvl (b : Nat) (x : Duty) : (setDuty b x s).lvl = s.lvl := rfl
@[simp] theorem setDuty_events (b : Nat) (x : Duty) : (setDuty b x s).events = s.events := rfl
@[simp] theorem setDuty_responses (b : Nat) (x : Duty) : (setDuty b x s).responses = s.responses := rfl
@[simp] theorem setDuty_commands (b : Nat) (x : Duty) : (setDuty b x s).commands = s.commands := rfl
@[simp] theorem setDuty_senseLine (b : Nat) (x : Duty) : (setDuty b x s).senseLine = s.senseLine := rfl
@[simp] theorem setDuty_draws (b : Nat) (x : Duty) : (setDuty b x s).draws = s.draws := rfl
@[simp] theorem setDuty_linkHangsAfter (b : Nat) (x : Duty) : (setDuty b x s).linkHangsAfter = s.linkHangsAfter := rfl
@[simp] theorem setDuty_linkStuck (b : Nat) (x : Duty) : (setDuty b x s).linkStuck = s.linkStuck := rfl

/-! What `setTrack` leaves in each field. -/

@[simp] theorem setTrack_cfg (b : Nat) (x : Track) : (setTrack b x s).cfg = s.cfg := rfl
@[simp] theorem setTrack_dir (b : Nat) (x : Track) : (setTrack b x s).dir = s.dir := rfl
@[simp] theorem setTrack_wr (b : Nat) (x : Track) : (setTrack b x s).wr = s.wr := rfl
@[simp] theorem setTrack_rd (b : Nat) (x : Track) : (setTrack b x s).rd = s.rd := rfl
@[simp] theorem setTrack_byteCount (b : Nat) (x : Track) : (setTrack b x s).byteCount = s.byteCount := rfl
@[simp] theorem setTrack_wbActive (b : Nat) (x : Track) : (setTrack b x s).wbActive = s.wbActive := rfl
@[simp] theorem setTrack_rbActive (b : Nat) (x : Track) : (setTrack b x s).rbActive = s.rbActive := rfl
@[simp] theorem setTrack_period (b : Nat) (x : Track) : (setTrack b x s).period = s.period := rfl
@[simp] theorem setTrack_tickStart (b : Nat) (x : Track) : (setTrack b x s).tickStart = s.tickStart := rfl
@[simp] theorem setTrack_duty (b : Nat) (x : Track) : (setTrack b x s).duty = s.duty := rfl
@[simp] theorem setTrack_track (b : Nat) (x : Track) : (setTrack b x s).track = s.track.setIfInBounds b x := rfl
@[simp] theorem setTrack_chainOut (b : Nat) (x : Track) : (setTrack b x s).chainOut = s.chainOut := rfl
@[simp] theorem setTrack_lvl (b : Nat) (x : Track) : (setTrack b x s).lvl = s.lvl := rfl
@[simp] theorem setTrack_events (b : Nat) (x : Track) : (setTrack b x s).events = s.events := rfl
@[simp] theorem setTrack_responses (b : Nat) (x : Track) : (setTrack b x s).responses = s.responses := rfl
@[simp] theorem setTrack_commands (b : Nat) (x : Track) : (setTrack b x s).commands = s.commands := rfl
@[simp] theorem setTrack_senseLine (b : Nat) (x : Track) : (setTrack b x s).senseLine = s.senseLine := rfl
@[simp] theorem setTrack_draws (b : Nat) (x : Track) : (setTrack b x s).draws = s.draws := rfl
@[simp] theorem setTrack_linkHangsAfter (b : Nat) (x : Track) : (setTrack b x s).linkHangsAfter = s.linkHangsAfter := rfl
@[simp] theorem setTrack_linkStuck (b : Nat) (x : Track) : (setTrack b x s).linkStuck = s.linkStuck := rfl

end Sys2Proof.Machine
end

