-- ==== Sys2Proof/Laws/Bits.lean ====
section
/-! SUPPORT. The bit arrays: a read after a write, and what a write leaves alone (00_scope.md R15). -/

namespace Sys2Proof.Machine

theorem byteAt_out_of_range (arr : ByteArray16) {k : Nat} (h : 16 ≤ k) : byteAt arr k = 0#8 := by
  simp [byteAt, Vector.getElem?_eq_none h]

theorem byteAt_bitWrite_same (arr : ByteArray16) {i : Nat} (v : Bool) (h : i < 128) :
    byteAt (bitWrite arr i v) (byteOf i) = withBit (byteAt arr (byteOf i)) (offOf i) v := by
  have : byteOf i < 16 := by unfold byteOf; omega
  simp [byteAt, bitWrite, this]

theorem byteAt_bitWrite_other (arr : ByteArray16) {i k : Nat} (v : Bool) (h : k ≠ byteOf i) :
    byteAt (bitWrite arr i v) k = byteAt arr k := by
  simp [byteAt, bitWrite, Ne.symm h]

theorem getLsbD_withBit (x : Byte) {o p : Nat} (v : Bool) (ho : o < 8) (hp : p < 8) :
    (withBit x o v).getLsbD p = if p = o then v else x.getLsbD p := by
  have key : ∀ o : Fin 8, ∀ p : Fin 8, (offMask o.1).getLsbD p.1 = decide (p.1 = o.1) := by decide
  have h := key ⟨o, ho⟩ ⟨p, hp⟩
  simp only at h
  cases v <;> by_cases hpo : p = o <;> simp_all [withBit]

/-- A read of bit j after a write of bit i gives the value written where j is i, and bit j as it was elsewhere. -/
theorem bitRead_bitWrite (arr : ByteArray16) {i : Nat} (j : Nat) (v : Bool) (h : i < 128) :
    bitRead (bitWrite arr i v) j = if j = i then v else bitRead arr j := by
  unfold bitRead
  by_cases hb : byteOf j = byteOf i
  · rw [hb, byteAt_bitWrite_same arr v h, getLsbD_withBit _ v (by unfold offOf; omega) (by unfold offOf; omega)]
    have : offOf j = offOf i ↔ j = i := by unfold byteOf at hb; unfold offOf; omega
    simp [this]
  · have : j ≠ i := fun e => hb (by rw [e])
    rw [byteAt_bitWrite_other arr v hb, if_neg this]

theorem byteAt_zero (k : Nat) : byteAt (Vector.replicate 16 0#8) k = 0#8 := by
  unfold byteAt
  by_cases h : k < 16
  · simp [h]
  · simp [Vector.getElem?_eq_none (Nat.le_of_not_lt h)]

theorem bitRead_zero (i : Nat) : bitRead (Vector.replicate 16 0#8) i = false := by
  simp [bitRead, byteAt_zero]

/-- The bits of a byte that is 0 are 0. -/
theorem bitRead_of_byteAt_zero (arr : ByteArray16) {i : Nat} (h : byteAt arr (byteOf i) = 0#8) : bitRead arr i = false := by
  simp [bitRead, h]

/-- A write of a bit below 8n leaves every byte at n and above alone. -/
theorem byteAt_bitWrite_above (arr : ByteArray16) {i n k : Nat} (v : Bool) (h : i < 8 * n) (hk : n ≤ k) :
    byteAt (bitWrite arr i v) k = byteAt arr k :=
  byteAt_bitWrite_other arr v (by unfold byteOf; omega)

theorem dutyAt_setDuty (s : State) {b : Nat} (i : Nat) (x : Duty) (h : b < 64) :
    dutyAt (setDuty b x s) i = if i = b then x else dutyAt s i := by
  unfold dutyAt
  by_cases e : i = b
  · subst e; simp [h]
  · simp [e, Ne.symm e]

theorem trackAt_setTrack (s : State) {b : Nat} (i : Nat) (x : Track) (h : b < 64) :
    trackAt (setTrack b x s) i = if i = b then x else trackAt s i := by
  unfold trackAt
  by_cases e : i = b
  · subst e; simp [h]
  · simp [e, Ne.symm e]

@[simp] theorem dutyAt_setTrack (s : State) (b i : Nat) (x : Track) : dutyAt (setTrack b x s) i = dutyAt s i := rfl

@[simp] theorem trackAt_setDuty (s : State) (b i : Nat) (x : Duty) : trackAt (setDuty b x s) i = trackAt s i := rfl

theorem trackAt_of_lt (s : State) {i : Nat} (h : i < 64) : trackAt s i = s.track[i] := by
  simp [trackAt, h]

theorem dutyAt_of_lt (s : State) {i : Nat} (h : i < 64) : dutyAt s i = s.duty[i] := by
  simp [dutyAt, h]

/-- The byte of an index below 8n lies below n. -/
theorem byteOf_lt {i n : Nat} (h : i < 8 * n) : byteOf i < n := by unfold byteOf; omega

theorem offOf_lt (i : Nat) : offOf i < 8 := by unfold offOf; omega

end Sys2Proof.Machine
end

