-- ==== Sys2Proof/Laws/Ops.lean ====
section
/-! SUPPORT. One lemma, or a few, per shared operation: everything it can do. Proofs cite these and unfold nothing. -/

namespace Sys2Proof.Machine

/-! The end of a command. -/

/-- Where every link primitive completes, `complete` is the OK response. -/
theorem complete_of_reliable {s : State} (t : State) (d : Bool) (h : s.LinkReliable) :
    complete s t d = .next (respond .ok d t) := by
  simp [complete, h]

/-- A command that emits nothing completes whatever the link does. -/
theorem complete_of_no_event {s t : State} (d : Bool) (h : t.events = s.events)
    (hl : t.linkHangsAfter = s.linkHangsAfter) : complete s t d = .next (respond .ok d t) := by
  unfold complete
  split
  · rfl
  · rename_i n hn
    have h0 : t.events.length - s.events.length = 0 := by simp [h]
    rw [h0, if_pos (Nat.zero_le n), Nat.sub_zero, ← hn, ← hl]

/-- Inversion: a command that reaches its end completes, or is stuck in a primitive that never returns. -/
theorem complete_next {s t u : State} {d : Bool} (h : complete s t d = .next u) :
    (∃ m, (s.linkHangsAfter = none → m = t.linkHangsAfter) ∧ u = respond .ok d { t with linkHangsAfter := m }) ∨
    (u = stall s ∧ ∃ n, s.linkHangsAfter = some n ∧ n < t.events.length - s.events.length) := by
  unfold complete at h
  split at h
  · exact Or.inl ⟨t.linkHangsAfter, fun _ => rfl, by injection h with h; exact h.symm⟩
  · rename_i n hn
    split at h
    · exact Or.inl ⟨some (n - (t.events.length - s.events.length)), fun h0 => by simp [h0] at hn,
        by injection h with h; exact h.symm⟩
    · exact Or.inr ⟨by injection h with h; exact h.symm, n, hn, by omega⟩

/-- A command that reaches its end has a next state, the stuck one if it is stuck. -/
theorem complete_isNext (s t : State) (d : Bool) : ∃ u, complete s t d = .next u := by
  unfold complete
  split
  · exact ⟨_, rfl⟩
  · split <;> exact ⟨_, rfl⟩

/-! The command port. -/

/-- A block that is not stuck takes the command presented next. -/
theorem nextCommand_of_running {s : State} {k : Command} {rest : List Command} (hr : s.Running)
    (hc : s.commands = k :: rest) : nextCommand s = some (k, { s with commands := rest }) := by
  simp [nextCommand, hr, hc]

/-- A stuck block takes none. -/
theorem nextCommand_of_stuck {s : State} (h : s.linkStuck = true) : nextCommand s = none := by
  simp [nextCommand, h]

theorem nextCommand_of_nil {s : State} (h : s.commands = []) : nextCommand s = none := by
  unfold nextCommand
  rw [h]
  cases s.linkStuck <;> rfl

/-! Link events. -/

/-- `emit` changes the events, the line levels and the draw count, and nothing else. -/
theorem emit_eq (e : LinkEvent) (s : State) :
    emit e s = { s with events := s.events ++ [e], lvl := (emit e s).lvl, draws := (emit e s).draws } := by
  rcases e with ⟨l, v⟩ | b | v
  · cases l <;> rfl
  · rfl
  · rfl

theorem emitAll_nil (s : State) : emitAll [] s = s := rfl

theorem emitAll_cons (e : LinkEvent) (es : List LinkEvent) (s : State) : emitAll (e :: es) s = emitAll es (emit e s) := rfl

theorem emitAll_append (es fs : List LinkEvent) (s : State) : emitAll (es ++ fs) s = emitAll fs (emitAll es s) := by
  simp [emitAll, List.foldl_append]

/-- `emitAll` appends its events; it changes the line levels and the draw count, and nothing else. -/
theorem emitAll_eq (es : List LinkEvent) (s : State) :
    emitAll es s = { s with events := s.events ++ es, lvl := (emitAll es s).lvl, draws := (emitAll es s).draws } := by
  induction es generalizing s with
  | nil => simp [emitAll_nil]
  | cons e es ih =>
    rw [emitAll_cons, ih, emit_eq e s]
    simp

@[simp] theorem flushEvents_length (bytes : List Byte) : (flushEvents bytes).length = bytes.length + 3 := by
  simp [flushEvents]

/-- What a flush changes: the events, the line levels, the draw count and the chain outputs. -/
theorem flushBytes_eq (bytes : List Byte) (s : State) :
    flushBytes bytes s = { s with
      events := s.events ++ flushEvents bytes
      chainOut := bytes
      lvl := (flushBytes bytes s).lvl
      draws := (flushBytes bytes s).draws } := by
  unfold flushBytes
  rw [emitAll_eq]

/-- After a flush LATCH is High (10_state.md R33). -/
theorem flushBytes_latch (bytes : List Byte) (s : State) : (flushBytes bytes s).lvl.latch = .high := by
  simp [flushBytes, flushEvents, emitAll_append, emitAll_cons, emitAll_nil, emit]

/-- After a flush with no bytes CLOCK is Low (10_state.md R33). -/
theorem flushBytes_nil_clock (s : State) : (flushBytes [] s).lvl.clock = .low := rfl

section FlushFields

variable (bytes : List Byte) (s : State)

@[simp] theorem flushBytes_events : (flushBytes bytes s).events = s.events ++ flushEvents bytes := by rw [flushBytes_eq]
@[simp] theorem flushBytes_chainOut : (flushBytes bytes s).chainOut = bytes := rfl
@[simp] theorem flushBytes_cfg : (flushBytes bytes s).cfg = s.cfg := by rw [flushBytes_eq]
@[simp] theorem flushBytes_dir : (flushBytes bytes s).dir = s.dir := by rw [flushBytes_eq]
@[simp] theorem flushBytes_wr : (flushBytes bytes s).wr = s.wr := by rw [flushBytes_eq]
@[simp] theorem flushBytes_rd : (flushBytes bytes s).rd = s.rd := by rw [flushBytes_eq]
@[simp] theorem flushBytes_byteCount : (flushBytes bytes s).byteCount = s.byteCount := by rw [flushBytes_eq]
@[simp] theorem flushBytes_wbActive : (flushBytes bytes s).wbActive = s.wbActive := by rw [flushBytes_eq]
@[simp] theorem flushBytes_rbActive : (flushBytes bytes s).rbActive = s.rbActive := by rw [flushBytes_eq]
@[simp] theorem flushBytes_period : (flushBytes bytes s).period = s.period := by rw [flushBytes_eq]
@[simp] theorem flushBytes_tickStart : (flushBytes bytes s).tickStart = s.tickStart := by rw [flushBytes_eq]
@[simp] theorem flushBytes_duty : (flushBytes bytes s).duty = s.duty := by rw [flushBytes_eq]
@[simp] theorem flushBytes_track : (flushBytes bytes s).track = s.track := by rw [flushBytes_eq]
@[simp] theorem flushBytes_responses : (flushBytes bytes s).responses = s.responses := by rw [flushBytes_eq]
@[simp] theorem flushBytes_commands : (flushBytes bytes s).commands = s.commands := by rw [flushBytes_eq]
@[simp] theorem flushBytes_senseLine : (flushBytes bytes s).senseLine = s.senseLine := by rw [flushBytes_eq]
@[simp] theorem flushBytes_linkHangsAfter : (flushBytes bytes s).linkHangsAfter = s.linkHangsAfter := by rw [flushBytes_eq]
@[simp] theorem flushBytes_linkStuck : (flushBytes bytes s).linkStuck = s.linkStuck := by rw [flushBytes_eq]

end FlushFields

@[simp] theorem bytesOf_length (n : Nat) (arr : ByteArray16) : (bytesOf n arr).length = n := by simp [bytesOf]

@[simp] theorem wrBytes_length (s : State) : (wrBytes s).length = s.byteCount.toNat := by simp [wrBytes]

@[simp] theorem isolationPattern_length (s : State) (b : Nat) : (isolationPattern s b).length = s.byteCount.toNat := by
  simp [isolationPattern]

/-- What a flush of the write cache changes. -/
theorem flushCache_eq (s : State) :
    flushCache s = { s with
      events := s.events ++ flushEvents (wrBytes s)
      chainOut := wrBytes s
      lvl := (flushCache s).lvl
      draws := (flushCache s).draws } :=
  flushBytes_eq (wrBytes s) s

theorem flushCache_latch (s : State) : (flushCache s).lvl.latch = .high := flushBytes_latch (wrBytes s) s

/-! PWM disabling. -/

/-- `PwmDisable(b)` changes at most duty[b]. -/
theorem pwmDisable_eq (b : Nat) (s : State) : pwmDisable b s = { s with duty := (pwmDisable b s).duty } := by
  unfold pwmDisable
  split
  · simp [setDuty]
  · rfl

theorem dutyAt_pwmDisable (b i : Nat) (s : State) :
    dutyAt (pwmDisable b s) i = if i = b then .disabled else dutyAt s i := by
  unfold pwmDisable
  by_cases h : b < 64
  · rw [if_pos (by simp [pwmInRange, Config.pwmEntries, h]), dutyAt_setDuty s i .disabled h]
  · rw [if_neg (by simp [pwmInRange, Config.pwmEntries, h])]
    split
    · rename_i e; subst e; simp [dutyAt, Vector.getElem?_eq_none (Nat.le_of_not_lt h)]
    · rfl

/-! Samples and hard reads. -/

/-- The environment's next level is what a SAMPLE takes (20_memory.md R75). -/
theorem senseLevel_of_cons {s : State} {l : Level} {ls : List Level} (h : s.senseLine = l :: ls) : senseLevel s = l := by
  simp [senseLevel, h]

/-- A sample emits its level and uses up one choice of the environment. -/
theorem takeSample_eq (s : State) :
    takeSample s = { s with
      events := s.events ++ [.sample (senseLevel s)], senseLine := s.senseLine.tail, draws := s.draws + 1 } := rfl

/-- The level at the SAMPLE of a hard read of bit b from `s`. -/
def hardReadLevel (b : Nat) (s : State) : Level := senseLevel (flushBytes (isolationPattern s b) s)

theorem hardReadBit_eq (b : Nat) (s : State) : hardReadBit b s = bitOfLevel (hardReadLevel b s) := rfl

theorem hardReadLevel_of_cons {s : State} {l : Level} {ls : List Level} (b : Nat) (h : s.senseLine = l :: ls) :
    hardReadLevel b s = l :=
  senseLevel_of_cons (by simpa using h)

/-- The link events of one hard read: the isolation flush, then the sample (40_bit_buffer.md R131). -/
def hardReadEvents (b : Nat) (s : State) : List LinkEvent :=
  flushEvents (isolationPattern s b) ++ [.sample (hardReadLevel b s)]

/-- What a hard read changes: the read cache at b, the chain, the events, the line levels, the draw count and the
environment's list. -/
theorem hardRead_eq (b : Nat) (s : State) :
    hardRead b s = { s with
      rd := bitWrite s.rd b (hardReadBit b s)
      chainOut := isolationPattern s b
      events := s.events ++ hardReadEvents b s
      lvl := (hardRead b s).lvl
      draws := (hardRead b s).draws
      senseLine := s.senseLine.tail } := by
  have hl : (hardRead b s).lvl = (flushBytes (isolationPattern s b) s).lvl := rfl
  have hd : (hardRead b s).draws = (flushBytes (isolationPattern s b) s).draws + 1 := rfl
  rw [hl, hd]
  unfold hardRead writeRd
  rw [takeSample_eq]
  simp [hardReadEvents, hardReadLevel]

theorem hardRead_latch (b : Nat) (s : State) : (hardRead b s).lvl.latch = .high := by
  have : (hardRead b s).lvl = (flushBytes (isolationPattern s b) s).lvl := rfl
  rw [this, flushBytes_latch]

section HardReadFields

variable (b : Nat) (s : State)

@[simp] theorem hardRead_rd : (hardRead b s).rd = bitWrite s.rd b (hardReadBit b s) := by rw [hardRead_eq]
@[simp] theorem hardRead_chainOut : (hardRead b s).chainOut = isolationPattern s b := by rw [hardRead_eq]
@[simp] theorem hardRead_events : (hardRead b s).events = s.events ++ hardReadEvents b s := by rw [hardRead_eq]
@[simp] theorem hardRead_senseLine : (hardRead b s).senseLine = s.senseLine.tail := by rw [hardRead_eq]
@[simp] theorem hardRead_cfg : (hardRead b s).cfg = s.cfg := by rw [hardRead_eq]
@[simp] theorem hardRead_dir : (hardRead b s).dir = s.dir := by rw [hardRead_eq]
@[simp] theorem hardRead_wr : (hardRead b s).wr = s.wr := by rw [hardRead_eq]
@[simp] theorem hardRead_byteCount : (hardRead b s).byteCount = s.byteCount := by rw [hardRead_eq]
@[simp] theorem hardRead_linkHangsAfter : (hardRead b s).linkHangsAfter = s.linkHangsAfter := by rw [hardRead_eq]
@[simp] theorem hardRead_linkStuck : (hardRead b s).linkStuck = s.linkStuck := by rw [hardRead_eq]

end HardReadFields

/-- The isolation pattern depends on wr, dir and byteCount alone. -/
theorem isolationPattern_congr {s t : State} (b : Nat) (hw : t.wr = s.wr) (hd : t.dir = s.dir)
    (hn : t.byteCount = s.byteCount) : isolationPattern t b = isolationPattern s b := by
  simp [isolationPattern, isolationByte, hw, hd, hn]

/-- Every pattern after a hard read is built from the same wr and dir (40_bit_buffer.md R140). -/
@[simp] theorem isolationPattern_hardRead (b i : Nat) (s : State) :
    isolationPattern (hardRead i s) b = isolationPattern s b :=
  isolationPattern_congr b (by simp) (by simp) (by simp)

theorem hardReadAll_cons (i : Nat) (is : List Nat) (s : State) :
    hardReadAll (i :: is) s = hardReadAll is (hardRead i s) := rfl

/-- What a sequence of hard reads changes. -/
theorem hardReadAll_eq (is : List Nat) (s : State) :
    hardReadAll is s = { s with
      rd := (hardReadAll is s).rd
      chainOut := (hardReadAll is s).chainOut
      events := (hardReadAll is s).events
      lvl := (hardReadAll is s).lvl
      draws := (hardReadAll is s).draws
      senseLine := (hardReadAll is s).senseLine } := by
  induction is generalizing s with
  | nil => rfl
  | cons i is ih =>
    rw [hardReadAll_cons, ih, hardRead_eq i s]

/-- A bit that is not read keeps its value in the read cache. -/
theorem bitRead_hardReadAll_other {is : List Nat} {j : Nat} (s : State) (h : ∀ i ∈ is, i < 128) (hj : j ∉ is) :
    bitRead (hardReadAll is s).rd j = bitRead s.rd j := by
  induction is generalizing s with
  | nil => rfl
  | cons i is ih =>
    simp only [List.mem_cons, not_or] at hj
    rw [hardReadAll_cons, ih _ (fun k hk => h k (List.mem_cons_of_mem i hk)) hj.2, hardRead_rd,
      bitRead_bitWrite _ _ _ (h i List.mem_cons_self), if_neg hj.1]

/-- k hard reads emit k(n + 4) events (70_reset_and_hazards.md R291). -/
theorem hardReadAll_events_length (is : List Nat) (s : State) :
    (hardReadAll is s).events.length = s.events.length + is.length * (s.byteCount.toNat + 4) := by
  induction is generalizing s with
  | nil => simp [hardReadAll]
  | cons i is ih =>
    rw [hardReadAll_cons, ih]
    simp [hardReadEvents, Nat.add_mul]
    omega

/-- After the hard reads of some bits the chain shows the last one's isolation pattern (40_bit_buffer.md R139). -/
theorem hardReadAll_chainOut {is : List Nat} (s : State) (h : is ≠ []) :
    (hardReadAll is s).chainOut = isolationPattern s (is.getLast h) := by
  induction is generalizing s with
  | nil => exact absurd rfl h
  | cons i is ih =>
    rw [hardReadAll_cons]
    cases is with
    | nil => simp [hardReadAll]
    | cons j js => rw [ih _ (by simp)]; simp

/-- The input bits are the in-range bits whose direction is input. -/
theorem mem_inputBits {s : State} {i : Nat} : i ∈ inputBits s ↔ i < bitCount s ∧ bitRead s.dir i = true := by
  simp [inputBits]

/-! The PWM scan. -/

/-- What a PWM drive changes. -/
theorem pwmDrive_eq (i : Nat) (g : Track) (s : State) :
    pwmDrive i g s = { s with
      wr := bitWrite s.wr i (decide (g = .on))
      track := s.track.setIfInBounds i g
      chainOut := wrBytes (writeWr i (decide (g = .on)) s)
      events := s.events ++ flushEvents (wrBytes (writeWr i (decide (g = .on)) s))
      lvl := (pwmDrive i g s).lvl
      draws := (pwmDrive i g s).draws } := by
  unfold pwmDrive
  conv_lhs => rw [flushCache_eq]
  simp [setTrack, writeWr]

/-- What the scan of one pin changes at most. -/
theorem tickPin_eq (e : Nat) (s : State) (i : Nat) :
    tickPin e s i = { s with
      wr := (tickPin e s i).wr
      track := (tickPin e s i).track
      chainOut := (tickPin e s i).chainOut
      events := (tickPin e s i).events
      lvl := (tickPin e s i).lvl
      draws := (tickPin e s i).draws } := by
  unfold tickPin
  split
  · rfl
  · split
    · rw [pwmDrive_eq]
    · rfl

/-- What the scan of some pins changes at most. -/
theorem scan_eq (e : Nat) (is : List Nat) (s : State) :
    is.foldl (tickPin e) s = { s with
      wr := (is.foldl (tickPin e) s).wr
      track := (is.foldl (tickPin e) s).track
      chainOut := (is.foldl (tickPin e) s).chainOut
      events := (is.foldl (tickPin e) s).events
      lvl := (is.foldl (tickPin e) s).lvl
      draws := (is.foldl (tickPin e) s).draws } := by
  induction is generalizing s with
  | nil => rfl
  | cons i is ih => rw [List.foldl_cons, ih, tickPin_eq e s i]

/-- What steps 2 and 3 of TICK change at most. -/
theorem tickScan_eq (e : Nat) (s : State) :
    tickScan e s = { s with
      wr := (tickScan e s).wr
      track := (tickScan e s).track
      chainOut := (tickScan e s).chainOut
      events := (tickScan e s).events
      lvl := (tickScan e s).lvl
      draws := (tickScan e s).draws } :=
  scan_eq e (List.range Config.pwmEntries) s

/-- Step 1 of TICK changes at most tickStart. -/
theorem beginCycle_eq (now : Nat) (s : State) : beginCycle now s = { s with tickStart := (beginCycle now s).tickStart } := by
  unfold beginCycle
  split <;> rfl

end Sys2Proof.Machine
end

