-- ==== Sys2Proof/Laws/Tick.lean ====
section
/-! SUPPORT. The PWM scan in closed form: which pins it drives, the flushes it emits, and what it leaves (42_pwm.md R208
to R218). -/

namespace Sys2Proof.Machine

/-! What one pin's scan does. -/

theorem tickPin_of_none {e : Nat} {s : State} {i : Nat} (h : drivenPin e s i = none) : tickPin e s i = s := by
  unfold drivenPin scanTarget at h
  unfold tickPin
  cases hd : dutyAt s i with
  | disabled => rfl
  | enabled d =>
    simp only [hd] at h ⊢
    by_cases hb : i < bitCount s <;> simp_all

theorem tickPin_of_some {e : Nat} {s : State} {i : Nat} {p : Nat × Track} (h : drivenPin e s i = some p) :
    p.1 = i ∧ scanTarget e s i = some p.2 ∧ trackAt s i ≠ p.2 ∧ tickPin e s i = pwmDrive i p.2 s := by
  unfold drivenPin at h
  cases hs : scanTarget e s i with
  | none => simp [hs] at h
  | some g =>
    simp only [hs] at h
    split at h
    · simp at h
    · rename_i hne
      injection h with h
      subst h
      refine ⟨rfl, rfl, hne, ?_⟩
      unfold scanTarget at hs
      unfold tickPin
      cases hd : dutyAt s i with
      | disabled => simp [hd] at hs
      | enabled d =>
        simp only [hd] at hs ⊢
        by_cases hb : i < bitCount s <;> simp_all

@[simp] theorem bitCount_tickPin (e : Nat) (s : State) (i : Nat) : bitCount (tickPin e s i) = bitCount s := by
  unfold bitCount; rw [tickPin_eq]

@[simp] theorem byteCount_tickPin (e : Nat) (s : State) (i : Nat) : (tickPin e s i).byteCount = s.byteCount := by
  rw [tickPin_eq]

@[simp] theorem dutyAt_tickPin (e : Nat) (s : State) (i j : Nat) : dutyAt (tickPin e s i) j = dutyAt s j := by
  unfold dutyAt; rw [tickPin_eq]

/-- The targets do not depend on what the scan changes. -/
@[simp] theorem scanTarget_tickPin (e : Nat) (s : State) (i j : Nat) :
    scanTarget e (tickPin e s i) j = scanTarget e s j := by
  unfold scanTarget
  rw [dutyAt_tickPin, bitCount_tickPin]
  have : (tickPin e s i).period = s.period := by rw [tickPin_eq]
  rw [this]

theorem trackAt_pwmDrive (s : State) {i : Nat} (j : Nat) (g : Track) (h : i < 64) :
    trackAt (pwmDrive i g s) j = if j = i then g else trackAt s j := by
  have : (pwmDrive i g s).track = (setTrack i g s).track := by rw [pwmDrive_eq]; rfl
  unfold trackAt
  rw [this]
  exact trackAt_setTrack s j g h

/-- A pin's scan leaves that pin tracked at its target, if it has one, and no other pin's track changed. -/
theorem trackAt_tickPin (e : Nat) (s : State) {i : Nat} (j : Nat) (h : i < 64) :
    trackAt (tickPin e s i) j = if j = i then (scanTarget e s i).getD (trackAt s i) else trackAt s j := by
  cases hd : drivenPin e s i with
  | none =>
    rw [tickPin_of_none hd]
    split
    · rename_i hj; subst hj
      unfold drivenPin at hd
      cases hs : scanTarget e s j with
      | none => rfl
      | some g => simp [hs] at hd; simp [hd]
    · rfl
  | some p =>
    obtain ⟨-, hs, -, he⟩ := tickPin_of_some hd
    rw [he, trackAt_pwmDrive s j p.2 h, hs]
    rfl

/-- Scanning one pin does not change whether another is to be driven. -/
theorem drivenPin_tickPin (e : Nat) (s : State) {i j : Nat} (h : i < 64) (hj : j ≠ i) :
    drivenPin e (tickPin e s i) j = drivenPin e s j := by
  unfold drivenPin
  rw [scanTarget_tickPin, trackAt_tickPin e s j h, if_neg hj]

/-! Drives in sequence. -/

@[simp] theorem driveEvents_nil (n : Nat) (arr : ByteArray16) : driveEvents n arr [] = [] := rfl

theorem driveEvents_cons (n : Nat) (arr : ByteArray16) (p : Nat × Track) (ps : List (Nat × Track)) :
    driveEvents n arr (p :: ps) =
      flushEvents (bytesOf n (bitWrite arr p.1 (decide (p.2 = .on)))) ++
        driveEvents n (bitWrite arr p.1 (decide (p.2 = .on))) ps := by
  simp [driveEvents, List.range_succ_eq_map, List.flatMap_map, cacheAfter]

@[simp] theorem cacheAfter_nil (arr : ByteArray16) : cacheAfter [] arr = arr := rfl

theorem cacheAfter_cons (p : Nat × Track) (ps : List (Nat × Track)) (arr : ByteArray16) :
    cacheAfter (p :: ps) arr = cacheAfter ps (bitWrite arr p.1 (decide (p.2 = .on))) := rfl

/-- m drives emit m(n + 3) events (70_reset_and_hazards.md R291). -/
theorem driveEvents_length (n : Nat) (arr : ByteArray16) (ps : List (Nat × Track)) :
    (driveEvents n arr ps).length = ps.length * (n + 3) := by
  induction ps generalizing arr with
  | nil => simp
  | cons p ps ih => rw [driveEvents_cons, List.length_append, ih]; simp [Nat.add_mul]; omega

/-- The scan of some distinct pins in closed form. -/
theorem scan_closed_form (e : Nat) {is : List Nat} (s : State) (hlt : ∀ i ∈ is, i < 64) (hnd : is.Nodup) :
    (is.foldl (tickPin e) s).wr = cacheAfter (is.filterMap (drivenPin e s)) s.wr ∧
    (is.foldl (tickPin e) s).events =
      s.events ++ driveEvents s.byteCount.toNat s.wr (is.filterMap (drivenPin e s)) ∧
    (∀ j, trackAt (is.foldl (tickPin e) s) j =
      if j ∈ is then (scanTarget e s j).getD (trackAt s j) else trackAt s j) ∧
    (is.filterMap (drivenPin e s) = [] → is.foldl (tickPin e) s = s) ∧
    (is.filterMap (drivenPin e s) ≠ [] →
      (is.foldl (tickPin e) s).chainOut = bytesOf s.byteCount.toNat (is.foldl (tickPin e) s).wr ∧
      (is.foldl (tickPin e) s).lvl.latch = .high) := by
  induction is generalizing s with
  | nil => simp
  | cons i is ih =>
    have hi : i < 64 := hlt i List.mem_cons_self
    have hni : i ∉ is := (List.nodup_cons.mp hnd).1
    have hsame : is.filterMap (drivenPin e (tickPin e s i)) = is.filterMap (drivenPin e s) :=
      List.filterMap_congr fun j hj => drivenPin_tickPin e s hi (fun h => hni (h ▸ hj))
    obtain ⟨h1, h2, h3, h4, h5⟩ := ih (tickPin e s i) (fun j hj => hlt j (List.mem_cons_of_mem i hj)) (List.nodup_cons.mp hnd).2
    rw [hsame] at h1 h2 h4 h5
    rw [List.foldl_cons]
    have htr : ∀ j, trackAt (is.foldl (tickPin e) (tickPin e s i)) j =
        if j ∈ i :: is then (scanTarget e s j).getD (trackAt s j) else trackAt s j := by
      intro j
      rw [h3 j, scanTarget_tickPin, trackAt_tickPin e s j hi]
      by_cases hj : j = i
      · subst hj; simp [hni]
      · simp [hj]
    cases hd : drivenPin e s i with
    | none =>
      rw [tickPin_of_none hd] at h1 h2 h4 h5 htr ⊢
      rw [List.filterMap_cons_none hd]
      exact ⟨h1, h2, htr, h4, h5⟩
    | some p =>
      obtain ⟨hp, -, -, he⟩ := tickPin_of_some hd
      subst hp
      rw [List.filterMap_cons_some hd]
      have hw : (tickPin e s p.1).wr = bitWrite s.wr p.1 (decide (p.2 = .on)) := by rw [he, pwmDrive_eq]
      have hev : (tickPin e s p.1).events =
          s.events ++ flushEvents (bytesOf s.byteCount.toNat (bitWrite s.wr p.1 (decide (p.2 = .on)))) := by
        rw [he, pwmDrive_eq]; rfl
      have hch : (tickPin e s p.1).chainOut = bytesOf s.byteCount.toNat (tickPin e s p.1).wr := by
        rw [hw, he, pwmDrive_eq]; rfl
      have hla : (tickPin e s p.1).lvl.latch = .high := by
        rw [he]; exact flushCache_latch _
      rw [hw] at h1
      rw [hw, hev, byteCount_tickPin] at h2
      refine ⟨?_, ?_, htr, by simp, fun _ => ?_⟩
      · rw [h1, cacheAfter_cons]
      · rw [h2, driveEvents_cons, List.append_assoc]
      · by_cases hnil : is.filterMap (drivenPin e s) = []
        · rw [h4 hnil]; exact ⟨hch, hla⟩
        · have := h5 hnil
          rw [byteCount_tickPin] at this
          exact this

/-- Steps 2 and 3 of TICK in closed form. -/
theorem tickScan_closed_form (e : Nat) (s : State) :
    (tickScan e s).wr = cacheAfter (drivenPins e s) s.wr ∧
    (tickScan e s).events = s.events ++ driveEvents s.byteCount.toNat s.wr (drivenPins e s) ∧
    (∀ j, trackAt (tickScan e s) j = if j < 64 then (scanTarget e s j).getD (trackAt s j) else trackAt s j) ∧
    (drivenPins e s = [] → tickScan e s = s) ∧
    (drivenPins e s ≠ [] →
      (tickScan e s).chainOut = bytesOf s.byteCount.toNat (tickScan e s).wr ∧ (tickScan e s).lvl.latch = .high) := by
  obtain ⟨h1, h2, h3, h4, h5⟩ :=
    scan_closed_form e s (is := List.range Config.pwmEntries) (fun i hi => List.mem_range.mp hi) List.nodup_range
  unfold tickScan drivenPins
  refine ⟨h1, h2, fun j => ?_, h4, h5⟩
  have hj := h3 j
  by_cases hlt : j < Config.pwmEntries
  · rw [if_pos (List.mem_range.mpr hlt)] at hj
    rw [if_pos (show j < 64 from hlt)]
    exact hj
  · rw [if_neg (fun h => hlt (List.mem_range.mp h))] at hj
    rw [if_neg (show ¬ j < 64 from hlt)]
    exact hj

theorem mem_drivenPins {e : Nat} {s : State} {p : Nat × Track} :
    p ∈ drivenPins e s ↔ p.1 < 64 ∧ drivenPin e s p.1 = some p := by
  unfold drivenPins
  rw [List.mem_filterMap]
  constructor
  · rintro ⟨i, hi, h⟩
    obtain ⟨hp, -⟩ := tickPin_of_some h
    subst hp
    exact ⟨List.mem_range.mp hi, h⟩
  · rintro ⟨hi, h⟩
    exact ⟨p.1, List.mem_range.mpr hi, h⟩

/-- The beginning of a cycle changes no target and no track. -/
@[simp] theorem drivenPin_beginCycle (e now : Nat) (s : State) (i : Nat) :
    drivenPin e (beginCycle now s) i = drivenPin e s i := by
  rw [beginCycle_eq]; rfl

@[simp] theorem scanTarget_beginCycle (e now : Nat) (s : State) (i : Nat) :
    scanTarget e (beginCycle now s) i = scanTarget e s i := by
  rw [beginCycle_eq]; rfl

@[simp] theorem drivenPins_beginCycle (e now : Nat) (s : State) :
    drivenPins e (beginCycle now s) = drivenPins e s := by
  simp [drivenPins]

/-! The period boundary. -/

theorem elapsed_self (cfg : Config) (now : Nat) : elapsed cfg now now = 0 := by simp [elapsed]

/-- The modular difference, for a start of at most TIME_BITS bits (42_pwm.md R209). -/
theorem elapsed_eq {cfg : Config} {now start : Nat} (h : start ≤ 2 ^ cfg.timeBits) :
    elapsed cfg now start = (now + 2 ^ cfg.timeBits - start) % 2 ^ cfg.timeBits := by
  unfold elapsed
  generalize 2 ^ cfg.timeBits = m at *
  have h1 : ((now : Int) - (start : Int)) % (m : Int) = ((now + m - start : Nat) : Int) % (m : Int) := by
    rw [Int.ofNat_sub (by omega)]
    push_cast
    rw [show ((now : Int) + m - start) = (now - start) + m by ring, Int.add_emod_right]
  rw [h1]
  norm_cast

/-- Where TIME_BITS is legal, `now` fits tickStart. -/
theorem operandNow_lt {cfg : Config} (t : Nat) : operandNow cfg t < 2 ^ cfg.timeBits :=
  Nat.mod_lt _ (Nat.two_pow_pos _)

theorem tickStart_beginCycle {s : State} {now : Nat} (hnow : now < 2 ^ 32) :
    (beginCycle now s).tickStart.toNat =
      if s.period.toNat ≤ elapsed s.cfg now s.tickStart.toNat then now else s.tickStart.toNat := by
  unfold beginCycle boundaryReached
  by_cases h : s.period.toNat ≤ elapsed s.cfg now s.tickStart.toNat
  · simp [h]; omega
  · simp [h]

theorem timeBits_le {c : Config} (h : c.wf = true) : c.timeBits ≤ 32 := by
  unfold Config.wf at h; simp at h; omega

theorem operandNow_lt_word {cfg : Config} (t : Nat) (h : cfg.wf = true) : operandNow cfg t < 2 ^ 32 :=
  Nat.lt_of_lt_of_le (operandNow_lt t) (Nat.pow_le_pow_right (by omega) (timeBits_le h))

end Sys2Proof.Machine
end

