-- ==== Sys2Proof/Laws/Link.lean ====
section
/-! SUPPORT. The observer of the link: a whole flush from a settled phase, and that every shared operation that touches
the link keeps it consistent (20_memory.md R72, R73, R79). -/

namespace Sys2Proof.Machine

theorem linkView_append (es fs : List LinkEvent) : linkView (es ++ fs) = fs.foldl LinkView.see (linkView es) := by
  simp [linkView, List.foldl_append]

theorem see_shiftBytes (bytes sent : List Byte) (c : Option (List Byte)) :
    (bytes.map LinkEvent.shiftByte).foldl LinkView.see { phase := .shifting sent, chain := c } =
      { phase := .shifting (sent ++ bytes), chain := c } := by
  induction bytes generalizing sent with
  | nil => simp
  | cons b bs ih => simp [LinkView.see, ih]

/-- From a settled phase a whole flush is seen as one, and its bytes are the chain's. -/
theorem see_flushEvents (bytes : List Byte) (v : LinkView) (h : v.phase = .quiet ∨ v.phase = .latched) :
    (flushEvents bytes).foldl LinkView.see v = { phase := .latched, chain := some bytes } := by
  have h1 : LinkView.see v (.setLevel .clock .low) = { phase := .opened, chain := v.chain } := by
    rcases v with ⟨ph, c⟩
    rcases h with h | h <;> subst h <;> rfl
  simp only [flushEvents, List.foldl_append, List.foldl_cons, List.foldl_nil, h1]
  have h2 : LinkView.see { phase := .opened, chain := v.chain } (.setLevel .latch .low) =
      { phase := .shifting [], chain := v.chain } := rfl
  rw [h2, see_shiftBytes]
  rfl

/-- A flush keeps the link consistent. -/
theorem flushBytes_linkConsistent (bytes : List Byte) {s : State} (h : s.LinkConsistent) :
    (flushBytes bytes s).LinkConsistent := by
  have hv : linkView (flushBytes bytes s).events = { phase := .latched, chain := some bytes } := by
    rw [flushBytes_events, linkView_append, see_flushEvents bytes _ h.1]
  refine ⟨Or.inr (by rw [hv]), Or.inr ⟨by rw [hv]; rfl, flushBytes_latch bytes s⟩⟩

/-- A hard read keeps the link consistent. -/
theorem hardRead_linkConsistent (b : Nat) {s : State} (h : s.LinkConsistent) : (hardRead b s).LinkConsistent := by
  have hv : linkView (hardRead b s).events = { phase := .quiet, chain := some (isolationPattern s b) } := by
    rw [hardRead_events, linkView_append, hardReadEvents, List.foldl_append, see_flushEvents _ _ h.1]
    rfl
  refine ⟨Or.inl (by rw [hv]), Or.inr ⟨by rw [hv, hardRead_chainOut], hardRead_latch b s⟩⟩

theorem hardReadAll_linkConsistent (is : List Nat) {s : State} (h : s.LinkConsistent) :
    (hardReadAll is s).LinkConsistent := by
  induction is generalizing s with
  | nil => exact h
  | cons i is ih => exact ih (hardRead_linkConsistent i h)

/-- Consistency depends on the events, the chain and the line levels alone. -/
theorem linkConsistent_congr {s t : State} (h : s.LinkConsistent) (he : t.events = s.events)
    (hc : t.chainOut = s.chainOut) (hl : t.lvl = s.lvl) : t.LinkConsistent := by
  unfold State.LinkConsistent at *
  rw [he, hc, hl]
  exact h

theorem pwmDrive_linkConsistent (i : Nat) (g : Track) {s : State} (h : s.LinkConsistent) :
    (pwmDrive i g s).LinkConsistent :=
  linkConsistent_congr (flushBytes_linkConsistent _ (linkConsistent_congr (t := writeWr i _ s) h rfl rfl rfl)) rfl rfl rfl

theorem tickPin_linkConsistent (e : Nat) (i : Nat) {s : State} (h : s.LinkConsistent) :
    (tickPin e s i).LinkConsistent := by
  cases hd : drivenPin e s i with
  | none => rw [tickPin_of_none hd]; exact h
  | some p => rw [(tickPin_of_some hd).2.2.2]; exact pwmDrive_linkConsistent i p.2 h

theorem tickScan_linkConsistent (e : Nat) {s : State} (h : s.LinkConsistent) : (tickScan e s).LinkConsistent := by
  unfold tickScan
  generalize List.range Config.pwmEntries = is
  induction is generalizing s with
  | nil => exact h
  | cons i is ih => exact ih (tickPin_linkConsistent e i h)

end Sys2Proof.Machine
end

