-- ==== Sys2Proof/Laws/Exec.lean ====
section
/-! SUPPORT. What a command can do, said once: it is rejected with its first error, or it completes from the state that its
effect gives. Every rule about all commands goes through `exec_cases`. -/

namespace Sys2Proof.Machine

/-- The state a command's effect gives, before its response. -/
def effect (i : Instr) (s : State) : State :=
  match i with
  | .setcap n =>
    { s with
      byteCount := BitVec.ofNat 5 (n / 8), dir := Vector.replicate 16 0#8, wr := Vector.replicate 16 0#8
      rd := Vector.replicate 16 0#8, track := Vector.replicate 64 .unknown }
  | .setmode b v => writeDir b v s
  | .wsoft b v => pwmDisable b (writeWr b v s)
  | .whard b v => flushCache (pwmDisable b (writeWr b v s))
  | .flush => flushCache s
  | .rhard b => hardRead b s
  | .rsoft _ => s
  | .getw _ => s
  | .rall => hardReadAll (inputBits s) s
  | .bwbegin => setWbActive true s
  | .bwend => setWbActive false (flushCache s)
  | .brbegin => setRbActive true (hardReadAll (inputBits s) s)
  | .brend => setRbActive false s
  | .writebit b v =>
    if s.wbActive then pwmDisable b (writeWr b v s) else flushCache (pwmDisable b (writeWr b v s))
  | .readbit b => if s.rbActive then s else hardRead b s
  | .setfreq hz => { s with period := BitVec.ofNat 20 (1000000 / hz) }
  | .enroll b d => setTrack b .unknown (setDuty b (.enabled (BitVec.ofNat 8 d)) s)
  | .unenroll b => setTrack b .unknown (setDuty b .disabled s)
  | .tick t => tickScan (tickElapsed (operandNow s.cfg t) s) (beginCycle (operandNow s.cfg t) s)

/-- The DATA bit a completed command returns. -/
def returned (i : Instr) (s : State) : Bool :=
  match i with
  | .setcap _ => false
  | .setmode _ _ => false
  | .wsoft _ _ => false
  | .whard _ _ => false
  | .flush => false
  | .rhard b => hardReadBit b s
  | .rsoft b => bitRead s.rd b
  | .getw b => bitRead s.wr b
  | .rall => false
  | .bwbegin => false
  | .bwend => false
  | .brbegin => false
  | .brend => false
  | .writebit _ _ => false
  | .readbit b => if s.rbActive then bitRead s.rd b else hardReadBit b s
  | .setfreq _ => false
  | .enroll _ _ => false
  | .unenroll _ => false
  | .tick _ => false

theorem bitInRange_iff (s : State) (b : Nat) : bitInRange s b = true ↔ b < bitCount s := by simp [bitInRange]

theorem pwmInRange_iff (b : Nat) : pwmInRange b = true ↔ b < 64 := decide_eq_true_iff

/-- There is no input bit exactly when every in-range bit is an output. -/
theorem inputBits_eq_nil (s : State) :
    inputBits s = [] ↔ ((List.range (8 * s.byteCount.toNat)).all fun j => !bitRead s.dir j) = true := by
  simp [inputBits, bitCount, List.filter_eq_nil_iff]

/-- A command either reports its first error, or completes with its effect. -/
theorem exec_cases (i : Instr) (s : State) :
    (∃ e, reportedError i s = some e ∧ e ≠ .ok ∧ exec i s = raise e s) ∨
    (reportedError i s = none ∧ exec i s = complete s (effect i s) (returned i s)) := by
  cases i with
  | setcap n =>
    by_cases h : 128 < n ∨ n % 8 ≠ 0
    · exact Or.inl ⟨.capacity, by simp only [reportedError, if_pos h], by decide,
        by simp only [exec, execSetcap]; exact if_pos h⟩
    · exact Or.inr ⟨by simp only [reportedError, if_neg h], by simp only [exec, execSetcap]; exact if_neg h⟩
  | setmode b v =>
    by_cases h : b < bitCount s
    · have h' : ¬ 8 * s.byteCount.toNat ≤ b := Nat.not_le.mpr h
      exact Or.inr ⟨by simp [reportedError, h'], by simp [exec, execSetmode, bitInRange_iff, h, effect, returned]⟩
    · have h' : 8 * s.byteCount.toNat ≤ b := Nat.not_lt.mp h
      exact Or.inl ⟨.address, by simp [reportedError, h'], by decide, by simp [exec, execSetmode, bitInRange_iff, h]⟩
  | wsoft b v =>
    by_cases h : b < bitCount s
    · have h' : ¬ 8 * s.byteCount.toNat ≤ b := Nat.not_le.mpr h
      exact Or.inr ⟨by simp [reportedError, h'], by simp [exec, execWsoft, bitInRange_iff, h, effect, returned]⟩
    · have h' : 8 * s.byteCount.toNat ≤ b := Nat.not_lt.mp h
      exact Or.inl ⟨.address, by simp [reportedError, h'], by decide, by simp [exec, execWsoft, bitInRange_iff, h]⟩
  | whard b v =>
    by_cases h : b < bitCount s
    · have h' : ¬ 8 * s.byteCount.toNat ≤ b := Nat.not_le.mpr h
      exact Or.inr ⟨by simp [reportedError, h'], by simp [exec, execWhard, bitInRange_iff, h, effect, returned]⟩
    · have h' : 8 * s.byteCount.toNat ≤ b := Nat.not_lt.mp h
      exact Or.inl ⟨.address, by simp [reportedError, h'], by decide, by simp [exec, execWhard, bitInRange_iff, h]⟩
  | flush => exact Or.inr ⟨rfl, rfl⟩
  | rhard b =>
    by_cases h : b < bitCount s
    · have h' : ¬ 8 * s.byteCount.toNat ≤ b := Nat.not_le.mpr h
      cases hs : s.cfg.sensePresent with
      | true =>
        exact Or.inr ⟨by simp [reportedError, h', hs], by simp [exec, execRhard, bitInRange_iff, h, hs, effect, returned]⟩
      | false =>
        exact Or.inl ⟨.noSense, by simp [reportedError, h', hs], by decide,
          by simp [exec, execRhard, bitInRange_iff, h, hs]⟩
    · have h' : 8 * s.byteCount.toNat ≤ b := Nat.not_lt.mp h
      exact Or.inl ⟨.address, by simp [reportedError, h'], by decide, by simp [exec, execRhard, bitInRange_iff, h]⟩
  | rsoft b =>
    by_cases h : b < bitCount s
    · have h' : ¬ 8 * s.byteCount.toNat ≤ b := Nat.not_le.mpr h
      exact Or.inr ⟨by simp [reportedError, h'], by simp [exec, execRsoft, bitInRange_iff, h, effect, returned]⟩
    · have h' : 8 * s.byteCount.toNat ≤ b := Nat.not_lt.mp h
      exact Or.inl ⟨.address, by simp [reportedError, h'], by decide, by simp [exec, execRsoft, bitInRange_iff, h]⟩
  | getw b =>
    by_cases h : b < bitCount s
    · have h' : ¬ 8 * s.byteCount.toNat ≤ b := Nat.not_le.mpr h
      exact Or.inr ⟨by simp [reportedError, h'], by simp [exec, execGetw, bitInRange_iff, h, effect, returned]⟩
    · have h' : 8 * s.byteCount.toNat ≤ b := Nat.not_lt.mp h
      exact Or.inl ⟨.address, by simp [reportedError, h'], by decide, by simp [exec, execGetw, bitInRange_iff, h]⟩
  | rall =>
    cases hs : s.cfg.sensePresent with
    | true => exact Or.inr ⟨by simp [reportedError, hs], by simp [exec, execRall, hs, effect, returned]⟩
    | false =>
      by_cases hn : inputBits s = []
      · have hn' := (inputBits_eq_nil s).mp hn
        exact Or.inr ⟨by simp only [reportedError, hs, hn']; rfl, by simp [exec, execRall, hs, hn, effect, returned]⟩
      · have hn' := eq_false_of_ne_true fun h => hn ((inputBits_eq_nil s).mpr h)
        exact Or.inl ⟨.noSense, by simp only [reportedError, hs, hn']; rfl, by decide, by simp [exec, execRall, hs, hn]⟩
  | bwbegin =>
    cases h : s.wbActive with
    | true => exact Or.inl ⟨.batch, by simp [reportedError, h], by decide, by simp [exec, execBwbegin, h]⟩
    | false => exact Or.inr ⟨by simp [reportedError, h], by simp [exec, execBwbegin, h, effect, returned]⟩
  | bwend =>
    cases h : s.wbActive with
    | true => exact Or.inr ⟨by simp [reportedError, h], by simp [exec, execBwend, h, effect, returned]⟩
    | false => exact Or.inl ⟨.batch, by simp [reportedError, h], by decide, by simp [exec, execBwend, h]⟩
  | brbegin =>
    cases h : s.rbActive with
    | true => exact Or.inl ⟨.batch, by simp [reportedError, h], by decide, by simp [exec, execBrbegin, h]⟩
    | false =>
      cases hs : s.cfg.sensePresent with
      | true =>
        exact Or.inr ⟨by simp [reportedError, h, hs], by simp [exec, execBrbegin, h, hs, effect, returned]⟩
      | false =>
        by_cases hn : inputBits s = []
        · have hn' := (inputBits_eq_nil s).mp hn
          exact Or.inr ⟨by simp only [reportedError, h, hs, hn']; rfl,
            by simp [exec, execBrbegin, h, hs, hn, effect, returned]⟩
        · have hn' := eq_false_of_ne_true fun h => hn ((inputBits_eq_nil s).mpr h)
          exact Or.inl ⟨.noSense, by simp only [reportedError, h, hs, hn']; rfl, by decide,
            by simp [exec, execBrbegin, h, hs, hn]⟩
  | brend =>
    cases h : s.rbActive with
    | true => exact Or.inr ⟨by simp [reportedError, h], by simp [exec, execBrend, h, effect, returned]⟩
    | false => exact Or.inl ⟨.batch, by simp [reportedError, h], by decide, by simp [exec, execBrend, h]⟩
  | writebit b v =>
    by_cases h : b < bitCount s
    · have h' : ¬ 8 * s.byteCount.toNat ≤ b := Nat.not_le.mpr h
      refine Or.inr ⟨by simp [reportedError, h'], ?_⟩
      cases hw : s.wbActive <;> simp [exec, execWritebit, bitInRange_iff, h, hw, effect, returned]
    · have h' : 8 * s.byteCount.toNat ≤ b := Nat.not_lt.mp h
      exact Or.inl ⟨.address, by simp [reportedError, h'], by decide, by simp [exec, execWritebit, bitInRange_iff, h]⟩
  | readbit b =>
    by_cases h : b < bitCount s
    · have h' : ¬ 8 * s.byteCount.toNat ≤ b := Nat.not_le.mpr h
      cases hr : s.rbActive with
      | true =>
        exact Or.inr ⟨by simp [reportedError, h', hr], by simp [exec, execReadbit, bitInRange_iff, h, hr, effect, returned]⟩
      | false =>
        cases hs : s.cfg.sensePresent with
        | true =>
          exact Or.inr ⟨by simp [reportedError, h', hr, hs],
            by simp [exec, execReadbit, bitInRange_iff, h, hr, hs, effect, returned]⟩
        | false =>
          exact Or.inl ⟨.noSense, by simp [reportedError, h', hr, hs], by decide,
            by simp [exec, execReadbit, bitInRange_iff, h, hr, hs]⟩
    · have h' : 8 * s.byteCount.toNat ≤ b := Nat.not_lt.mp h
      exact Or.inl ⟨.address, by simp [reportedError, h'], by decide, by simp [exec, execReadbit, bitInRange_iff, h]⟩
  | setfreq hz =>
    by_cases h0 : hz = 0
    · exact Or.inl ⟨.frequency, by simp [reportedError, h0], by decide, by simp [exec, execSetfreq, h0]⟩
    · by_cases h1 : 1000000 / hz < s.cfg.minPeriodUs
      · exact Or.inl ⟨.frequency, by simp [reportedError, h1], by decide,
          by simp [exec, execSetfreq, h0, periodOfHertz, Config.periodNumerator, h1]⟩
      · exact Or.inr ⟨by simp [reportedError, h0, h1],
          by simp [exec, execSetfreq, h0, periodOfHertz, Config.periodNumerator, h1, effect, returned]⟩
  | enroll b d =>
    by_cases h0 : b < 64
    · by_cases h : b < bitCount s
      · have h' : ¬ 8 * s.byteCount.toNat ≤ b := Nat.not_le.mpr h
        exact Or.inr ⟨by simp [reportedError, h', Nat.not_le.mpr h0],
          by simp [exec, execEnroll, bitInRange_iff, pwmInRange_iff, h0, h, effect, returned]⟩
      · have h' : 8 * s.byteCount.toNat ≤ b := Nat.not_lt.mp h
        exact Or.inl ⟨.address, by simp [reportedError, h'], by decide, by simp [exec, execEnroll, bitInRange_iff, h]⟩
    · exact Or.inl ⟨.address, by simp [reportedError, Nat.not_lt.mp h0], by decide,
        by simp [exec, execEnroll, pwmInRange_iff, h0]⟩
  | unenroll b =>
    by_cases h0 : b < 64
    · exact Or.inr ⟨by simp [reportedError, Nat.not_le.mpr h0],
        by simp [exec, execUnenroll, pwmInRange_iff, h0, effect, returned]⟩
    · exact Or.inl ⟨.address, by simp [reportedError, Nat.not_lt.mp h0], by decide,
        by simp [exec, execUnenroll, pwmInRange_iff, h0]⟩
  | tick t => exact Or.inr ⟨rfl, rfl⟩

/-- Inversion: every next state of a command is a rejection, or its effect with an OK response, or the block stuck in it. -/
theorem exec_next {i : Instr} {s t : State} (h : exec i s = .next t) :
    (∃ e, reportedError i s = some e ∧ e ≠ .ok ∧ t = respond e false s) ∨
    (reportedError i s = none ∧
      ∃ m, (s.linkHangsAfter = none → m = (effect i s).linkHangsAfter) ∧
        t = respond .ok (returned i s) { effect i s with linkHangsAfter := m }) ∨
    (reportedError i s = none ∧ t = stall s ∧
      ∃ n, s.linkHangsAfter = some n ∧ n < (effect i s).events.length - s.events.length) := by
  rcases exec_cases i s with ⟨e, he, hne, hx⟩ | ⟨hn, hx⟩
  · rw [hx, raise] at h
    injection h with h
    exact Or.inl ⟨e, he, hne, h.symm⟩
  · rw [hx] at h
    rcases complete_next h with hm | hs
    · exact Or.inr (Or.inl ⟨hn, hm⟩)
    · exact Or.inr (Or.inr ⟨hn, hs⟩)

/-- Inversion where the block is not stuck afterwards. -/
theorem exec_next_running {i : Instr} {s t : State} (hr : t.Running) (h : exec i s = .next t) :
    (∃ e, reportedError i s = some e ∧ e ≠ .ok ∧ t = respond e false s) ∨
    (reportedError i s = none ∧
      ∃ m, (s.linkHangsAfter = none → m = (effect i s).linkHangsAfter) ∧
        t = respond .ok (returned i s) { effect i s with linkHangsAfter := m }) := by
  rcases exec_next h with h | h | ⟨-, rfl, -⟩
  · exact Or.inl h
  · exact Or.inr h
  · simp [State.Running] at hr

/-- Every command has a next state: the stuck one where a link primitive never returns. -/
theorem exec_isNext (i : Instr) (s : State) : ∃ t, exec i s = .next t := by
  rcases exec_cases i s with ⟨e, -, -, hx⟩ | ⟨-, hx⟩
  · exact ⟨_, hx⟩
  · rw [hx]; exact complete_isNext _ _ _

/-- On a reliable link a command without an error completes with its effect. -/
theorem exec_of_no_error {i : Instr} {s : State} (hl : s.LinkReliable) (h : reportedError i s = none) :
    exec i s = .next (respond .ok (returned i s) (effect i s)) := by
  rcases exec_cases i s with ⟨e, he, -⟩ | ⟨-, hx⟩
  · rw [h] at he; cases he
  · rw [hx, complete_of_reliable _ _ hl]

/-- A command with an error is rejected, whatever the link does. -/
theorem exec_of_error {i : Instr} {s : State} {e : Status} (h : reportedError i s = some e) :
    exec i s = .next (respond e false s) := by
  rcases exec_cases i s with ⟨e', he, -, hx⟩ | ⟨hn, -⟩
  · rw [h] at he; injection he with he; subst he; rw [hx, raise]
  · rw [h] at hn; cases hn

/-! The fields no effect changes. -/

theorem effect_fixed (i : Instr) (s : State) :
    (effect i s).cfg = s.cfg ∧ (effect i s).commands = s.commands ∧ (effect i s).responses = s.responses ∧
      (effect i s).linkHangsAfter = s.linkHangsAfter ∧ (effect i s).linkStuck = s.linkStuck := by
  cases i with
  | tick t => simp only [effect]; rw [tickScan_eq, beginCycle_eq]; exact ⟨rfl, rfl, rfl, rfl, rfl⟩
  | writebit b v =>
    simp only [effect]
    cases s.wbActive
    · simp only [Bool.false_eq_true, if_false]; rw [flushCache_eq, pwmDisable_eq]; exact ⟨rfl, rfl, rfl, rfl, rfl⟩
    · simp only [if_true]; rw [pwmDisable_eq]; exact ⟨rfl, rfl, rfl, rfl, rfl⟩
  | readbit b =>
    simp only [effect]
    cases s.rbActive
    · simp only [Bool.false_eq_true, if_false]; rw [hardRead_eq]; exact ⟨rfl, rfl, rfl, rfl, rfl⟩
    · exact ⟨rfl, rfl, rfl, rfl, rfl⟩
  | wsoft b v => simp only [effect]; rw [pwmDisable_eq]; exact ⟨rfl, rfl, rfl, rfl, rfl⟩
  | whard b v => simp only [effect]; rw [flushCache_eq, pwmDisable_eq]; exact ⟨rfl, rfl, rfl, rfl, rfl⟩
  | flush => simp only [effect]; rw [flushCache_eq]; exact ⟨rfl, rfl, rfl, rfl, rfl⟩
  | bwend => simp only [effect]; rw [flushCache_eq]; exact ⟨rfl, rfl, rfl, rfl, rfl⟩
  | rhard b => simp only [effect]; rw [hardRead_eq]; exact ⟨rfl, rfl, rfl, rfl, rfl⟩
  | rall => simp only [effect]; rw [hardReadAll_eq]; exact ⟨rfl, rfl, rfl, rfl, rfl⟩
  | brbegin => simp only [effect]; rw [hardReadAll_eq]; exact ⟨rfl, rfl, rfl, rfl, rfl⟩
  | setcap n => exact ⟨rfl, rfl, rfl, rfl, rfl⟩
  | setmode b v => exact ⟨rfl, rfl, rfl, rfl, rfl⟩
  | rsoft b => exact ⟨rfl, rfl, rfl, rfl, rfl⟩
  | getw b => exact ⟨rfl, rfl, rfl, rfl, rfl⟩
  | bwbegin => exact ⟨rfl, rfl, rfl, rfl, rfl⟩
  | brend => exact ⟨rfl, rfl, rfl, rfl, rfl⟩
  | setfreq hz => exact ⟨rfl, rfl, rfl, rfl, rfl⟩
  | enroll b d => exact ⟨rfl, rfl, rfl, rfl, rfl⟩
  | unenroll b => exact ⟨rfl, rfl, rfl, rfl, rfl⟩

/-- A block once stuck stays stuck. -/
theorem running_of_exec {i : Instr} {s t : State} (hr : t.Running) (h : exec i s = .next t) : s.Running := by
  rcases exec_next_running hr h with ⟨e, -, -, rfl⟩ | ⟨-, m, -, rfl⟩
  · exact hr
  · exact (effect_fixed i s).2.2.2.2.symm.trans hr

/-! The step. -/

/-- A block that is not stuck runs the command presented next. -/
theorem step_of_command {s : State} {k : Command} {rest : List Command} (hr : s.Running) (hc : s.commands = k :: rest) :
    step s =
      match decode k with
      | .ok i => exec i { s with commands := rest }
      | .error e => rejectIllegal e { s with commands := rest } := by
  cases hd : decode k <;> simp only [step, nextCommand_of_running hr hc, hd]

/-- With no command presented, or stuck, the block holds its state. -/
theorem step_hold {s : State} (h : s.commands = [] ∨ s.linkStuck = true) : step s = .next s := by
  rcases h with h | h
  · simp [step, nextCommand_of_nil h, idle]
  · simp [step, nextCommand_of_stuck h, idle]

/-- Inversion: every next state of a step is the same state, or one command's, or an illegal word's rejection. -/
theorem step_next {s t : State} (h : step s = .next t) :
    t = s ∨
    ∃ k rest, s.Running ∧ s.commands = k :: rest ∧
      ((∃ i, decode k = .ok i ∧ exec i { s with commands := rest } = .next t) ∨
        ∃ e, decode k = .error e ∧ t = respond .illegal false { s with commands := rest }) := by
  by_cases hs : s.commands = [] ∨ s.linkStuck = true
  · rw [step_hold hs] at h
    injection h with h
    exact Or.inl h.symm
  · rw [not_or] at hs
    obtain ⟨k, rest, hc⟩ := List.exists_cons_of_ne_nil hs.1
    have hr : s.Running := by simpa using hs.2
    rw [step_of_command hr hc] at h
    refine Or.inr ⟨k, rest, hr, hc, ?_⟩
    cases hd : decode k with
    | ok i => rw [hd] at h; exact Or.inl ⟨i, rfl, h⟩
    | error e =>
      rw [hd] at h
      simp only [rejectIllegal, raise] at h
      injection h with h
      exact Or.inr ⟨e, rfl, h.symm⟩

/-! Commands in sequence. -/

/-- One lemma for every rule of the form "the commands of a sequence keep this": a relation between states that each of
them keeps, that holds of a state and itself, and that chains. -/
theorem execAll_induction {is : List Instr} {s t : State} (h : execAll is s = .next t) (R : State → State → Prop)
    (refl : ∀ a, R a a) (trans : ∀ {a b c}, R a b → R b c → R a c)
    (one : ∀ i ∈ is, ∀ a b, exec i a = .next b → R a b) : R s t := by
  induction is generalizing s with
  | nil => simp only [execAll] at h; cases h; exact refl _
  | cons i is ih =>
    obtain ⟨u, hu⟩ := exec_isNext i s
    simp only [execAll, hu] at h
    exact trans (one i List.mem_cons_self s u hu) (ih h fun j hj => one j (List.mem_cons_of_mem i hj))

theorem running_of_execAll {is : List Instr} {s t : State} (hr : t.Running) (h : execAll is s = .next t) : s.Running :=
  execAll_induction h (fun s t => t.Running → s.Running) (fun _ h => h) (fun h1 h2 h => h1 (h2 h))
    (fun _ _ _ _ h hr => running_of_exec hr h) hr

end Sys2Proof.Machine
end

