-- ==== Sys2Proof/Laws/Commands.lean ====
section
/-! SUPPORT. What completed commands do to the link, to the caches and to the PWM tables, in the form claims use, and that
the environment's `linkHangsAfter` decides nothing but whether a command completes. -/

namespace Sys2Proof.Machine

/-! Completion. -/

/-- A command without an error that emits nothing completes whatever the link does. -/
theorem exec_of_no_event {i : Instr} {s : State} (h : reportedError i s = none) (he : (effect i s).events = s.events) :
    exec i s = .next (respond .ok (returned i s) (effect i s)) := by
  rcases exec_cases i s with ⟨e, he', -⟩ | ⟨-, hx⟩
  · rw [h] at he'; cases he'
  · rw [hx, complete_of_no_event _ he (effect_fixed i s).2.2.2.1]

/-- A bit index in range of a legal byteCount is below the capacity. -/
theorem lt_capacity {s : State} {b : Nat} (h : s.byteCount.toNat ≤ 16) (hb : b < bitCount s) : b < 128 := by
  unfold bitCount at hb; omega

theorem inRange_decide {s : State} {b : Nat} (hb : b < bitCount s) : decide (8 * s.byteCount.toNat ≤ b) = false := by
  unfold bitCount at hb; simpa using hb

theorem outOfRange_decide {s : State} {b : Nat} (hb : bitCount s ≤ b) : decide (8 * s.byteCount.toNat ≤ b) = true := by
  unfold bitCount at hb; simpa using hb

/-! The soft write and the flush of the cache, field by field. -/

@[simp] theorem pwmDisable_events (b : Nat) (s : State) : (pwmDisable b s).events = s.events := by rw [pwmDisable_eq]
@[simp] theorem pwmDisable_wr (b : Nat) (s : State) : (pwmDisable b s).wr = s.wr := by rw [pwmDisable_eq]
@[simp] theorem pwmDisable_byteCount (b : Nat) (s : State) : (pwmDisable b s).byteCount = s.byteCount := by
  rw [pwmDisable_eq]
@[simp] theorem flushCache_events (s : State) : (flushCache s).events = s.events ++ flushEvents (wrBytes s) := by
  rw [flushCache_eq]

/-- The chain output for an in-range bit, once the first bytes of an array are latched (20_memory.md R73). -/
theorem listBit_bytesOf {n j : Nat} (arr : ByteArray16) (h : j < 8 * n) : listBit (bytesOf n arr) j = bitRead arr j := by
  have : byteOf j < n := byteOf_lt h
  simp [listBit, bytesOf, bitRead, List.getD, this]

theorem bitOfLevel_eq (l : Level) : bitOfLevel l = decide (l = .high) := by cases l <;> rfl

/-! Hard reads in sequence. -/

/-- The hard reads of distinct bits: the levels sampled, the events, what is stored, and the environment's choices used. -/
theorem hardReadAll_closed_form (is : List Nat) (s : State) (hlt : ∀ i ∈ is, i < 128) (hnd : is.Nodup) :
    ∃ ls : List Level,
      ls.length = is.length ∧
      (hardReadAll is s).events =
        s.events ++ (is.zip ls).flatMap (fun p => flushEvents (isolationPattern s p.1) ++ [.sample p.2]) ∧
      (∀ p ∈ is.zip ls, bitRead (hardReadAll is s).rd p.1 = decide (p.2 = .high)) ∧
      (∀ k l, k < ls.length → s.senseLine[k]? = some l → ls[k]? = some l) ∧
      (hardReadAll is s).senseLine = s.senseLine.drop ls.length := by
  induction is generalizing s with
  | nil => exact ⟨[], rfl, by simp [hardReadAll], by simp, by simp, by simp [hardReadAll]⟩
  | cons i is ih =>
    have hlt' : ∀ j ∈ is, j < 128 := fun j hj => hlt j (List.mem_cons_of_mem i hj)
    obtain ⟨ls, h1, h2, h3, h4, h5⟩ := ih (hardRead i s) hlt' (List.nodup_cons.mp hnd).2
    refine ⟨hardReadLevel i s :: ls, by simp [h1], ?_, ?_, ?_, ?_⟩
    · rw [hardReadAll_cons, h2]; simp [hardReadEvents]
    · rw [hardReadAll_cons]
      intro p hp
      rw [List.zip_cons_cons, List.mem_cons] at hp
      rcases hp with rfl | hp
      · rw [bitRead_hardReadAll_other _ hlt' (List.nodup_cons.mp hnd).1, hardRead_rd,
          bitRead_bitWrite _ _ _ (hlt i List.mem_cons_self), if_pos rfl, hardReadBit_eq, bitOfLevel_eq]
      · exact h3 p hp
    · intro k l hk hs
      cases k with
      | zero =>
        cases hc : s.senseLine with
        | nil => simp [hc] at hs
        | cons x xs => simp [hc] at hs; subst hs; simp [hardReadLevel_of_cons i hc]
      | succ k => simp at hk ⊢; exact h4 k l hk (by simp; exact hs)
    · rw [hardReadAll_cons, h5]; simp

/-- Some hard reads emit something, leave LATCH High and the chain as long as the buffer. -/
theorem hardReadAll_link {is : List Nat} (s : State) (h : is ≠ []) :
    (hardReadAll is s).events ≠ s.events ∧ (hardReadAll is s).lvl.latch = .high ∧
      (hardReadAll is s).chainOut.length = s.byteCount.toNat := by
  refine ⟨fun hh => ?_, ?_, by rw [hardReadAll_chainOut s h]; simp⟩
  · have h1 := hardReadAll_events_length is s
    rw [hh] at h1
    have := Nat.mul_pos (List.length_pos_iff.mpr h) (show 0 < s.byteCount.toNat + 4 by omega)
    omega
  · obtain ⟨js, j, rfl⟩ : ∃ js j, is = js ++ [j] := ⟨_, _, (List.dropLast_append_getLast h).symm⟩
    simp [hardReadAll, List.foldl_append, hardRead_latch]

/-! Events only grow. -/

theorem effect_events (i : Instr) (s : State) : ∃ es, (effect i s).events = s.events ++ es := by
  have hall : ∃ es, (hardReadAll (inputBits s) s).events = s.events ++ es := by
    generalize inputBits s = is
    induction is generalizing s with
    | nil => exact ⟨[], by simp [hardReadAll]⟩
    | cons i is ih =>
      obtain ⟨es, h⟩ := ih (hardRead i s)
      exact ⟨_, by rw [hardReadAll_cons, h, hardRead_events, List.append_assoc]⟩
  cases i <;> simp only [effect]
  case wsoft => exact ⟨[], by simp⟩
  case whard => exact ⟨_, by rw [flushCache_events, pwmDisable_events]; rfl⟩
  case flush => exact ⟨_, flushCache_events s⟩
  case bwend => exact ⟨_, flushCache_events s⟩
  case rhard => exact ⟨_, hardRead_events _ s⟩
  case rall => exact hall
  case brbegin => exact hall
  case writebit =>
    split
    · exact ⟨[], by simp⟩
    · exact ⟨_, by rw [flushCache_events, pwmDisable_events]; rfl⟩
  case readbit =>
    split
    · exact ⟨[], by simp⟩
    · exact ⟨_, hardRead_events _ s⟩
  case tick tm =>
    have h := (tickScan_closed_form (tickElapsed (operandNow s.cfg tm) s) (beginCycle (operandNow s.cfg tm) s)).2.1
    rw [show (beginCycle (operandNow s.cfg tm) s).events = s.events by rw [beginCycle_eq]] at h
    exact ⟨_, h⟩
  all_goals exact ⟨[], by simp⟩

/-! TICK. -/

/-- Inversion: the next state of a TICK that is not stuck is its scan with an OK response. -/
theorem tick_next {s t : State} {tm : Nat} (hr : t.Running) (h : exec (.tick tm) s = .next t) :
    ∃ m T, (s.linkHangsAfter = none → m = none) ∧
      T = tickScan (tickElapsed (operandNow s.cfg tm) s) (beginCycle (operandNow s.cfg tm) s) ∧
      t = respond .ok false { T with linkHangsAfter := m } := by
  rcases exec_next_running hr h with ⟨e, he, -, -⟩ | ⟨-, m, hm, rfl⟩
  · simp [reportedError] at he
  · exact ⟨m, effect (.tick tm) s, fun h => by rw [hm h, (effect_fixed _ s).2.2.2.1, h], by simp only [effect], rfl⟩

theorem tick_wr {s t : State} {tm : Nat} (hr : t.Running) (h : exec (.tick tm) s = .next t) :
    t.wr = cacheAfter (drivenPins (tickElapsed (operandNow s.cfg tm) s) s) s.wr := by
  obtain ⟨m, T, -, hT, rfl⟩ := tick_next hr h
  simp only [respond_wr]
  rw [hT, (tickScan_closed_form _ _).1, drivenPins_beginCycle, beginCycle_eq]

theorem tick_track {s t : State} {tm : Nat} (hr : t.Running) (h : exec (.tick tm) s = .next t) (j : Nat) :
    trackAt t j =
      if j < 64 then (scanTarget (tickElapsed (operandNow s.cfg tm) s) s j).getD (trackAt s j) else trackAt s j := by
  obtain ⟨m, T, -, hT, rfl⟩ := tick_next hr h
  have h3 := (tickScan_closed_form (tickElapsed (operandNow s.cfg tm) s) (beginCycle (operandNow s.cfg tm) s)).2.2.1 j
  rw [scanTarget_beginCycle, ← hT,
    show trackAt (beginCycle (operandNow s.cfg tm) s) j = trackAt s j by rw [beginCycle_eq]; rfl] at h3
  exact h3

theorem tick_tickStart {s t : State} {tm : Nat} (hc : s.cfg.wf = true) (hr : t.Running)
    (h : exec (.tick tm) s = .next t) :
    t.tickStart.toNat =
      if s.period.toNat ≤ elapsed s.cfg (operandNow s.cfg tm) s.tickStart.toNat then operandNow s.cfg tm
      else s.tickStart.toNat := by
  obtain ⟨m, T, -, hT, rfl⟩ := tick_next hr h
  simp only [respond_tickStart]
  rw [hT, tickScan_eq]
  dsimp only
  exact tickStart_beginCycle (operandNow_lt_word tm hc)

theorem tickElapsed_eq {s : State} {now : Nat} (h : now < 2 ^ 32) :
    tickElapsed now s =
      elapsed s.cfg now (if s.period.toNat ≤ elapsed s.cfg now s.tickStart.toNat then now else s.tickStart.toNat) := by
  unfold tickElapsed; rw [tickStart_beginCycle h]

/-- No pin is driven twice in one TICK. -/
theorem drivenPins_nodup (e : Nat) (s : State) : ((drivenPins e s).map Prod.fst).Nodup := by
  have key : ∀ is : List Nat, is.Nodup → ((is.filterMap (drivenPin e s)).map Prod.fst).Nodup ∧
      ∀ j ∈ (is.filterMap (drivenPin e s)).map Prod.fst, j ∈ is := by
    intro is
    induction is with
    | nil => simp
    | cons i is ih =>
      intro hnd
      obtain ⟨h1, h2⟩ := ih (List.nodup_cons.mp hnd).2
      cases hd : drivenPin e s i with
      | none => rw [List.filterMap_cons_none hd]; exact ⟨h1, fun j hj => List.mem_cons_of_mem _ (h2 j hj)⟩
      | some p =>
        rw [List.filterMap_cons_some hd, List.map_cons, (tickPin_of_some hd).1]
        refine ⟨List.nodup_cons.mpr ⟨fun h => (List.nodup_cons.mp hnd).1 (h2 _ h), h1⟩, fun j hj => ?_⟩
        rcases List.mem_cons.mp hj with rfl | hj
        · exact List.mem_cons_self
        · exact List.mem_cons_of_mem _ (h2 j hj)
  exact (key _ List.nodup_range).1

/-- The write cache after drives of distinct pins: a driven bit holds its target, every other its old value. -/
theorem bitRead_cacheAfter (ps : List (Nat × Track)) (arr : ByteArray16) (j : Nat) (hlt : ∀ p ∈ ps, p.1 < 128)
    (hnd : (ps.map Prod.fst).Nodup) :
    (∀ p ∈ ps, p.1 = j → bitRead (cacheAfter ps arr) j = decide (p.2 = .on)) ∧
      (j ∉ ps.map Prod.fst → bitRead (cacheAfter ps arr) j = bitRead arr j) := by
  induction ps generalizing arr with
  | nil => simp
  | cons q qs ih =>
    rw [cacheAfter_cons]
    obtain ⟨h1, h2⟩ := ih (bitWrite arr q.1 (decide (q.2 = .on))) (fun p hp => hlt p (List.mem_cons_of_mem q hp))
      (List.nodup_cons.mp hnd).2
    have hq := hlt q List.mem_cons_self
    refine ⟨fun p hp hj => ?_, fun hj => ?_⟩
    · rcases List.mem_cons.mp hp with rfl | hp
      · rw [h2 (by subst hj; exact (List.nodup_cons.mp hnd).1), bitRead_bitWrite _ _ _ hq, if_pos hj.symm]
      · exact h1 p hp hj
    · simp only [List.map_cons, List.mem_cons, not_or] at hj
      rw [h2 hj.2, bitRead_bitWrite _ _ _ hq, if_neg hj.1]

theorem drivenPin_of_ge {e : Nat} {s : State} {j : Nat} (h : 64 ≤ j) : drivenPin e s j = none := by
  unfold drivenPin scanTarget dutyAt
  rw [Vector.getElem?_eq_none h]; rfl

/-- Bit j of the write cache after the drives of a TICK. -/
theorem bitRead_drivenCache (e : Nat) (s : State) (arr : ByteArray16) (j : Nat) :
    bitRead (cacheAfter (drivenPins e s) arr) j =
      match drivenPin e s j with
      | some p => decide (p.2 = .on)
      | none => bitRead arr j := by
  obtain ⟨h1, h2⟩ := bitRead_cacheAfter (drivenPins e s) arr j
    (fun p hp => by have := (mem_drivenPins.mp hp).1; omega) (drivenPins_nodup e s)
  cases hd : drivenPin e s j with
  | some p =>
    have hj : j < 64 := by
      by_contra hh; rw [drivenPin_of_ge (by omega)] at hd; cases hd
    have hp := (tickPin_of_some hd).1
    exact h1 p (mem_drivenPins.mpr ⟨hp ▸ hj, by rw [hp]; exact hd⟩) hp
  | none =>
    apply h2
    intro hm
    obtain ⟨p, hp, rfl⟩ := List.mem_map.mp hm
    rw [(mem_drivenPins.mp hp).2] at hd; cases hd

/-! The environment's `linkHangsAfter` changes no effect, only whether a command completes (20_memory.md R77). -/

section Hang

variable (h : Option Nat)

theorem emit_hang (e : LinkEvent) (s : State) :
    emit e { s with linkHangsAfter := h } = { emit e s with linkHangsAfter := h } := by
  rcases e with ⟨l, v⟩ | b | v
  · cases l <;> rfl
  · rfl
  · rfl

theorem flushBytes_hang (bytes : List Byte) (s : State) :
    flushBytes bytes { s with linkHangsAfter := h } = { flushBytes bytes s with linkHangsAfter := h } := by
  have key : ∀ (es : List LinkEvent) (s : State),
      emitAll es { s with linkHangsAfter := h } = { emitAll es s with linkHangsAfter := h } := by
    intro es
    induction es with
    | nil => intro s; rfl
    | cons e es ih => intro s; rw [emitAll_cons, emitAll_cons, emit_hang, ih]
  unfold flushBytes; rw [key]

theorem flushCache_hang (s : State) :
    flushCache { s with linkHangsAfter := h } = { flushCache s with linkHangsAfter := h } :=
  flushBytes_hang h _ s

theorem pwmDisable_hang (b : Nat) (s : State) :
    pwmDisable b { s with linkHangsAfter := h } = { pwmDisable b s with linkHangsAfter := h } := by
  unfold pwmDisable; split <;> rfl

theorem hardReadBit_hang (b : Nat) (s : State) : hardReadBit b { s with linkHangsAfter := h } = hardReadBit b s := by
  unfold hardReadBit; rw [flushBytes_hang]; rfl

theorem hardRead_hang (b : Nat) (s : State) :
    hardRead b { s with linkHangsAfter := h } = { hardRead b s with linkHangsAfter := h } := by
  unfold hardRead; rw [flushBytes_hang, hardReadBit_hang]; rfl

theorem hardReadAll_hang (is : List Nat) (s : State) :
    hardReadAll is { s with linkHangsAfter := h } = { hardReadAll is s with linkHangsAfter := h } := by
  induction is generalizing s with
  | nil => rfl
  | cons i is ih => rw [hardReadAll_cons, hardReadAll_cons, ← ih, hardRead_hang]

theorem tickPin_hang (e i : Nat) (s : State) :
    tickPin e { s with linkHangsAfter := h } i = { tickPin e s i with linkHangsAfter := h } := by
  unfold tickPin
  simp only [show dutyAt { s with linkHangsAfter := h } i = dutyAt s i from rfl,
    show bitCount { s with linkHangsAfter := h } = bitCount s from rfl,
    show trackAt { s with linkHangsAfter := h } i = trackAt s i from rfl]
  cases dutyAt s i with
  | disabled => rfl
  | enabled d =>
    simp only
    split
    · exact congrArg (setTrack i _) (flushCache_hang h (writeWr i _ s))
    · rfl

theorem tickScan_hang (e : Nat) (s : State) :
    tickScan e { s with linkHangsAfter := h } = { tickScan e s with linkHangsAfter := h } := by
  unfold tickScan
  generalize List.range Config.pwmEntries = is
  induction is generalizing s with
  | nil => rfl
  | cons i is ih => rw [List.foldl_cons, List.foldl_cons, ← ih, tickPin_hang]

theorem beginCycle_hang (now : Nat) (s : State) :
    beginCycle now { s with linkHangsAfter := h } = { beginCycle now s with linkHangsAfter := h } := by
  unfold beginCycle boundaryReached; simp only; split <;> rfl

theorem effect_hang (i : Instr) (s : State) :
    effect i { s with linkHangsAfter := h } = { effect i s with linkHangsAfter := h } := by
  cases i <;> simp only [effect]
  case rall => exact hardReadAll_hang h _ s
  case brbegin => exact congrArg (setRbActive true) (hardReadAll_hang h _ s)
  case wsoft b v => exact pwmDisable_hang h b (writeWr b v s)
  case whard b v => exact (congrArg flushCache (pwmDisable_hang h b (writeWr b v s))).trans (flushCache_hang h _)
  case flush => exact flushCache_hang h s
  case bwend => exact congrArg (setWbActive false) (flushCache_hang h s)
  case rhard b => exact hardRead_hang h b s
  case writebit b v =>
    split
    · exact pwmDisable_hang h b (writeWr b v s)
    · exact (congrArg flushCache (pwmDisable_hang h b (writeWr b v s))).trans (flushCache_hang h _)
  case readbit b =>
    split
    · rfl
    · exact hardRead_hang h b s
  case tick tm =>
    rw [beginCycle_hang,
      show tickElapsed (operandNow s.cfg tm) { s with linkHangsAfter := h } = tickElapsed (operandNow s.cfg tm) s by
        unfold tickElapsed; rw [beginCycle_hang]]
    exact tickScan_hang h _ _
  all_goals rfl

theorem returned_hang (i : Instr) (s : State) : returned i { s with linkHangsAfter := h } = returned i s := by
  cases i <;> first | rfl | simp [returned, hardReadBit_hang]

theorem reportedError_hang (i : Instr) (s : State) :
    reportedError i { s with linkHangsAfter := h } = reportedError i s := by cases i <;> rfl

end Hang

end Sys2Proof.Machine
end

