-- ==== Sys2Proof/Laws/Decode.lean ====
section
/-! SUPPORT. The fields of a command word as numbers, and the decoder's formats on an encoded word (30_encoding.md R91,
R92). -/

namespace Sys2Proof

/-- A field as a quotient and a remainder (00_scope.md R14). -/
theorem bitsOf_eq (w : Word) (hi lo : Nat) : bitsOf w hi lo = w.toNat / 2 ^ lo % 2 ^ (hi - lo + 1) := by
  simp [bitsOf, BitVec.extractLsb, BitVec.extractLsb', Nat.shiftRight_eq_div_pow]

theorem opField_eq (c : Word) : opField c = c.toNat / 2 ^ 24 := by
  have := c.isLt
  rw [opField, bitsOf_eq]
  omega

theorem bitField_eq (c : Word) : bitField c = c.toNat / 2 ^ 16 % 256 := by rw [bitField, bitsOf_eq]; rfl

theorem valField_eq (c : Word) : valField c = c.toNat % 65536 := by rw [valField, bitsOf_eq]; simp

theorem valHigh_eq (c : Word) : bitsOf c 15 1 = valField c / 2 := by rw [bitsOf_eq, valField_eq]; omega

theorem valLow_eq (c : Word) : bitsOf c 0 0 = valField c % 2 := by rw [bitsOf_eq, valField_eq]; omega

theorem dutyHigh_eq (c : Word) : bitsOf c 15 8 = valField c / 256 := by rw [bitsOf_eq, valField_eq]; omega

theorem dutyLow_eq (c : Word) : bitsOf c 7 0 = valField c % 256 := by rw [bitsOf_eq, valField_eq]; omega

/-- A command word is its three fields (30_encoding.md R91). -/
theorem word_eq_fields (c : Word) : c.toNat = opField c * 2 ^ 24 + bitField c * 2 ^ 16 + valField c := by
  rw [opField_eq, bitField_eq, valField_eq]; omega

theorem commandWord_toNat {op bit val : Nat} (ho : op < 256) (hb : bit < 256) (hv : val < 65536) :
    (commandWord op bit val).toNat = op * 2 ^ 24 + bit * 2 ^ 16 + val := by
  simp [commandWord]; omega

section Fields

variable {op bit val : Nat} (ho : op < 256) (hb : bit < 256) (hv : val < 65536)
include ho hb hv

theorem opField_commandWord : opField (commandWord op bit val) = op := by
  rw [opField_eq, commandWord_toNat ho hb hv]; omega

theorem bitField_commandWord : bitField (commandWord op bit val) = bit := by
  rw [bitField_eq, commandWord_toNat ho hb hv]; omega

theorem valField_commandWord : valField (commandWord op bit val) = val := by
  rw [valField_eq, commandWord_toNat ho hb hv]; omega

end Fields

/-- Two command words with the same fields are the same word. -/
theorem commandWord_fields (c : Word) : commandWord (opField c) (bitField c) (valField c) = c := by
  apply BitVec.eq_of_toNat_eq
  have := c.isLt
  rw [commandWord_toNat (by rw [opField_eq]; omega) (by rw [bitField_eq]; omega) (by rw [valField_eq]; omega)]
  exact (word_eq_fields c).symm

end Sys2Proof
end

