-- ==== Sys2Proof/Laws/Form.lean ====
section
/-! SUPPORT. `CommandForm` from the decoder, one lemma per format (30_encoding.md R92 to R99). -/

namespace Sys2Proof.Machine

theorem commandForm_of_decode {op : Nat} {f : Format} {mk : Command → Instr}
    (h1 : ∀ k : Command, opField k.c = op → reservedZero f k.c = true → decode k = .ok (mk k))
    (h2 : ∀ k : Command, opField k.c = op → reservedZero f k.c = false → ∃ e, decode k = .error e) :
    CommandForm op f mk := by
  intro s k rest hr hc ho
  refine ⟨fun h => ?_, fun h => ?_⟩
  · simp [step, nextCommand_of_running hr hc, h1 k ho h]
  · obtain ⟨e, he⟩ := h2 k ho h
    simp [step, nextCommand_of_running hr hc, he, rejectIllegal, raise, respond]

theorem commandForm_fn {op : Nat} {i : Instr} (hd : ∀ k : Command, opField k.c = op → decode k = decodeFN k i) :
    CommandForm op .fn (fun _ => i) := by
  refine commandForm_of_decode (fun k ho h => ?_) fun k ho h => ?_ <;> rw [hd k ho] <;> simp [reservedZero] at h
  · simp [decodeFN, h]
  · unfold decodeFN
    by_cases hb : bitField k.c = 0
    · simp [hb, h hb]
    · simp [hb]

theorem commandForm_fa {op : Nat} {i : Nat → Instr} (hd : ∀ k : Command, opField k.c = op → decode k = decodeFA k i) :
    CommandForm op .fa (fun k => i k.a.toNat) := by
  refine commandForm_of_decode (fun k ho h => ?_) fun k ho h => ?_ <;> rw [hd k ho] <;> simp [reservedZero] at h
  · simp [decodeFA, h]
  · unfold decodeFA
    by_cases hb : bitField k.c = 0
    · simp [hb, h hb]
    · simp [hb]

theorem commandForm_fb {op : Nat} {i : Nat → Instr} (hd : ∀ k : Command, opField k.c = op → decode k = decodeFB k i) :
    CommandForm op .fb (fun k => i (bitField k.c)) := by
  refine commandForm_of_decode (fun k ho h => ?_) fun k ho h => ?_ <;> rw [hd k ho] <;> simp [reservedZero] at h <;>
    simp [decodeFB, h]

theorem commandForm_fbv {op : Nat} {i : Nat → Bool → Instr}
    (hd : ∀ k : Command, opField k.c = op → decode k = decodeFBV k i) :
    CommandForm op .fbv (fun k => i (bitField k.c) (decide (valField k.c = 1))) := by
  refine commandForm_of_decode (fun k ho h => ?_) fun k ho h => ?_ <;> rw [hd k ho] <;> simp [reservedZero] at h
  · have h1 : bitsOf k.c 15 1 = 0 := by rw [valHigh_eq]; omega
    have h2 : bitsOf k.c 0 0 = valField k.c := by rw [valLow_eq]; omega
    simp [decodeFBV, h1, h2]
  · have h1 : bitsOf k.c 15 1 ≠ 0 := by rw [valHigh_eq]; omega
    simp [decodeFBV, h1]

theorem commandForm_fbd {op : Nat} {i : Nat → Nat → Instr}
    (hd : ∀ k : Command, opField k.c = op → decode k = decodeFBD k i) :
    CommandForm op .fbd (fun k => i (bitField k.c) (valField k.c)) := by
  refine commandForm_of_decode (fun k ho h => ?_) fun k ho h => ?_ <;> rw [hd k ho] <;> simp [reservedZero] at h
  · have h1 : bitsOf k.c 15 8 = 0 := by rw [dutyHigh_eq]; omega
    have h2 : bitsOf k.c 7 0 = valField k.c := by rw [dutyLow_eq]; omega
    simp [decodeFBD, h1, h2]
  · have h1 : bitsOf k.c 15 8 ≠ 0 := by rw [dutyHigh_eq]; omega
    simp [decodeFBD, h1]

end Sys2Proof.Machine
end

