-- ==== Sys2Proof/Laws/PerInstr.lean ====
section
/-! SUPPORT. Statements for all instructions, one lemma per constructor. Family RoundTrip: decoding an encoded well-formed
command gives it back, with every operand (30_encoding.md R92, R102). -/

namespace Sys2Proof.Laws.RoundTrip

/-- Decoding the encoding of a well-formed command gives it back. -/
def Statement (i : Instr) : Prop := i.wf = true → decode (encode i) = .ok i

theorem valOfBit_lt (v : Bool) : valOfBit v < 65536 := by cases v <;> decide

theorem decode_fn (op : Nat) (i : Instr) (ho : op < 256) : decodeFN (wordCommand op 0 0) i = .ok i := by
  simp [decodeFN, wordCommand, bitField_commandWord ho, valField_commandWord ho]

theorem decode_fa (op n : Nat) (f : Nat → Instr) (ho : op < 256) (hn : n < 2 ^ 32) :
    decodeFA (argCommand op n) f = .ok (f n) := by
  simp [decodeFA, argCommand, bitField_commandWord ho, valField_commandWord ho]
  rw [Nat.mod_eq_of_lt (by omega)]

theorem decode_fb (op b : Nat) (f : Nat → Instr) (ho : op < 256) (hb : b < 256) :
    decodeFB (wordCommand op b 0) f = .ok (f b) := by
  simp [decodeFB, wordCommand, bitField_commandWord ho hb, valField_commandWord ho hb]

theorem decode_fbv (op b : Nat) (v : Bool) (f : Nat → Bool → Instr) (ho : op < 256) (hb : b < 256) :
    decodeFBV (wordCommand op b (valOfBit v)) f = .ok (f b v) := by
  have hv := valOfBit_lt v
  simp only [decodeFBV, wordCommand, valHigh_eq, valLow_eq, bitField_commandWord ho hb hv, valField_commandWord ho hb hv]
  cases v <;> simp [valOfBit]

theorem decode_fbd (op b d : Nat) (f : Nat → Nat → Instr) (ho : op < 256) (hb : b < 256) (hd : d < 256) :
    decodeFBD (wordCommand op b d) f = .ok (f b d) := by
  have hv : d < 65536 := by omega
  simp [decodeFBD, wordCommand, dutyHigh_eq, dutyLow_eq, bitField_commandWord ho hb hv, valField_commandWord ho hb hv,
    Nat.div_eq_of_lt hd, Nat.mod_eq_of_lt hd]

/-- The OP field of an encoded command of format FN, FB, FBV or FBD. -/
theorem op_word (op b v : Nat) (ho : op < 256) (hb : b < 256) (hv : v < 65536) :
    opField (wordCommand op b v).c = op := opField_commandWord ho hb hv

/-- The OP field of an encoded command of format FA. -/
theorem op_arg (op n : Nat) (ho : op < 256) : opField (argCommand op n).c = op :=
  opField_commandWord ho (by omega) (by omega)

theorem fitsBit_lt {b : Nat} (h : fitsBit b = true) : b < 256 := by
  simp [fitsBit] at h; omega

theorem fitsDuty_lt {d : Nat} (h : fitsDuty d = true) : d < 256 := by
  simp [fitsDuty] at h; omega

theorem fitsArg_lt {n : Nat} (h : fitsArg n = true) : n < 2 ^ 32 := of_decide_eq_true h

theorem setcap (n : Nat) : Statement (.setcap n) := by
  intro h
  simp only [encode, decode, op_arg 0x01 n (by omega)]
  exact decode_fa _ n _ (by omega) (fitsArg_lt h)

theorem setmode (b : Nat) (v : Bool) : Statement (.setmode b v) := by
  intro h
  simp only [encode, decode, op_word 0x02 b _ (by omega) (fitsBit_lt h) (valOfBit_lt v)]
  exact decode_fbv _ b v _ (by omega) (fitsBit_lt h)

theorem wsoft (b : Nat) (v : Bool) : Statement (.wsoft b v) := by
  intro h
  simp only [encode, decode, op_word 0x03 b _ (by omega) (fitsBit_lt h) (valOfBit_lt v)]
  exact decode_fbv _ b v _ (by omega) (fitsBit_lt h)

theorem whard (b : Nat) (v : Bool) : Statement (.whard b v) := by
  intro h
  simp only [encode, decode, op_word 0x04 b _ (by omega) (fitsBit_lt h) (valOfBit_lt v)]
  exact decode_fbv _ b v _ (by omega) (fitsBit_lt h)

theorem flush : Statement .flush := by
  intro _
  simp only [encode, decode, op_word 0x05 0 0 (by omega) (by omega) (by omega)]
  exact decode_fn _ _ (by omega)

theorem rhard (b : Nat) : Statement (.rhard b) := by
  intro h
  simp only [encode, decode, op_word 0x06 b 0 (by omega) (fitsBit_lt h) (by omega)]
  exact decode_fb _ b _ (by omega) (fitsBit_lt h)

theorem rsoft (b : Nat) : Statement (.rsoft b) := by
  intro h
  simp only [encode, decode, op_word 0x07 b 0 (by omega) (fitsBit_lt h) (by omega)]
  exact decode_fb _ b _ (by omega) (fitsBit_lt h)

theorem getw (b : Nat) : Statement (.getw b) := by
  intro h
  simp only [encode, decode, op_word 0x08 b 0 (by omega) (fitsBit_lt h) (by omega)]
  exact decode_fb _ b _ (by omega) (fitsBit_lt h)

theorem rall : Statement .rall := by
  intro _
  simp only [encode, decode, op_word 0x09 0 0 (by omega) (by omega) (by omega)]
  exact decode_fn _ _ (by omega)

theorem bwbegin : Statement .bwbegin := by
  intro _
  simp only [encode, decode, op_word 0x10 0 0 (by omega) (by omega) (by omega)]
  exact decode_fn _ _ (by omega)

theorem bwend : Statement .bwend := by
  intro _
  simp only [encode, decode, op_word 0x11 0 0 (by omega) (by omega) (by omega)]
  exact decode_fn _ _ (by omega)

theorem brbegin : Statement .brbegin := by
  intro _
  simp only [encode, decode, op_word 0x12 0 0 (by omega) (by omega) (by omega)]
  exact decode_fn _ _ (by omega)

theorem brend : Statement .brend := by
  intro _
  simp only [encode, decode, op_word 0x13 0 0 (by omega) (by omega) (by omega)]
  exact decode_fn _ _ (by omega)

theorem writebit (b : Nat) (v : Bool) : Statement (.writebit b v) := by
  intro h
  simp only [encode, decode, op_word 0x14 b _ (by omega) (fitsBit_lt h) (valOfBit_lt v)]
  exact decode_fbv _ b v _ (by omega) (fitsBit_lt h)

theorem readbit (b : Nat) : Statement (.readbit b) := by
  intro h
  simp only [encode, decode, op_word 0x15 b 0 (by omega) (fitsBit_lt h) (by omega)]
  exact decode_fb _ b _ (by omega) (fitsBit_lt h)

theorem setfreq (hz : Nat) : Statement (.setfreq hz) := by
  intro h
  simp only [encode, decode, op_arg 0x20 hz (by omega)]
  exact decode_fa _ hz _ (by omega) (fitsArg_lt h)

theorem enroll (b d : Nat) : Statement (.enroll b d) := by
  intro h
  simp only [Instr.wf, Bool.and_eq_true] at h
  have hd := fitsDuty_lt h.2
  simp only [encode, decode, op_word 0x21 b d (by omega) (fitsBit_lt h.1) (by omega)]
  exact decode_fbd _ b d _ (by omega) (fitsBit_lt h.1) hd

theorem unenroll (b : Nat) : Statement (.unenroll b) := by
  intro h
  simp only [encode, decode, op_word 0x22 b 0 (by omega) (fitsBit_lt h) (by omega)]
  exact decode_fb _ b _ (by omega) (fitsBit_lt h)

theorem tick (t : Nat) : Statement (.tick t) := by
  intro h
  simp only [encode, decode, op_arg 0x23 t (by omega)]
  exact decode_fa _ t _ (by omega) (fitsArg_lt h)

end Sys2Proof.Laws.RoundTrip
end

