-- ==== Sys2Proof/Tests/Slice0.lean ====
section
/-! SUPPORT. The model's own tests. Words are written out from the encodings of 30_encoding.md R92 and R97; expected
results are those of the vectors V-… of 95_test_vectors.md, or a hand calculation from the rule named. Each witness theorem
shows a state and operands that meet the hypotheses of the statement it is named after. -/

open Sys2Proof Sys2Proof.Machine

namespace Sys2Proof.Tests

/-! ### Helpers -/

/-- An array whose first bytes are these. -/
def bytes (l : List Byte) : ByteArray16 := Vector.ofFn fun i => l.getD i.1 0

/-- A state after reset, then configured for n bytes. -/
def chain (n : BitVec 5) : State := { State.resetWith Config.default with byteCount := n }

/-- The same without a read line. -/
def mute (n : BitVec 5) : State := { State.resetWith { Config.default with sensePresent := false } with byteCount := n }

/-- `s` with pin i enrolled with duty d, tracked as g. -/
def enrolled (i : Nat) (d : Byte) (g : Track) (s : State) : State := setTrack i g (setDuty i (.enabled d) s)

/-- The events of one flush of these bytes (the vectors' F[…]), written out from 20_memory.md R72. -/
def F (l : List Byte) : List LinkEvent :=
  [.setLevel .clock .low, .setLevel .latch .low] ++ l.map .shiftByte ++ [.setLevel .latch .high]

/-- The outcome is a next state of which p holds. -/
def shows (o : Host.Outcome State Fault Refusal) (p : State → Bool) : Bool :=
  match o with
  | .next t => p t
  | .fault _ => false
  | .refused _ => false

/-- The last response is this. -/
def answered (status : Status) (data : Bool) (t : State) : Bool := t.responses.getLast? == some { status := status, data := data }

theorem exists_of_shows {o : Host.Outcome State Fault Refusal} {p : State → Bool} (h : shows o p = true) :
    ∃ t, o = .next t ∧ p t = true := by
  cases o with
  | next t => exact ⟨t, rfl, h⟩
  | fault f => cases h
  | refused r => cases h

/-! ### WellFormed refuses what does not fit (30_encoding.md R102) -/

theorem test_wf_refuses_wide_bit : (Instr.setmode 256 true).wf = false ∧ (Instr.wsoft 256 true).wf = false ∧
    (Instr.whard 256 true).wf = false ∧ (Instr.rhard 256).wf = false ∧ (Instr.rsoft 256).wf = false ∧
    (Instr.getw 256).wf = false ∧ (Instr.writebit 256 true).wf = false ∧ (Instr.readbit 256).wf = false ∧
    (Instr.enroll 256 0).wf = false ∧ (Instr.unenroll 256).wf = false := by decide
theorem test_wf_refuses_wide_duty : (Instr.enroll 0 256).wf = false := by decide
theorem test_wf_refuses_wide_argument : (Instr.setcap 4294967296).wf = false ∧ (Instr.setfreq 4294967296).wf = false ∧
    (Instr.tick 4294967296).wf = false := by decide
theorem test_wf_accepts_widest : (Instr.enroll 255 255).wf = true ∧ (Instr.tick 4294967295).wf = true ∧
    (Instr.readbit 255).wf = true := by decide

/-! ### A written-out word of every command decodes to it -/

theorem test_decode_setcap :
    decode { c := 0b00000001_00000000_00000000_00000000#32, a := 0x82#32 } = .ok (.setcap 130) := by decide
theorem test_decode_setmode :
    decode { c := 0b00000010_00000101_00000000_00000001#32, a := 7#32 } = .ok (.setmode 5 true) := by decide
theorem test_decode_wsoft :
    decode { c := 0b00000011_00001100_00000000_00000001#32, a := 0#32 } = .ok (.wsoft 12 true) := by decide
theorem test_decode_whard :
    decode { c := 0b00000100_10000001_00000000_00000000#32, a := 0#32 } = .ok (.whard 129 false) := by decide
theorem test_decode_flush :
    decode { c := 0b00000101_00000000_00000000_00000000#32, a := 0xFFFFFFFF#32 } = .ok .flush := by decide
theorem test_decode_rhard :
    decode { c := 0b00000110_11001000_00000000_00000000#32, a := 0#32 } = .ok (.rhard 200) := by decide
theorem test_decode_rsoft :
    decode { c := 0b00000111_00000010_00000000_00000000#32, a := 0#32 } = .ok (.rsoft 2) := by decide
theorem test_decode_getw :
    decode { c := 0b00001000_11111111_00000000_00000000#32, a := 0#32 } = .ok (.getw 255) := by decide
theorem test_decode_rall :
    decode { c := 0b00001001_00000000_00000000_00000000#32, a := 0xFFFFFFFF#32 } = .ok .rall := by decide
theorem test_decode_bwbegin :
    decode { c := 0b00010000_00000000_00000000_00000000#32, a := 0#32 } = .ok .bwbegin := by decide
theorem test_decode_bwend :
    decode { c := 0b00010001_00000000_00000000_00000000#32, a := 0#32 } = .ok .bwend := by decide
theorem test_decode_brbegin :
    decode { c := 0b00010010_00000000_00000000_00000000#32, a := 0#32 } = .ok .brbegin := by decide
theorem test_decode_brend :
    decode { c := 0b00010011_00000000_00000000_00000000#32, a := 0#32 } = .ok .brend := by decide
theorem test_decode_writebit :
    decode { c := 0b00010100_00000011_00000000_00000001#32, a := 0#32 } = .ok (.writebit 3 true) := by decide
theorem test_decode_readbit :
    decode { c := 0b00010101_00001001_00000000_00000000#32, a := 0#32 } = .ok (.readbit 9) := by decide
theorem test_decode_setfreq :
    decode { c := 0b00100000_00000000_00000000_00000000#32, a := 0xF4241#32 } = .ok (.setfreq 1000001) := by decide
theorem test_decode_enroll :
    decode { c := 0b00100001_00000010_00000000_10000000#32, a := 0#32 } = .ok (.enroll 2 128) := by decide
theorem test_decode_unenroll :
    decode { c := 0b00100010_00111111_00000000_00000000#32, a := 0#32 } = .ok (.unenroll 63) := by decide
theorem test_decode_tick :
    decode { c := 0b00100011_00000000_00000000_00000000#32, a := 0x4E20#32 } = .ok (.tick 20000) := by decide

/-- The illegal words V-E1 to V-E11. -/
theorem test_decode_refuses_illegal :
    decode { c := 0x00000000#32, a := 0 } = .error .unassignedOp ∧ decode { c := 0x0A000000#32, a := 0 } = .error .unassignedOp ∧
    decode { c := 0x16000000#32, a := 0 } = .error .unassignedOp ∧ decode { c := 0xFF000000#32, a := 0 } = .error .unassignedOp ∧
    decode { c := 0x05000001#32, a := 0 } = .error .reservedVal ∧ decode { c := 0x05010000#32, a := 0 } = .error .reservedBit ∧
    decode { c := 0x02000002#32, a := 0 } = .error .reservedVal ∧ decode { c := 0x14030003#32, a := 0 } = .error .reservedVal ∧
    decode { c := 0x21000100#32, a := 0 } = .error .reservedVal ∧ decode { c := 0x23010000#32, a := 5 } = .error .reservedBit ∧
    decode { c := 0x06050001#32, a := 0 } = .error .reservedVal := by decide

/-- The table's numbering: C is bits 31 to 0 and A is bits 63 to 32. -/
theorem test_table_word : decodeTableWord 32 0x21020080 = some (.enroll 2 128) ∧
    decodeTableWord 64 (0x23000000 + 5 * 2 ^ 32) = some (.tick 5) ∧ decodeTableWord 32 0x05000001 = none := by decide

theorem test_fetch_word_runs_next :
    step (State.reset.withFetchWord 32 0x05000000) = exec .flush State.reset := by rfl

/-! ### The assembler (30_encoding.md R102, R103) -/

theorem test_assemble_writebit : assembleLine "WRITEBIT 12, 0x1 ; bit 12".toList = some (.writebit 12 true) := by
  decide +kernel
theorem test_assemble_direction_word : assembleLine "SETMODE 9, in".toList = some (.setmode 9 true) := by decide +kernel
theorem test_assemble_rejects_wide_operands : assembleLine "SETMODE 9, 2".toList = none ∧
    assembleLine "RHARD 256".toList = none ∧ assembleLine "TICK 4294967296".toList = none := by decide +kernel

/-! ### One step of each command -/

/-- V-B6. -/
theorem test_setcap_zeroes_arrays_and_track :
    shows (exec (.setcap 8) { enrolled 3 9 .on (chain 2) with
      wr := bytes [0xFF, 0xFF], dir := bytes [1], rd := bytes [1], wbActive := true, period := 500 }) (fun t =>
      answered .ok false t && t.byteCount == 1 && t.wr == bytes [] && t.dir == bytes [] && t.rd == bytes [] &&
      trackAt t 3 == .unknown && dutyAt t 3 == .enabled 9 && t.wbActive && t.period == 500 && t.events == []) = true := by
  decide +kernel
/-- V-L1-8, V-B5. -/
theorem test_setcap_rejects_130 :
    shows (exec (.setcap 130) { chain 2 with wr := bytes [8, 0x10] }) (fun t =>
      answered .capacity false t && t.byteCount == 2 && t.wr == bytes [8, 0x10]) = true := by decide +kernel

/-- V-B8. -/
theorem test_setmode_sets_input :
    shows (exec (.setmode 5 true) (chain 1)) (fun t => answered .ok false t && t.dir == bytes [0x20] && t.events == []) = true := by
  decide +kernel
/-- V-B10. -/
theorem test_setmode_at_bit_count :
    shows (exec (.setmode 8 true) (chain 1)) (fun t => answered .address false t && t.dir == bytes []) = true := by decide +kernel

/-- V-B13. -/
theorem test_wsoft_disables_pwm :
    shows (exec (.wsoft 4 false) (enrolled 4 7 .on { chain 1 with wr := bytes [0x10] })) (fun t =>
      answered .ok false t && t.wr == bytes [0] && dutyAt t 4 == .disabled && trackAt t 4 == .on && t.events == []) = true := by
  decide +kernel
/-- V-B14. -/
theorem test_wsoft_above_the_pwm_table :
    shows (exec (.wsoft 100 true) (enrolled 36 7 .on (chain 16))) (fun t =>
      answered .ok false t && byteAt t.wr 12 == 0x10 && dutyAt t 36 == .enabled 7) = true := by decide +kernel

/-- V-B18. -/
theorem test_whard_in_a_batch_flushes_the_pending_write :
    shows (exec (.whard 12 true) { chain 2 with wr := bytes [8, 0], wbActive := true }) (fun t =>
      answered .ok false t && t.events == F [0x08, 0x10] && t.chainOut == [0x08, 0x10] && t.wbActive) = true := by decide +kernel
/-- V-B17. -/
theorem test_whard_unchanged_value_still_flushes :
    shows (exec (.whard 7 true) { chain 1 with wr := bytes [0x81] }) (fun t => t.events == F [0x81]) = true := by
  decide +kernel

/-- V-B19. -/
theorem test_flush_of_no_byte :
    shows (exec .flush (chain 0)) (fun t => answered .ok false t && t.chainOut == [] &&
      t.events == [.setLevel .clock .low, .setLevel .latch .low, .setLevel .latch .high]) = true := by decide +kernel
/-- V-B20. -/
theorem test_flush_of_the_whole_chain :
    shows (exec .flush { chain 16 with wr := bytes (List.replicate 16 0xA5) }) (fun t =>
      t.events.length == 19 && t.chainOut == List.replicate 16 0xA5) = true := by decide +kernel

/-- V-B21. -/
theorem test_rhard_isolates_the_target :
    shows (exec (.rhard 2) { chain 1 with dir := bytes [0x25], wr := bytes [0xC3], senseLine := [.high] }) (fun t =>
      answered .ok true t && t.events == F [0xC6] ++ [.sample .high] && t.rd == bytes [0x04] && t.chainOut == [0xC6] &&
      t.wr == bytes [0xC3]) = true := by decide +kernel
/-- V-B27: the range is checked before the read line. -/
theorem test_rhard_address_before_no_sense :
    shows (exec (.rhard 8) (mute 1)) (answered .address false) = true ∧ shows (exec (.rhard 7) (mute 1)) (answered .noSense false) = true := by
  decide +kernel

/-- V-B28, V-B29: no read line is needed. -/
theorem test_rsoft_reads_the_read_cache :
    shows (exec (.rsoft 2) { mute 1 with rd := bytes [0x04] }) (fun t => answered .ok true t && t.events == []) = true := by
  decide +kernel

/-- V-B30: GETW reads the write cache, not the chain. -/
theorem test_getw_reads_the_write_cache :
    shows (exec (.getw 2) { chain 1 with wr := bytes [0xC3], rd := bytes [0x04], chainOut := [0xC6] })
      (answered .ok false) = true := by decide +kernel

/-- V-B31. -/
theorem test_rall_reads_inputs_ascending :
    shows (exec .rall { chain 1 with dir := bytes [0x05], wr := bytes [0x80], senseLine := [.high, .low] }) (fun t =>
      answered .ok false t && t.events == F [0x81] ++ [.sample .high] ++ F [0x84] ++ [.sample .low] && t.rd == bytes [0x01] &&
      t.chainOut == [0x84]) = true := by decide +kernel
/-- V-B32, V-B33. -/
theorem test_rall_without_a_read_line :
    shows (exec .rall (mute 1)) (fun t => answered .ok false t && t.events == []) = true ∧
    shows (exec .rall { mute 1 with dir := bytes [1] }) (fun t => answered .noSense false t && t.events == []) = true := by
  decide +kernel

/-- V-T1, V-T2. -/
theorem test_bwbegin :
    shows (exec .bwbegin (chain 1)) (fun t => answered .ok false t && t.wbActive && t.events == []) = true ∧
    shows (exec .bwbegin { chain 1 with wbActive := true }) (answered .batch false) = true := by decide +kernel

/-- V-T4, V-T3. -/
theorem test_bwend :
    shows (exec .bwend { chain 1 with wbActive := true, wr := bytes [0x42] }) (fun t =>
      answered .ok false t && !t.wbActive && t.events == F [0x42]) = true ∧
    shows (exec .bwend (chain 1)) (fun t => answered .batch false t && t.events == []) = true := by decide +kernel

/-- V-T5, V-T7. -/
theorem test_brbegin :
    shows (exec .brbegin { chain 1 with dir := bytes [1], senseLine := [.high] }) (fun t =>
      answered .ok false t && t.events == F [0x01] ++ [.sample .high] && t.rd == bytes [1] && t.rbActive) = true ∧
    shows (exec .brbegin { mute 1 with dir := bytes [1] }) (fun t => answered .noSense false t && !t.rbActive) = true := by
  decide +kernel

/-- V-T9, V-T10. -/
theorem test_brend :
    shows (exec .brend { chain 1 with rbActive := true, rd := bytes [1] }) (fun t =>
      answered .ok false t && !t.rbActive && t.rd == bytes [1]) = true ∧
    shows (exec .brend (chain 1)) (answered .batch false) = true := by decide +kernel

/-- V-T13. -/
theorem test_writebit_in_a_batch :
    shows (exec (.writebit 2 true) (enrolled 2 128 .on { chain 1 with wbActive := true })) (fun t =>
      answered .ok false t && t.wr == bytes [4] && dutyAt t 2 == .disabled && t.events == []) = true := by decide +kernel
/-- V-T12. -/
theorem test_writebit_outside_a_batch :
    shows (exec (.writebit 3 false) { chain 1 with wr := bytes [8] }) (fun t =>
      answered .ok false t && t.wr == bytes [0] && t.events == F [0x00]) = true := by decide +kernel

/-- V-T16. -/
theorem test_readbit_in_a_batch :
    shows (exec (.readbit 0) { mute 1 with rbActive := true, rd := bytes [1] }) (fun t => answered .ok true t && t.events == []) = true := by
  decide +kernel
/-- V-T17. -/
theorem test_readbit_outside_a_batch :
    shows (exec (.readbit 0) { chain 1 with dir := bytes [1], rd := bytes [1], senseLine := [.low] }) (fun t =>
      answered .ok false t && t.events == F [0x01] ++ [.sample .low] && t.rd == bytes [0]) = true := by decide +kernel

/-- V-P2, V-P3, V-P6. -/
theorem test_setfreq_sets_the_period :
    shows (exec (.setfreq 1) (chain 1)) (fun t => answered .ok false t && t.period.toNat == 1000000) = true ∧
    shows (exec (.setfreq 3) (chain 1)) (fun t => t.period.toNat == 333333) = true ∧
    shows (exec (.setfreq 999999) (chain 1)) (fun t => t.period.toNat == 1) = true := by decide +kernel
/-- V-P1, V-P8, V-P10. -/
theorem test_setfreq_rejects :
    shows (exec (.setfreq 0) (chain 1)) (fun t => answered .frequency false t && t.period.toNat == 10000) = true ∧
    shows (exec (.setfreq 1000001) (chain 1)) (answered .frequency false) = true ∧
    shows (exec (.setfreq 1000000) (State.resetWith { Config.default with minPeriodUs := 10 })) (answered .frequency false) = true := by
  decide +kernel

/-- V-P15. -/
theorem test_enroll_again_resets_the_track :
    shows (exec (.enroll 2 0) (enrolled 2 128 .on (chain 1))) (fun t =>
      answered .ok false t && dutyAt t 2 == .enabled 0 && trackAt t 2 == .unknown && t.events == []) = true := by decide +kernel
/-- V-P13, V-P14. -/
theorem test_enroll_out_of_range :
    shows (exec (.enroll 64 10) (chain 16)) (answered .address false) = true ∧
    shows (exec (.enroll 8 10) (chain 1)) (answered .address false) = true := by decide +kernel

/-- V-P16, V-P17. -/
theorem test_unenroll :
    shows (exec (.unenroll 63) (enrolled 63 5 .on (chain 0))) (fun t =>
      answered .ok false t && dutyAt t 63 == .disabled && trackAt t 63 == .unknown) = true ∧
    shows (exec (.unenroll 64) (chain 16)) (answered .address false) = true := by decide +kernel

/-- V-P25: a wrapped difference below the period, and a drive to Off. -/
theorem test_tick_wraps :
    shows (exec (.tick 200) (enrolled 0 128 .on { State.resetWith { Config.default with timeBits := 16 } with
      byteCount := 1, period := 1000, tickStart := 65000, wr := bytes [1] })) (fun t =>
      answered .ok false t && t.tickStart.toNat == 65000 && t.events == F [0x00] && trackAt t 0 == .off) = true := by
  decide +kernel
/-- V-P28, with pins enrolled as there: three drives in ascending order. -/
theorem test_tick_drives_ascending :
    shows (exec (.tick 100) (enrolled 0 255 .unknown (enrolled 1 0 .unknown (enrolled 3 64 .unknown (chain 1))))) (fun t =>
      t.events == F [0x01] ++ F [0x01] ++ F [0x09] && trackAt t 1 == .off && t.wr == bytes [9]) = true := by decide +kernel

/-- V-L1-4. -/
theorem test_on_window : onWindow 10000 128 = 5019 ∧ onWindow 333333 128 = 167320 := by decide +kernel

/-! ### A witness for the hypotheses of each statement -/

/-- An outcome and then another from its next state, and what holds of the two states they give. -/
theorem exists_two {o : Host.Outcome State Fault Refusal} {g : State → Host.Outcome State Fault Refusal}
    {p : State → State → Bool} (h : shows o (fun t => shows (g t) (p t)) = true) :
    ∃ t u, o = .next t ∧ g t = .next u ∧ p t u = true := by
  obtain ⟨t, ht, h⟩ := exists_of_shows h
  obtain ⟨u, hu, h⟩ := exists_of_shows h
  exact ⟨t, u, ht, hu, h⟩

/-- A command word with opcode `op` that a format takes, and one that it rejects: the hypotheses of `CommandForm`, with
the host presenting either to a block that is not stuck. -/
def formShown (op : Nat) (f : Format) (good bad : Word) : Bool :=
  opField good == op && reservedZero f good && opField bad == op && !reservedZero f bad &&
  ({ chain 1 with commands := [{ c := good, a := 0 }] } : State).commands == [{ c := good, a := 0 }] &&
  ({ chain 1 with commands := [{ c := bad, a := 0 }] } : State).commands == [{ c := bad, a := 0 }] && !(chain 1).linkStuck

/-- A host that presents one command to `s`. -/
def asked (i : Instr) (s : State) : State := { s with commands := [encode i] }

theorem witness_DecodeAndEncodeAgree : (Instr.enroll 255 255).wf = true ∧ (Instr.tick 4294967295).wf = true ∧
    decode { c := 0x01000000#32, a := 0xFFFFFFFF#32 } = .ok (.setcap 4294967295) ∧
    decode { c := 0x21FF00FF#32, a := 0xFFFFFFFF#32 } = .ok (.enroll 255 255) ∧
    (Instr.setcap 4294967295).format = .fa ∧ (Instr.enroll 255 255).format ≠ .fa := by decide

theorem witness_DecoderSelectsTheMatchingRow : decode { c := 0x14FF0001#32, a := 0 } = .ok (.writebit 255 true) ∧
    (⟨0x14, "WRITEBIT", .fbv⟩ : OpcodeRow) ∈ opcodeMap ∧
    (⟨0x14, "WRITEBIT", .fbv⟩ : OpcodeRow).matches 0x14FF0001#32 = true := by decide

theorem witness_IllegalWordsAreRejected : opField 0x00000000#32 = 0 ∧ opField 0x0A000000#32 = 0x0A ∧
    opField 0x0F000000#32 = 0x0F ∧ opField 0x16000000#32 = 0x16 ∧ opField 0x1F000000#32 = 0x1F ∧
    opField 0x24000000#32 = 0x24 ∧ opField 0xFF000000#32 = 0xFF ∧
    (opField 0x23010000#32 = 0x23 ∧ bitField 0x23010000#32 ≠ 0) ∧ (opField 0x05008000#32 = 0x05 ∧ valField 0x05008000#32 ≠ 0) ∧
    (opField 0x22000001#32 = 0x22 ∧ valField 0x22000001#32 ≠ 0) ∧ (opField 0x14000002#32 = 0x14 ∧ 2 ≤ valField 0x14000002#32) ∧
    (opField 0x21000100#32 = 0x21 ∧ 256 ≤ valField 0x21000100#32) ∧
    ({ chain 1 with commands := [{ c := 0, a := 0 }] } : State).commands = [{ c := 0, a := 0 }] ∧
    ({ chain 1 with commands := [{ c := 0, a := 0 }] } : State).Running ∧
    decode { c := 0, a := 0 } = .error .unassignedOp := by decide

theorem witness_AssemblerEmitsDecodableCommands :
    assembleLine "ENROLL 255, 0xFF".toList = some (.enroll 255 255) ∧
    assembleLine "TICK 4294967295".toList = some (.tick 4294967295) ∧
    assembleParts "WRITEBIT" [255, 1] = some (.writebit 255 true) ∧
    (Instr.setmode 255 true ∈ (Pseudo.setmodeIn 255).expand) ∧ (Instr.enroll 255 255 ∈ (Pseudo.writepwm 255 255).expand) ∧
    (Instr.setcap 4294967295 ∈ (Pseudo.setbitcount 4294967295).expand) ∧
    (Instr.writebit 255 true ∈ (Pseudo.batchwrite [(255, true)]).expand) ∧
    (Instr.readbit 255 ∈ (Pseudo.batchread [0, 255]).expand) := by decide +kernel

/-- The largest operands that fit, and the first that do not. -/
theorem witness_TheAssemblerEncodesTheMnemonicTable : 255 ≤ 255 ∧ 1 ≤ 1 ∧ 4294967295 < 2 ^ 32 ∧
    (255 < 256 ∨ 1 < 0) ∧ (255 < 0 ∨ 1 < 2) ∧ (255 < 0 ∨ 255 < 256) ∧ 2 ^ 32 - 1 < 4294967296 ∧
    "WRITEBIT" ∈ ["SETMODE", "WSOFT", "WHARD", "WRITEBIT"] ∧ "WRITEPWM" ∈ ["ENROLL", "WRITEPWM"] ∧
    "UNENROLL" ∈ ["RHARD", "RSOFT", "GETW", "READBIT", "UNENROLL"] ∧
    "TICK" ∈ ["SETCAP", "SETBITCOUNT", "SETFREQ", "TICK"] := by decide

theorem witness_TheAssemblerReadsOneCommandPerLine :
    "WRITEBIT".toList ≠ [] ∧ PlainText "WRITEBIT".toList ∧ PlainText "255".toList ∧ PlainText "0x1".toList ∧
    parseNumber "255".toList = some 255 ∧ parseNumber "0x1".toList = some 1 := by
  refine ⟨by simp, ?_, ?_, ?_, by decide +kernel, by decide +kernel⟩ <;> simp [PlainText, isBlank]

/-- A command presented, none presented, and a stuck block. -/
theorem witness_StepRunsTheDecodedCommand : (asked (.tick 20000) (chain 1)).commands = [encode (.tick 20000)] ∧
    (asked (.tick 20000) (chain 1)).Running ∧ decode (encode (.tick 20000)) = .ok (.tick 20000) ∧
    (Instr.tick 20000).wf = true ∧ (chain 1).commands = [] ∧ (stall (asked .flush (chain 1))).linkStuck = true := by decide

/-- A command that completes, and one in which the block is stuck. -/
theorem witness_EveryCommandGivesOneResponse :
    (asked (.whard 7 true) (chain 1)).Running ∧ (asked (.whard 7 true) (chain 1)).commands = [encode (.whard 7 true)] ∧
    (∃ t, step (asked (.whard 7 true) (chain 1)) = .next t ∧ (!t.linkStuck && answered .ok false t) = true) ∧
    (∃ t, step (asked (.whard 7 true) { chain 1 with linkHangsAfter := some 3 }) = .next t ∧
      (t.linkStuck && t.responses == [] && t.events == []) = true) :=
  ⟨by decide, by decide, exists_of_shows (by decide +kernel), exists_of_shows (by decide +kernel)⟩

theorem witness_StepNeverStops : (asked .flush (chain 16)).LinkReliable ∧ (asked .flush (chain 16)).Running ∧
    ∃ t, step (asked .flush (chain 16)) = .next t ∧ answered .ok false t = true :=
  ⟨by decide, by decide, exists_of_shows (by decide +kernel)⟩

/-- At the edge: a flush of no byte has three events; three primitives complete, or two; and a stuck block. -/
theorem witness_AHungPrimitiveLeavesTheBlockStuck :
    (∃ u, exec .flush { { chain 0 with linkHangsAfter := some 3 } with linkHangsAfter := none } = .next u ∧
      decide (u.events.length - (chain 0).events.length ≤ 3) = true) ∧
    (∃ u, exec .flush { { chain 0 with linkHangsAfter := some 2 } with linkHangsAfter := none } = .next u ∧
      decide (2 < u.events.length - (chain 0).events.length) = true) ∧ (stall (chain 0)).linkStuck = true :=
  ⟨exists_of_shows (by decide +kernel), exists_of_shows (by decide +kernel), rfl⟩

theorem witness_ResetIsLegalAndConsistent :
    Config.wf { sensePresent := false, timeBits := 1, minPeriodUs := 10000 } = true ∧
    Config.wf { sensePresent := true, timeBits := 32, minPeriodUs := 1 } = true ∧ Config.default.wf = true := by decide

theorem witness_StepKeepsTheStateLegal : (asked (.setcap 128) (chain 16)).Legal ∧
    ∃ t, step (asked (.setcap 128) (chain 16)) = .next t ∧ answered .ok false t = true :=
  ⟨by decide +kernel, exists_of_shows (by decide +kernel)⟩

/-- Before any flush, and after a flush and a sample. -/
theorem witness_StepKeepsTheLinkConsistent : (asked (.whard 0 true) (chain 1)).LinkConsistent ∧
    (asked .flush { chain 1 with
      events := F [0x81] ++ [.sample .high], chainOut := [0x81]
      lvl := { data := .low, clock := .low, latch := .high } }).LinkConsistent ∧
    ∃ t, step (asked (.whard 0 true) (chain 1)) = .next t ∧ answered .ok false t = true :=
  ⟨by decide +kernel, by decide +kernel, exists_of_shows (by decide +kernel)⟩

theorem witness_ARejectedCommandHasNoEffect :
    ∃ t, step (asked (.whard 8 true) (chain 1)) = .next t ∧
      decide (t.responses = (asked (.whard 8 true) (chain 1)).responses ++ [{ status := .address, data := false }] ∧
        Status.address ≠ .ok) = true :=
  exists_of_shows (by decide +kernel)

theorem witness_EachCommandReportsItsFirstError : (mute 1).LinkReliable ∧
    reportedError (.rhard 8) (mute 1) = some .address ∧ reportedError (.rhard 7) (mute 1) = some .noSense ∧
    reportedError (.readbit 7) { mute 1 with rbActive := true } = none ∧ returnsData (.readbit 7) = true ∧
    reportedError (.wsoft 7 true) (mute 1) = none ∧ returnsData (.wsoft 7 true) = false := by decide +kernel

theorem witness_CommandsWriteOnlyTheirMatrixRow :
    ∃ t, exec (.tick 20000) (enrolled 2 128 .unknown (chain 1)) = .next t ∧ decide (Element.duty ∉ mayWrite (.tick 20000)) = true :=
  exists_of_shows (by decide +kernel)

theorem witness_CommandsEmitTheCountedEvents : (chain 16).LinkReliable ∧ reportedError (.whard 127 true) (chain 16) = none ∧
    reportedError (.whard 128 true) (chain 16) ≠ none := by decide +kernel

/-- A command with events, and one without. -/
theorem witness_TheChainChangesOnlyByLinkEvents :
    (∃ t, exec .flush (chain 0) = .next t ∧ decide (t.events ≠ (chain 0).events) = true) ∧
    (∃ t, exec (.wsoft 7 true) (chain 1) = .next t ∧ decide (t.events = (chain 1).events) = true) :=
  ⟨exists_of_shows (by decide +kernel), exists_of_shows (by decide +kernel)⟩

/-- Two samples, of which the environment's list gives one. -/
theorem witness_TheEnvironmentChoosesEverySample :
    ∃ t, exec .rall { chain 1 with dir := bytes [0x81], senseLine := [.low] } = .next t ∧
      (decide ((sampledLevels t.events).length = 2) && decide ((sampledLevels t.events)[0]? = some .low)) = true :=
  exists_of_shows (by decide +kernel)

/-- Each of the four transitions is taken. -/
theorem witness_BatchFlagsMoveOnlyByTheirCommands :
    (∃ t, exec .bwbegin (chain 1) = .next t ∧ decide (t.wbActive ≠ (chain 1).wbActive) = true) ∧
    (∃ t, exec .bwend { chain 1 with wbActive := true } = .next t ∧ decide (t.wbActive ≠ true) = true) ∧
    (∃ t, exec .brbegin (chain 1) = .next t ∧ decide (t.rbActive ≠ (chain 1).rbActive) = true) ∧
    (∃ t, exec .brend { chain 1 with rbActive := true } = .next t ∧ decide (t.rbActive ≠ true) = true) :=
  ⟨exists_of_shows (by decide +kernel), exists_of_shows (by decide +kernel), exists_of_shows (by decide +kernel),
    exists_of_shows (by decide +kernel)⟩

/-- Both ends of the accepted range, and the first values beyond it. -/
theorem witness_SetcapConfiguresAndZeroes :
    formShown 0x01 .fa 0x01000000#32 0x01000001#32 = true ∧
    (0 ≤ 128 ∧ 0 % 8 = 0) ∧ (128 ≤ 128 ∧ 128 % 8 = 0) ∧ (128 < 129 ∨ 129 % 8 ≠ 0) ∧ (128 < 136 ∨ 136 % 8 ≠ 0) ∧
    (128 < 1 ∨ 1 % 8 ≠ 0) := by decide

/-- The last bit in range and the first out of range, for the longest and the empty chain. -/
theorem witness_SetmodeWritesOneDirectionBit : formShown 0x02 .fbv 0x02FF0001#32 0x02000002#32 = true ∧
    (chain 16).byteCount.toNat ≤ 16 ∧ 127 < bitCount (chain 16) ∧
    bitCount (chain 16) ≤ 128 ∧ bitCount (chain 0) ≤ 0 := by decide

theorem witness_WsoftChangesOneCacheBit : formShown 0x03 .fbv 0x03FF0001#32 0x03000002#32 = true ∧
    (chain 16).byteCount.toNat ≤ 16 ∧ 127 < bitCount (chain 16) ∧
    bitCount (chain 16) ≤ 128 ∧ bitCount (chain 0) ≤ 0 := by decide

theorem witness_WhardFlushesTheWholeCache : formShown 0x04 .fbv 0x04FF0001#32 0x04000002#32 = true ∧
    (chain 16).LinkReliable ∧ (chain 16).byteCount.toNat ≤ 16 ∧
    127 < bitCount (chain 16) ∧ bitCount (chain 16) ≤ 128 := by decide

theorem witness_WritebitIsRoutedByTheWriteBatch : formShown 0x14 .fbv 0x14FF0001#32 0x14000002#32 = true ∧
    (chain 16).LinkReliable ∧ (chain 16).byteCount.toNat ≤ 16 ∧
    127 < bitCount (chain 16) ∧ bitCount (chain 16) ≤ 128 ∧ (chain 16).wbActive = false ∧
    127 < bitCount { chain 16 with wbActive := true } ∧ ({ chain 16 with wbActive := true } : State).wbActive = true := by decide

theorem witness_FlushTransfersTheWriteCache : formShown 0x05 .fn 0x05000000#32 0x05010000#32 = true ∧
    (chain 16).LinkReliable ∧ (chain 0).LinkReliable ∧ (chain 0).byteCount.toNat = 0 := by
  decide

theorem witness_AFlushIsSerialMsbFirstInBufferOrder : 15 < 8 * [0x08#8, 0x10#8].length ∧ [0x08#8, 0x10#8] ≠ [] := by decide

/-- Each command that flushes the write cache, and each that flushes a pattern, emits something. -/
theorem witness_AfterAFlushTheChainShowsEveryCacheBit :
    (∀ i ∈ [Instr.flush, .whard 7 true, .writebit 7 true, .rhard 7, .readbit 7, .rall, .brbegin],
      ∃ t, exec i { chain 1 with dir := bytes [0x81] } = .next t ∧ decide (t.events ≠ (chain 1).events) = true) ∧
    (∃ t, exec .bwend { chain 1 with wbActive := true } = .next t ∧ decide (t.events ≠ (chain 1).events) = true) ∧
    (∃ t, exec (.tick 5) (enrolled 7 255 .unknown (chain 1)) = .next t ∧ decide (t.events ≠ (chain 1).events) = true) ∧
    127 < bitCount (chain 16) := by
  refine ⟨?_, exists_of_shows (by decide +kernel), exists_of_shows (by decide +kernel), by decide⟩
  intro i hi
  simp only [List.mem_cons, List.not_mem_nil, or_false] at hi
  rcases hi with rfl | rfl | rfl | rfl | rfl | rfl | rfl <;> exact exists_of_shows (by decide +kernel)

/-- An output, another input and the target itself. -/
theorem witness_TheIsolationPatternSelectsOneInput : 7 < bitCount { chain 1 with dir := bytes [0x81] } ∧
    bitRead (bytes [0x81]) 1 = false ∧ (bitRead (bytes [0x81]) 0 = true ∧ 0 ≠ 7) ∧ bitRead (bytes [0x81]) 7 = true := by
  decide +kernel

theorem witness_RhardFlushesSamplesAndStores : formShown 0x06 .fb 0x06FF0000#32 0x06000001#32 = true ∧
    (chain 16).LinkReliable ∧ (chain 16).byteCount.toNat ≤ 16 ∧
    127 < bitCount (chain 16) ∧ (chain 16).cfg.sensePresent = true ∧ 127 < bitCount (mute 16) ∧
    (mute 16).cfg.sensePresent = false ∧ bitCount (chain 16) ≤ 128 := by decide

theorem witness_ReadbitIsRoutedByTheReadBatch : formShown 0x15 .fb 0x15FF0000#32 0x15000001#32 = true ∧
    (chain 16).LinkReliable ∧ (chain 16).byteCount.toNat ≤ 16 ∧
    127 < bitCount (chain 16) ∧ (chain 16).cfg.sensePresent = true ∧ (chain 16).rbActive = false ∧
    127 < bitCount (mute 16) ∧ (mute 16).rbActive = false ∧ (mute 16).cfg.sensePresent = false ∧
    bitCount (chain 16) ≤ 128 ∧ ({ mute 16 with rbActive := true } : State).rbActive = true := by decide

theorem witness_SoftReadsReturnTheCachedBit : formShown 0x07 .fb 0x07FF0000#32 0x07000001#32 = true ∧
    formShown 0x08 .fb 0x08FF0000#32 0x08000001#32 = true ∧
    127 < bitCount (chain 16) ∧ bitCount (chain 16) ≤ 128 := by decide

/-- With inputs at both ends of the chain; with none; and with one but no read line. -/
theorem witness_RallReadsEveryInputOnce :
    formShown 0x09 .fn 0x09000000#32 0x09000001#32 = true ∧
    ({ chain 1 with dir := bytes [0x81] } : State).LinkReliable ∧ (chain 1).byteCount.toNat ≤ 16 ∧
    (List.range (bitCount (chain 1))).filter (bitRead (bytes [0x81])) ≠ [] ∧
    (chain 1).cfg.sensePresent = true ∧ (∀ j < bitCount (mute 1), bitRead (mute 1).dir j = false) ∧
    ({ mute 1 with dir := bytes [0x80] } : State).cfg.sensePresent = false ∧
    (∃ j < bitCount (mute 1), bitRead (bytes [0x80]) j = true) := by decide +kernel

theorem witness_ASoftWriteIsReadBack : (chain 16).byteCount.toNat ≤ 16 ∧ 127 < bitCount (chain 16) := by decide

theorem witness_AFlushRestoresTheChainAfterAHardRead :
    (chain 1).cfg.sensePresent = true ∧ 7 < bitCount { chain 1 with dir := bytes [0x81] } ∧
    ∃ t u, exec (.rhard 7) { chain 1 with dir := bytes [0x81] } = .next t ∧ exec .flush t = .next u ∧
      (t.chainOut != u.chainOut && !u.linkStuck) = true :=
  ⟨by decide, by decide, exists_two (by decide +kernel)⟩

theorem witness_WriteBatchOpensAndCloses : formShown 0x10 .fn 0x10000000#32 0x10000001#32 = true ∧
    formShown 0x11 .fn 0x11000000#32 0x11000001#32 = true ∧
    (chain 1).wbActive = false ∧ (chain 1).LinkReliable ∧
    ({ chain 1 with wbActive := true } : State).wbActive = true ∧ ({ chain 1 with wbActive := true } : State).LinkReliable := by
  decide

theorem witness_ReadBatchOpensAndCloses : formShown 0x12 .fn 0x12000000#32 0x12000001#32 = true ∧
    formShown 0x13 .fn 0x13000000#32 0x13000001#32 = true ∧
    (chain 1).LinkReliable ∧ (chain 1).rbActive = false ∧
    (chain 1).cfg.sensePresent = true ∧ (mute 1).rbActive = false ∧ (mute 1).cfg.sensePresent = false ∧
    (∃ j < bitCount (mute 1), bitRead (bytes [0x80]) j = true) ∧ ({ chain 1 with rbActive := true } : State).rbActive = true := by
  decide +kernel

/-- A soft write, a routed write, a TICK that drives nothing, and a rejected write. -/
theorem witness_AWriteBatchIsOneFlush : (chain 2).LinkReliable ∧ (chain 2).wbActive = false ∧
    (∀ w ∈ [(3, true), (15, true)], w.1 < bitCount (chain 2)) ∧
    (∀ i ∈ [Instr.wsoft 3 true, .writebit 15 true, .tick 5, .wsoft 16 true], ∀ n, i ≠ .setcap n) ∧
    ∃ t, execAll [.bwbegin, .wsoft 3 true, .writebit 15 true, .tick 5, .wsoft 16 true] (chain 2) = .next t ∧
      (decide (t.events = (chain 2).events) && shows (exec .bwend t) (fun u => !u.linkStuck)) = true :=
  ⟨by decide, by decide, by decide, by simp, exists_of_shows (by decide +kernel)⟩

theorem witness_ReadBatchValuesAreStable : ({ chain 1 with rbActive := true } : State).rbActive = true ∧
    (∀ i ∈ [Instr.whard 7 true, .brbegin, .setmode 7 true],
      (∀ x, i ≠ .rhard x) ∧ i ≠ .rall ∧ (∀ n, i ≠ .setcap n) ∧ i ≠ .brend) ∧
    (∃ t, execAll [.whard 7 true, .brbegin, .setmode 7 true] { chain 1 with rbActive := true } = .next t ∧
      answered .ok false t = true) ∧ 7 < bitCount (chain 1) :=
  ⟨by decide, by simp, exists_of_shows (by decide +kernel), by decide⟩

/-- The accepted ends, and the first rejected value on each side. -/
theorem witness_SetfreqSetsOrRejectsThePeriod : formShown 0x20 .fa 0x20000000#32 0x20010000#32 = true ∧
    (1 ≠ 0 ∧ (chain 0).cfg.minPeriodUs ≤ 1000000 / 1) ∧
    (1000000 ≠ 0 ∧ (chain 0).cfg.minPeriodUs ≤ 1000000 / 1000000) ∧ (0 = 0 ∨ 1000000 / 0 < (chain 0).cfg.minPeriodUs) ∧
    (1000001 = 0 ∨ 1000000 / 1000001 < (chain 0).cfg.minPeriodUs) := by decide

theorem witness_EnrollEnablesOnePin : formShown 0x21 .fbd 0x21FF00FF#32 0x21000100#32 = true ∧
    (63 < 64 ∧ 63 < bitCount (chain 16) ∧ 255 ≤ 255) ∧ (7 < 64 ∧ 7 < bitCount (chain 1)) ∧
    (64 ≤ 64 ∨ bitCount (chain 16) ≤ 64) ∧ (64 ≤ 8 ∨ bitCount (chain 1) ≤ 8) := by decide

theorem witness_UnenrollDisablesOnePin : formShown 0x22 .fb 0x22FF0000#32 0x22000001#32 = true ∧
    63 < 64 ∧ 64 ≤ 64 := by decide

theorem witness_TickDrivesThePinsWhoseTargetChanged : formShown 0x23 .fa 0x23000000#32 0x23000001#32 = true ∧
    (enrolled 2 128 .unknown (chain 1)).LinkReliable ∧
    (enrolled 2 128 .unknown (chain 1)).cfg.wf = true ∧ drivenPins 0 (enrolled 2 128 .unknown (chain 1)) = [(2, .on)] ∧
    drivenPins 0 (chain 1) = [] := by decide +kernel

/-- SETCAP 8 leaves pin 12 enrolled, out of range. -/
theorem witness_OnlySetcapLeavesAnEnrolledPinOutOfRange :
    ∃ t, exec (.setcap 8) (enrolled 12 255 .on (chain 2)) = .next t ∧
      decide (dutyAt t 12 ≠ .disabled ∧ bitCount t ≤ 12) = true :=
  exists_of_shows (by decide +kernel)

/-- Pin 7 is driven and bit 6 is not. -/
theorem witness_TickWritesOnlyTheDrivenBits :
    ∃ t, exec (.tick 20000) (enrolled 7 128 .unknown (chain 1)) = .next t ∧
      decide (t.Running ∧ drivenPin 0 (enrolled 7 128 .unknown (chain 1)) 7 = some (7, .on) ∧
        drivenPin 0 (enrolled 7 128 .unknown (chain 1)) 6 = none) = true :=
  exists_of_shows (by decide +kernel)

/-- The difference at the period, and one below it; the host's longest step backward that begins a new cycle, and the
shortest that begins none. -/
theorem witness_TheTickBoundaryIsModular :
    (chain 1).Legal ∧ (∃ t, exec (.tick 10000) (chain 1) = .next t ∧ (!t.linkStuck && t.tickStart.toNat == 10000) = true) ∧
    (∃ t, exec (.tick 9999) (chain 1) = .next t ∧ (!t.linkStuck && t.tickStart.toNat == 0) = true) ∧
    ({ State.resetWith { Config.default with timeBits := 16 } with period := 1000, tickStart := 65000 } : State).Legal ∧
    (1 ≤ 64536 ∧ 64536 ≤ 65000 ∧ 64536 + 1000 ≤ 2 ^ 16 ∧ 464 % 2 ^ 16 = 65000 - 64536) ∧
    (1 ≤ 64537 ∧ 64537 ≤ 65000 ∧ 2 ^ 16 < 64537 + 1000 ∧ 463 % 2 ^ 16 = 65000 - 64537) ∧
    (∃ t, exec (.tick 463) { State.resetWith { Config.default with timeBits := 16 } with
      period := 1000, tickStart := 65000 } = .next t ∧ (!t.linkStuck && t.tickStart.toNat == 65000) = true) :=
  ⟨by decide +kernel, exists_of_shows (by decide +kernel), exists_of_shows (by decide +kernel), by decide +kernel, by decide,
    by decide, exists_of_shows (by decide +kernel)⟩

/-- A pin of duty 0 and one of duty 255. -/
theorem witness_BoundaryDutiesAreAlwaysOffAndAlwaysOn : (enrolled 6 0 .unknown (enrolled 7 255 .off (chain 1))).Legal ∧
    (∃ t, exec (.tick 5) (enrolled 6 0 .unknown (enrolled 7 255 .off (chain 1))) = .next t ∧ (!t.linkStuck) = true) ∧
    7 < bitCount (chain 1) ∧ dutyAt (enrolled 6 0 .unknown (enrolled 7 255 .off (chain 1))) 6 = .enabled 0 ∧
    dutyAt (enrolled 6 0 .unknown (enrolled 7 255 .off (chain 1))) 7 = .enabled 255 :=
  ⟨by decide +kernel, exists_of_shows (by decide +kernel), by decide, by decide +kernel, by decide +kernel⟩

theorem witness_TheOnWindowScalesWithDuty : (0 ≤ 255 ∧ 255 ≤ 255) ∧ (254 ≤ 255 ∧ 255 ≤ 255) ∧ (1000000 ≤ 1000000) := by decide

theorem witness_ResetHoldsTheStatedValues : (∃ cfg, State.reset = State.resetWith cfg) ∧ 15 < 16 ∧ 63 < 64 :=
  ⟨⟨Config.default, rfl⟩, by decide, by decide⟩

/-- Pin 0 of V-P28, with the two other ENROLLs between; and pin 12 with a TICK between at which it is out of range. -/
theorem witness_TheFirstTickAfterEnrollDrivesThePin :
    (0 < 64 ∧ 0 < bitCount (chain 1) ∧
      (∀ i ∈ [Instr.enroll 1 0, .enroll 3 64], (∀ d, i ≠ .enroll 0 d) ∧ i ≠ .unenroll 0 ∧
        ∀ v, i ≠ .wsoft 0 v ∧ i ≠ .whard 0 v ∧ i ≠ .writebit 0 v) ∧
      (∀ (pre post : List Instr) (tm : Nat), [Instr.enroll 1 0, .enroll 3 64] ≠ pre ++ .tick tm :: post) ∧
      ∃ u w, execAll [.enroll 0 255, .enroll 1 0, .enroll 3 64] (chain 1) = .next u ∧ exec (.tick 100) u = .next w ∧
        (decide (0 < bitCount u) && !w.linkStuck) = true) ∧
    (12 < 64 ∧ 12 < bitCount (chain 2) ∧
      (∀ i ∈ [Instr.setcap 8, .tick 5, .setcap 16], (∀ d, i ≠ .enroll 12 d) ∧ i ≠ .unenroll 12 ∧
        ∀ v, i ≠ .wsoft 12 v ∧ i ≠ .whard 12 v ∧ i ≠ .writebit 12 v) ∧
      (∀ (pre post : List Instr) (tm : Nat), [Instr.setcap 8, .tick 5, .setcap 16] = pre ++ .tick tm :: post →
        pre = [.setcap 8]) ∧
      (∃ r, execAll [.enroll 12 255, .setcap 8] (chain 2) = .next r ∧ decide (bitCount r ≤ 12) = true) ∧
      ∃ u w, execAll [.enroll 12 255, .setcap 8, .tick 5, .setcap 16] (chain 2) = .next u ∧ exec (.tick 100) u = .next w ∧
        (decide (12 < bitCount u) && !w.linkStuck) = true) := by
  refine ⟨⟨by decide, by decide, by simp, ?_, exists_two (by decide +kernel)⟩, by decide, by decide, by simp, ?_,
    exists_of_shows (by decide +kernel), exists_two (by decide +kernel)⟩
  · intro pre post tm h
    rcases pre with _ | ⟨a, _ | ⟨b, _ | ⟨c, l⟩⟩⟩ <;> simp at h
  · intro pre post tm h
    rcases pre with _ | ⟨a, _ | ⟨b, _ | ⟨c, l⟩⟩⟩ <;> simp at h
    exact congrArg (· :: []) h.1.symm

/-- V-L1-6: the same target at 20000 and 22000, with a flush between them. -/
theorem witness_AnUnchangedTargetIsNotDrivenAgain : (enrolled 2 128 .unknown (chain 1)).Legal ∧
    scanTarget (tickElapsed (operandNow (chain 1).cfg 20000) (enrolled 2 128 .unknown (chain 1)))
      (enrolled 2 128 .unknown (chain 1)) 2 = some .on ∧
    (∀ j ∈ [Instr.flush], (∀ x, j ≠ .tick x) ∧ (∀ b d, j ≠ .enroll b d) ∧ (∀ b, j ≠ .unenroll b) ∧ (∀ n, j ≠ .setcap n)) ∧
    ∃ t u, exec (.tick 20000) (enrolled 2 128 .unknown (chain 1)) = .next t ∧ execAll [.flush] t = .next u ∧
      decide (t.Running ∧ scanTarget (tickElapsed (operandNow u.cfg 22000) u) u 2 = some .on) = true :=
  ⟨by decide +kernel, by decide +kernel, by simp, exists_two (by decide +kernel)⟩

/-- Each ordinary write, then a FLUSH and a WSOFT of the same pin, then a TICK. -/
theorem witness_AnOrdinaryWriteStopsPwmOnThePin : (enrolled 7 128 .on (chain 1)).byteCount.toNat ≤ 16 ∧
    7 < bitCount (enrolled 7 128 .on (chain 1)) ∧ (∀ j ∈ [Instr.flush, .wsoft 7 true], ∀ d, j ≠ .enroll 7 d) ∧
    ∀ i ∈ [Instr.wsoft 7 false, .whard 7 false, .writebit 7 false],
      ∃ u w, execAll [i, .flush, .wsoft 7 true] (enrolled 7 128 .on (chain 1)) = .next u ∧ exec (.tick 20000) u = .next w ∧
        (bitRead w.wr 7 && !w.linkStuck) = true := by
  refine ⟨by decide, by decide, by simp, ?_⟩
  intro i hi
  simp only [List.mem_cons, List.not_mem_nil, or_false] at hi
  rcases hi with rfl | rfl | rfl <;> exact exists_two (by decide +kernel)

end Sys2Proof.Tests
end

section
/-! The statements of 10_state.md. Every one goes through `exec_next_storage`: but for the response and the two fields of
the environment's link, the next state of a command is the old one or the one its effect gives. -/

namespace Sys2Proof.Machine

/-! ### The storage after a command -/

/-- Inversion: but for its responses and the link's two fields, the next state of a command is the state it began in, or
the command has no error and it is the state its effect gives. -/
theorem exec_next_storage {i : Instr} {s t : State} (h : exec i s = .next t) :
    ∃ r m b,
      t = { s with responses := r, linkHangsAfter := m, linkStuck := b } ∨
      (reportedError i s = none ∧ t = { effect i s with responses := r, linkHangsAfter := m, linkStuck := b }) := by
  rcases exec_next h with ⟨e, -, -, rfl⟩ | ⟨hn, m, -, rfl⟩ | ⟨-, rfl, -⟩
  · exact ⟨_, _, _, Or.inl rfl⟩
  · exact ⟨_, m, _, Or.inr ⟨hn, rfl⟩⟩
  · exact ⟨_, _, _, Or.inl rfl⟩

/-- A command whose range check passes has its bit in range (60_exceptions.md R243). -/
theorem lt_bitCount_of_rangeCheck {s : State} {b : Nat} {o : Option Status}
    (h : (if decide (8 * s.byteCount.toNat ≤ b) = true then some Status.address else o) = none) : b < bitCount s := by
  by_contra hb
  rw [if_pos (outOfRange_decide (Nat.not_lt.mp hb))] at h
  cases h

/-! ### Legal states (10_state.md R24, R25, R28, R29) -/

theorem config_wf_iff (c : Config) :
    c.wf = true ↔ (1 ≤ c.timeBits ∧ c.timeBits ≤ 32) ∧ 1 ≤ c.minPeriodUs ∧ c.minPeriodUs ≤ 10000 := by
  simp [Config.wf, and_assoc]

/-- `t` differs from `s` in no number that legality bounds, and its arrays hold the same unreachable bytes. -/
structure SameLimits (s t : State) : Prop where
  cfg : t.cfg = s.cfg
  byteCount : t.byteCount = s.byteCount
  period : t.period = s.period
  tickStart : t.tickStart = s.tickStart
  dir : ∀ k, s.byteCount.toNat ≤ k → byteAt t.dir k = byteAt s.dir k
  wr : ∀ k, s.byteCount.toNat ≤ k → byteAt t.wr k = byteAt s.wr k
  rd : ∀ k, s.byteCount.toNat ≤ k → byteAt t.rd k = byteAt s.rd k

namespace SameLimits

variable {s t u : State}

theorem refl (s : State) : SameLimits s s :=
  ⟨rfl, rfl, rfl, rfl, fun _ _ => rfl, fun _ _ => rfl, fun _ _ => rfl⟩

theorem trans (h1 : SameLimits s t) (h2 : SameLimits t u) : SameLimits s u where
  cfg := h2.cfg.trans h1.cfg
  byteCount := h2.byteCount.trans h1.byteCount
  period := h2.period.trans h1.period
  tickStart := h2.tickStart.trans h1.tickStart
  dir k hk := (h2.dir k (by rwa [h1.byteCount])).trans (h1.dir k hk)
  wr k hk := (h2.wr k (by rwa [h1.byteCount])).trans (h1.wr k hk)
  rd k hk := (h2.rd k (by rwa [h1.byteCount])).trans (h1.rd k hk)

theorem bitCount_eq (h : SameLimits s t) : bitCount t = bitCount s := by
  unfold bitCount; rw [h.byteCount]

/-- Legality carries over. -/
theorem legal (h : SameLimits s t) (hs : s.Legal) : t.Legal := by
  obtain ⟨hc, hn, hz, hp, ht⟩ := hs
  unfold State.Legal State.UnreachableZero byteIsZero
  rw [h.cfg, h.byteCount, h.period, h.tickStart]
  refine ⟨hc, hn, fun k hk hle => ?_, hp, ht⟩
  rw [h.dir k hle, h.wr k hle, h.rd k hle]
  exact hz k hk hle

end SameLimits

/-! Each shared operation on bits in range keeps the limits. `{ SameLimits.refl s with … }` names the arrays it writes; every
other part is that of an unchanged state. -/

theorem sameLimits_writeDir {s : State} {b : Nat} (v : Bool) (hb : b < bitCount s) : SameLimits s (writeDir b v s) :=
  { SameLimits.refl s with dir := fun _ hk => byteAt_bitWrite_above s.dir v hb hk }

theorem sameLimits_writeWr {s : State} {b : Nat} (v : Bool) (hb : b < bitCount s) : SameLimits s (writeWr b v s) :=
  { SameLimits.refl s with wr := fun _ hk => byteAt_bitWrite_above s.wr v hb hk }

theorem sameLimits_writeRd {s : State} {b : Nat} (v : Bool) (hb : b < bitCount s) : SameLimits s (writeRd b v s) :=
  { SameLimits.refl s with rd := fun _ hk => byteAt_bitWrite_above s.rd v hb hk }

theorem sameLimits_pwmDisable (b : Nat) (s : State) : SameLimits s (pwmDisable b s) := by
  rw [pwmDisable_eq]; exact { SameLimits.refl s with }

theorem sameLimits_flushBytes (bytes : List Byte) (s : State) : SameLimits s (flushBytes bytes s) := by
  rw [flushBytes_eq]; exact { SameLimits.refl s with }

theorem sameLimits_flushCache (s : State) : SameLimits s (flushCache s) := sameLimits_flushBytes (wrBytes s) s

theorem sameLimits_softWrite {s : State} {b : Nat} (v : Bool) (hb : b < bitCount s) :
    SameLimits s (pwmDisable b (writeWr b v s)) :=
  (sameLimits_writeWr v hb).trans (sameLimits_pwmDisable b _)

theorem sameLimits_hardWrite {s : State} {b : Nat} (v : Bool) (hb : b < bitCount s) :
    SameLimits s (flushCache (pwmDisable b (writeWr b v s))) :=
  (sameLimits_softWrite v hb).trans (sameLimits_flushCache _)

theorem sameLimits_hardRead {s : State} {b : Nat} (hb : b < bitCount s) : SameLimits s (hardRead b s) := by
  rw [hardRead_eq]
  exact { SameLimits.refl s with rd := fun _ hk => byteAt_bitWrite_above s.rd _ hb hk }

theorem sameLimits_hardReadAll {is : List Nat} {s : State} (hb : ∀ i ∈ is, i < bitCount s) :
    SameLimits s (hardReadAll is s) := by
  induction is generalizing s with
  | nil => exact SameLimits.refl s
  | cons i is ih =>
    have h1 := sameLimits_hardRead (hb i List.mem_cons_self)
    exact h1.trans (ih fun j hj => h1.bitCount_eq ▸ hb j (List.mem_cons_of_mem i hj))

theorem sameLimits_hardReadInputs (s : State) : SameLimits s (hardReadAll (inputBits s) s) :=
  sameLimits_hardReadAll fun _ hi => (mem_inputBits.mp hi).1

/-- A pin that TICK drives is in range (42_pwm.md R210). -/
theorem lt_bitCount_of_scanTarget {e : Nat} {s : State} {i : Nat} {g : Track} (h : scanTarget e s i = some g) :
    i < bitCount s := by
  unfold scanTarget at h
  split at h
  · cases h
  · split at h
    · assumption
    · cases h

theorem sameLimits_pwmDrive {s : State} {i : Nat} (g : Track) (hi : i < bitCount s) : SameLimits s (pwmDrive i g s) := by
  have h := (sameLimits_writeWr (decide (g = .on)) hi).trans (sameLimits_flushCache _)
  exact { h with }

theorem sameLimits_tickPin (e : Nat) (s : State) (i : Nat) : SameLimits s (tickPin e s i) := by
  cases hd : drivenPin e s i with
  | none => rw [tickPin_of_none hd]; exact SameLimits.refl s
  | some p =>
    obtain ⟨-, hg, -, he⟩ := tickPin_of_some hd
    rw [he]
    exact sameLimits_pwmDrive p.2 (lt_bitCount_of_scanTarget hg)

theorem sameLimits_tickScan (e : Nat) (s : State) : SameLimits s (tickScan e s) := by
  unfold tickScan
  generalize List.range Config.pwmEntries = is
  induction is generalizing s with
  | nil => exact SameLimits.refl s
  | cons i is ih => exact (sameLimits_tickPin e s i).trans (ih _)

/-! The three operations that move a bounded number: SETCAP, SETFREQ and the beginning of a cycle. -/

theorem legal_beginCycle {s : State} (tm : Nat) (hs : s.Legal) : (beginCycle (operandNow s.cfg tm) s).Legal := by
  obtain ⟨hc, hn, hz, hp, ht⟩ := hs
  have hstart : (beginCycle (operandNow s.cfg tm) s).tickStart.toNat < 2 ^ s.cfg.timeBits := by
    rw [tickStart_beginCycle (operandNow_lt_word tm hc)]
    split
    · exact operandNow_lt tm
    · exact ht
  rw [beginCycle_eq]
  exact ⟨hc, hn, hz, hp, hstart⟩

theorem legal_setcap {n : Nat} {s : State} (hs : s.Legal) (hn : n ≤ 128) : (effect (.setcap n) s).Legal := by
  obtain ⟨hc, -, -, hp, ht⟩ := hs
  refine ⟨hc, ?_, fun k _ _ => ⟨byteAt_zero k, byteAt_zero k, byteAt_zero k⟩, hp, ht⟩
  simp only [effect, BitVec.toNat_ofNat]
  omega

theorem legal_setfreq {hz : Nat} {s : State} (hs : s.Legal) (hmin : s.cfg.minPeriodUs ≤ 1000000 / hz) :
    (effect (.setfreq hz) s).Legal := by
  obtain ⟨hc, hn, hzero, -, ht⟩ := hs
  have hle : 1000000 / hz ≤ 1000000 := Nat.div_le_self _ _
  have hp : (BitVec.ofNat 20 (1000000 / hz)).toNat = 1000000 / hz := by
    rw [BitVec.toNat_ofNat, Nat.mod_eq_of_lt (by omega)]
  refine ⟨hc, hn, hzero, ?_, ht⟩
  simp only [effect, hp]
  exact ⟨hmin, hle⟩

/-- The effect of a command without an error keeps the state legal. -/
theorem effect_legal {i : Instr} {s : State} (hs : s.Legal) (hn : reportedError i s = none) : (effect i s).Legal := by
  cases i with
  | setcap n =>
    refine legal_setcap hs (Nat.not_lt.mp fun hlt => ?_)
    simp [reportedError, hlt] at hn
  | setfreq hz =>
    refine legal_setfreq hs (Nat.not_lt.mp fun hlt => ?_)
    simp [reportedError, hlt] at hn
  | tick t =>
    simp only [effect]
    exact (sameLimits_tickScan _ _).legal (legal_beginCycle t hs)
  | setmode b v => exact (sameLimits_writeDir v (lt_bitCount_of_rangeCheck hn)).legal hs
  | wsoft b v => exact (sameLimits_softWrite v (lt_bitCount_of_rangeCheck hn)).legal hs
  | whard b v => exact (sameLimits_hardWrite v (lt_bitCount_of_rangeCheck hn)).legal hs
  | writebit b v =>
    have hb := lt_bitCount_of_rangeCheck hn
    simp only [effect]
    split
    · exact (sameLimits_softWrite v hb).legal hs
    · exact (sameLimits_hardWrite v hb).legal hs
  | rhard b => exact (sameLimits_hardRead (lt_bitCount_of_rangeCheck hn)).legal hs
  | readbit b =>
    have hb := lt_bitCount_of_rangeCheck hn
    simp only [effect]
    split
    · exact hs
    · exact (sameLimits_hardRead hb).legal hs
  | flush => exact (sameLimits_flushCache s).legal hs
  | bwend => exact (sameLimits_flushCache s).legal hs
  | rall => exact (sameLimits_hardReadInputs s).legal hs
  | brbegin => exact (sameLimits_hardReadInputs s).legal hs
  | rsoft b => exact hs
  | getw b => exact hs
  | bwbegin => exact hs
  | brend => exact hs
  | enroll b d => exact hs
  | unenroll b => exact hs

theorem exec_legal {i : Instr} {s t : State} (hs : s.Legal) (h : exec i s = .next t) : t.Legal := by
  obtain ⟨r, m, b, rfl | ⟨hn, rfl⟩⟩ := exec_next_storage h
  · exact hs
  · exact effect_legal hs hn

/-- Settles O14: a step takes a command from the list, which legality does not read, and runs it or rejects it. -/
theorem stepKeepsTheStateLegal : Obligations.StepKeepsTheStateLegal := by
  intro s t hs h
  rcases step_next h with rfl | ⟨k, rest, -, -, ⟨i, -, hx⟩ | ⟨e, -, rfl⟩⟩
  · exact hs
  · exact exec_legal (s := { s with commands := rest }) hs hx
  · exact hs

/-- Settles O13: every array is 0, the period is 10,000, which no legal MIN_PERIOD_US exceeds, and there is no event. -/
theorem resetIsLegalAndConsistent : Obligations.ResetIsLegalAndConsistent := by
  intro cfg hc
  obtain ⟨-, -, hmin⟩ := (config_wf_iff cfg).mp hc
  have hperiod : (State.resetWith cfg).period.toNat = 10000 := rfl
  refine ⟨⟨hc, Nat.zero_le 16, fun k _ _ => ⟨byteAt_zero k, byteAt_zero k, byteAt_zero k⟩, ?_, Nat.two_pow_pos _⟩,
    Or.inl rfl, Or.inl rfl⟩
  rw [hperiod]
  exact ⟨hmin, by omega⟩

/-! ### The access matrix (10_state.md R38) -/

/-- Every state element outside `row` is in `t` what it is in `s`. -/
def WritesOnly (row : List Element) (s t : State) : Prop :=
  (.dir ∉ row → t.dir = s.dir) ∧ (.wr ∉ row → t.wr = s.wr) ∧ (.rd ∉ row → t.rd = s.rd) ∧
  (.byteCount ∉ row → t.byteCount = s.byteCount) ∧ (.wbActive ∉ row → t.wbActive = s.wbActive) ∧
  (.rbActive ∉ row → t.rbActive = s.rbActive) ∧ (.period ∉ row → t.period = s.period) ∧
  (.tickStart ∉ row → t.tickStart = s.tickStart) ∧ (.duty ∉ row → t.duty = s.duty) ∧ (.track ∉ row → t.track = s.track)

/-- A command's effect writes its row of the access matrix only: each case says what the command's operations change. -/
theorem effect_writesOnly (i : Instr) (s : State) : WritesOnly (mayWrite i) s (effect i s) := by
  unfold WritesOnly
  cases i with
  | setcap n => simp [mayWrite, effect]
  | setmode b v => simp [mayWrite, effect]
  | wsoft b v => simp only [effect]; rw [pwmDisable_eq]; simp [mayWrite]
  | whard b v => simp only [effect]; rw [flushCache_eq, pwmDisable_eq]; simp [mayWrite]
  | writebit b v =>
    simp only [effect]
    split
    · rw [pwmDisable_eq]; simp [mayWrite]
    · rw [flushCache_eq, pwmDisable_eq]; simp [mayWrite]
  | flush => simp only [effect]; rw [flushCache_eq]; simp
  | bwend => simp only [effect]; rw [flushCache_eq]; simp [mayWrite]
  | rhard b => simp only [effect]; rw [hardRead_eq]; simp [mayWrite]
  | readbit b =>
    simp only [effect]
    split
    · simp
    · rw [hardRead_eq]; simp [mayWrite]
  | rall => simp only [effect]; rw [hardReadAll_eq]; simp [mayWrite]
  | brbegin => simp only [effect]; rw [hardReadAll_eq]; simp [mayWrite]
  | tick t => simp only [effect]; rw [tickScan_eq, beginCycle_eq]; simp [mayWrite]
  | rsoft b => simp [effect]
  | getw b => simp [effect]
  | bwbegin => simp [mayWrite, effect]
  | brend => simp [mayWrite, effect]
  | setfreq hz => simp [mayWrite, effect]
  | enroll b d => simp [mayWrite, effect]
  | unenroll b => simp [mayWrite, effect]

theorem exec_writesOnly {i : Instr} {s t : State} (h : exec i s = .next t) : WritesOnly (mayWrite i) s t := by
  obtain ⟨r, m, b, rfl | ⟨-, rfl⟩⟩ := exec_next_storage h
  · simp [WritesOnly]
  · exact effect_writesOnly i s

/-- Settles O19, by `exec_writesOnly`. -/
theorem commandsWriteOnlyTheirMatrixRow : Obligations.CommandsWriteOnlyTheirMatrixRow :=
  fun _ _ _ h => exec_writesOnly h

/-! ### The batch flags (41_transaction.md R170) -/

theorem wbActive_mem_mayWrite {i : Instr} (h : Element.wbActive ∈ mayWrite i) : i = .bwbegin ∨ i = .bwend := by
  cases i <;> simp [mayWrite] at h ⊢

theorem rbActive_mem_mayWrite {i : Instr} (h : Element.rbActive ∈ mayWrite i) : i = .brbegin ∨ i = .brend := by
  cases i <;> simp [mayWrite] at h ⊢

/-- A command that changes the write-batching flag is BWBEGIN or BWEND, from the state of the flag that it needs. -/
theorem exec_changes_wbActive {i : Instr} {s t : State} (h : exec i s = .next t) (hne : t.wbActive ≠ s.wbActive) :
    (i = .bwbegin ∧ s.wbActive = false ∧ t.wbActive = true ∧ t.events = s.events) ∨
      (i = .bwend ∧ s.wbActive = true ∧ t.wbActive = false ∧ t.events = s.events ++ flushEvents (wrBytes s)) := by
  obtain ⟨-, -, -, -, hframe, -⟩ := exec_writesOnly h
  have hi := wbActive_mem_mayWrite (not_imp_comm.mp hframe hne)
  obtain ⟨r, m, b, rfl | ⟨hn, rfl⟩⟩ := exec_next_storage h
  · exact absurd rfl hne
  · rcases hi with rfl | rfl
    · exact Or.inl ⟨rfl, by simpa [reportedError] using hn, rfl, rfl⟩
    · exact Or.inr ⟨rfl, by simpa [reportedError] using hn, rfl, flushCache_events s⟩

/-- A command that changes the read-batching flag is BRBEGIN or BREND, from the state of the flag that it needs. -/
theorem exec_changes_rbActive {i : Instr} {s t : State} (h : exec i s = .next t) (hne : t.rbActive ≠ s.rbActive) :
    (i = .brbegin ∧ s.rbActive = false ∧ t.rbActive = true) ∨
      (i = .brend ∧ s.rbActive = true ∧ t.rbActive = false ∧ t.events = s.events) := by
  obtain ⟨-, -, -, -, -, hframe, -⟩ := exec_writesOnly h
  have hi := rbActive_mem_mayWrite (not_imp_comm.mp hframe hne)
  obtain ⟨r, m, b, rfl | ⟨hn, rfl⟩⟩ := exec_next_storage h
  · exact absurd rfl hne
  · rcases hi with rfl | rfl
    · exact Or.inl ⟨rfl, Bool.eq_false_iff.mpr fun hs => by simp [reportedError, hs] at hn, rfl⟩
    · exact Or.inr ⟨rfl, by simpa [reportedError] using hn, rfl, rfl⟩

/-- Settles O23: the access matrix leaves each flag to its two commands, and their checks fix the flag's old value. -/
theorem batchFlagsMoveOnlyByTheirCommands : Obligations.BatchFlagsMoveOnlyByTheirCommands :=
  fun _ _ _ h => ⟨exec_changes_wbActive h, exec_changes_rbActive h⟩

/-! ### The chain after a hard read (10_state.md R34) -/

/-- Settles O36: the hard read leaves wr and byteCount alone, so the flush after it latches the write cache of `s`. -/
theorem aFlushRestoresTheChainAfterAHardRead : Obligations.AFlushRestoresTheChainAfterAHardRead := by
  intro b s t u hsense hb hread hflush hu
  have hnoError : reportedError (.rhard b) s = none := by simp [reportedError, inRange_decide hb, hsense]
  rcases exec_next_running (running_of_exec hu hflush) hread with ⟨e, he, -⟩ | ⟨-, m, -, rfl⟩
  · rw [hnoError] at he; cases he
  rcases exec_next_running hu hflush with ⟨e, he, -⟩ | ⟨-, n, -, rfl⟩
  · cases he
  simp [effect, flushCache, wrBytes]

/-! ### The step (60_exceptions.md R255) -/

/-- Decoding the encoding of a well-formed command gives it back (30_encoding.md R92, R102). -/
theorem decode_encode {i : Instr} (h : i.wf = true) : decode (encode i) = .ok i := by
  cases i with
  | setcap n => exact Laws.RoundTrip.setcap n h
  | setmode b v => exact Laws.RoundTrip.setmode b v h
  | wsoft b v => exact Laws.RoundTrip.wsoft b v h
  | whard b v => exact Laws.RoundTrip.whard b v h
  | flush => exact Laws.RoundTrip.flush h
  | rhard b => exact Laws.RoundTrip.rhard b h
  | rsoft b => exact Laws.RoundTrip.rsoft b h
  | getw b => exact Laws.RoundTrip.getw b h
  | rall => exact Laws.RoundTrip.rall h
  | bwbegin => exact Laws.RoundTrip.bwbegin h
  | bwend => exact Laws.RoundTrip.bwend h
  | brbegin => exact Laws.RoundTrip.brbegin h
  | brend => exact Laws.RoundTrip.brend h
  | writebit b v => exact Laws.RoundTrip.writebit b v h
  | readbit b => exact Laws.RoundTrip.readbit b h
  | setfreq hz => exact Laws.RoundTrip.setfreq hz h
  | enroll b d => exact Laws.RoundTrip.enroll b d h
  | unenroll b => exact Laws.RoundTrip.unenroll b h
  | tick t => exact Laws.RoundTrip.tick t h

theorem step_of_decoded {s : State} {k : Command} {rest : List Command} {i : Instr} (hr : s.Running)
    (hc : s.commands = k :: rest) (hd : decode k = .ok i) : step s = exec i { s with commands := rest } := by
  rw [step_of_command hr hc, hd]

/-- Settles O8: the step is `step_of_decoded`, the encoding of a command decodes to it, and otherwise the block holds. -/
theorem stepRunsTheDecodedCommand : Obligations.StepRunsTheDecodedCommand :=
  ⟨fun _ _ _ _ hr hc hd => step_of_decoded hr hc hd, fun _ _ _ hwf hr hc => step_of_decoded hr hc (decode_encode hwf),
    fun _ h => step_hold h⟩

end Sys2Proof.Machine
end

section
/-! The statements of 20_memory.md. What a command does to the link is said twice, each time once for all commands: as a run
of flushes and hard reads (`effect_linkRun`), and by what the chain shows at its end (`effect_link_cases`). -/

namespace Sys2Proof.Machine

/-! ### The link as a run of flushes and hard reads (20_memory.md R68, R79) -/

/-- What the link shows of `s`, and what the environment has still to choose, is unchanged in `t`. -/
structure SameLink (s t : State) : Prop where
  events : t.events = s.events
  chainOut : t.chainOut = s.chainOut
  lvl : t.lvl = s.lvl
  senseLine : t.senseLine = s.senseLine

/-- `t` is reached from `s` by flushes, hard reads and updates that leave the link alone. -/
inductive LinkRun : State → State → Prop where
  | same {s t : State} (h : SameLink s t) : LinkRun s t
  | flush (bytes : List Byte) (s : State) : LinkRun s (flushBytes bytes s)
  | read (b : Nat) (s : State) : LinkRun s (hardRead b s)
  | trans {s t u : State} (h1 : LinkRun s t) (h2 : LinkRun t u) : LinkRun s u

theorem SameLink.refl (s : State) : SameLink s s := ⟨rfl, rfl, rfl, rfl⟩

theorem sameLink_softWrite (b : Nat) (v : Bool) (s : State) : SameLink s (pwmDisable b (writeWr b v s)) := by
  rw [pwmDisable_eq]; exact ⟨rfl, rfl, rfl, rfl⟩

theorem sameLink_beginCycle (now : Nat) (s : State) : SameLink s (beginCycle now s) := by
  rw [beginCycle_eq]; exact ⟨rfl, rfl, rfl, rfl⟩

theorem linkRun_hardWrite (b : Nat) (v : Bool) (s : State) : LinkRun s (flushCache (pwmDisable b (writeWr b v s))) :=
  .trans (.same (sameLink_softWrite b v s)) (.flush _ _)

theorem linkRun_hardReadAll (is : List Nat) (s : State) : LinkRun s (hardReadAll is s) := by
  induction is generalizing s with
  | nil => exact .same (.refl s)
  | cons i is ih => exact .trans (.read i s) (ih _)

theorem linkRun_pwmDrive (i : Nat) (g : Track) (s : State) : LinkRun s (pwmDrive i g s) :=
  .trans (.same (t := writeWr i (decide (g = .on)) s) ⟨rfl, rfl, rfl, rfl⟩)
    (.trans (.flush _ _) (.same ⟨rfl, rfl, rfl, rfl⟩))

theorem linkRun_tickPin (e : Nat) (s : State) (i : Nat) : LinkRun s (tickPin e s i) := by
  cases hd : drivenPin e s i with
  | none => rw [tickPin_of_none hd]; exact .same (.refl s)
  | some p =>
    obtain ⟨-, -, -, he⟩ := tickPin_of_some hd
    rw [he]
    exact linkRun_pwmDrive i p.2 s

theorem linkRun_tickScan (e : Nat) (s : State) : LinkRun s (tickScan e s) := by
  unfold tickScan
  generalize List.range Config.pwmEntries = is
  induction is generalizing s with
  | nil => exact .same (.refl s)
  | cons i is ih => exact .trans (linkRun_tickPin e s i) (ih _)

/-- Whatever a command does to the link, it does by flushes and hard reads. -/
theorem effect_linkRun (i : Instr) (s : State) : LinkRun s (effect i s) := by
  cases i with
  | setcap | setmode | rsoft | getw | bwbegin | brend | setfreq | enroll | unenroll => exact .same ⟨rfl, rfl, rfl, rfl⟩
  | wsoft b v => exact .same (sameLink_softWrite b v s)
  | whard b v => exact linkRun_hardWrite b v s
  | flush => exact .flush _ s
  | bwend => exact .trans (.flush (wrBytes s) s) (.same ⟨rfl, rfl, rfl, rfl⟩)
  | rhard b => exact .read b s
  | rall => exact linkRun_hardReadAll _ s
  | brbegin => exact .trans (linkRun_hardReadAll (inputBits s) s) (.same ⟨rfl, rfl, rfl, rfl⟩)
  | writebit b v =>
    simp only [effect]
    split
    · exact .same (sameLink_softWrite b v s)
    · exact linkRun_hardWrite b v s
  | readbit b =>
    simp only [effect]
    split
    · exact .same (.refl s)
    · exact .read b s
  | tick t => exact .trans (.same (sameLink_beginCycle _ s)) (linkRun_tickScan _ _)

/-- So does its execution: a rejected command and a stuck block leave the link alone. -/
theorem exec_linkRun {i : Instr} {s t : State} (h : exec i s = .next t) : LinkRun s t := by
  obtain ⟨r, m, b, rfl | ⟨-, rfl⟩⟩ := exec_next_storage h
  · exact .same ⟨rfl, rfl, rfl, rfl⟩
  · exact .trans (effect_linkRun i s) (.same ⟨rfl, rfl, rfl, rfl⟩)

/-! ### The event sequence (20_memory.md R69, R73, R79) -/

theorem LinkRun.linkConsistent {s t : State} (h : LinkRun s t) (hs : s.LinkConsistent) : t.LinkConsistent := by
  induction h with
  | same h => exact linkConsistent_congr hs h.events h.chainOut h.lvl
  | flush bytes s => exact flushBytes_linkConsistent bytes hs
  | read b s => exact hardRead_linkConsistent b hs
  | trans _ _ ih1 ih2 => exact ih2 (ih1 hs)

/-- Settles O15: a step touches the link by a run of flushes and hard reads only, and each of these keeps it consistent. -/
theorem stepKeepsTheLinkConsistent : Obligations.StepKeepsTheLinkConsistent := by
  intro s t hs h
  rcases step_next h with rfl | ⟨k, rest, -, -, ⟨i, -, hx⟩ | ⟨e, -, rfl⟩⟩
  · exact hs
  · exact (exec_linkRun hx).linkConsistent (s := { s with commands := rest }) hs
  · exact hs

/-! ### Samples (20_memory.md R75) -/

@[simp] theorem sampledLevels_append (es fs : List LinkEvent) :
    sampledLevels (es ++ fs) = sampledLevels es ++ sampledLevels fs := List.filterMap_append

@[simp] theorem sampledLevels_flushEvents (bytes : List Byte) : sampledLevels (flushEvents bytes) = [] := by
  simp [sampledLevels, flushEvents]

theorem sampledLevels_hardReadEvents (b : Nat) (s : State) :
    sampledLevels (hardReadEvents b s) = [hardReadLevel b s] := by
  rw [hardReadEvents, sampledLevels_append, sampledLevels_flushEvents]; rfl

/-- The events from `s` to `t` sample the environment's next choices, and use up as many as they sample. -/
def SamplesNextChoices (s t : State) : Prop :=
  ∃ es, t.events = s.events ++ es ∧ t.senseLine = s.senseLine.drop (sampledLevels es).length ∧
    ∀ k l, k < (sampledLevels es).length → s.senseLine[k]? = some l → (sampledLevels es)[k]? = some l

/-- Events that sample nothing use up no choice. -/
theorem samplesNextChoices_of_no_sample {s t : State} {es : List LinkEvent} (hs : sampledLevels es = [])
    (he : t.events = s.events ++ es) (hl : t.senseLine = s.senseLine) : SamplesNextChoices s t :=
  ⟨es, he, by rw [hs, hl]; rfl, fun k l hk => by rw [hs] at hk; exact absurd hk (Nat.not_lt_zero k)⟩

theorem samplesNextChoices_hardRead (b : Nat) (s : State) : SamplesNextChoices s (hardRead b s) := by
  refine ⟨hardReadEvents b s, hardRead_events b s, ?_, fun k l hk hl => ?_⟩
  · rw [sampledLevels_hardReadEvents, hardRead_senseLine]; exact List.drop_one.symm
  · rw [sampledLevels_hardReadEvents] at hk ⊢
    obtain rfl : k = 0 := Nat.lt_one_iff.mp hk
    cases hc : s.senseLine with
    | nil => simp [hc] at hl
    | cons x xs =>
      rw [hc] at hl
      rw [hardReadLevel_of_cons b hc]
      exact hl

/-- Two runs in sequence: the second one's first choice is the one after the first one's last. -/
theorem SamplesNextChoices.trans {s t u : State} (h1 : SamplesNextChoices s t) (h2 : SamplesNextChoices t u) :
    SamplesNextChoices s u := by
  obtain ⟨es, he, hline, hlevel⟩ := h1
  obtain ⟨fs, hf, hline', hlevel'⟩ := h2
  refine ⟨es ++ fs, by rw [hf, he, List.append_assoc], by rw [hline', hline]; simp, fun k l hk hl => ?_⟩
  rw [sampledLevels_append] at hk ⊢
  by_cases hlt : k < (sampledLevels es).length
  · rw [List.getElem?_append_left hlt]
    exact hlevel k l hlt hl
  · have hle := Nat.not_lt.mp hlt
    rw [List.length_append] at hk
    rw [List.getElem?_append_right hle]
    apply hlevel' _ l (by omega)
    rw [hline, List.getElem?_drop, Nat.add_sub_cancel' hle]
    exact hl

theorem LinkRun.samplesNextChoices {s t : State} (h : LinkRun s t) : SamplesNextChoices s t := by
  induction h with
  | same h => exact samplesNextChoices_of_no_sample (es := []) rfl (by rw [h.events, List.append_nil]) h.senseLine
  | flush bytes s =>
    exact samplesNextChoices_of_no_sample (sampledLevels_flushEvents bytes) (flushBytes_events bytes s)
      (flushBytes_senseLine bytes s)
  | read b s => exact samplesNextChoices_hardRead b s
  | trans _ _ ih1 ih2 => exact ih1.trans ih2

/-- Settles O22: a command's events are those of a run of flushes and hard reads, and a hard read's one sample is the next
choice. -/
theorem theEnvironmentChoosesEverySample : Obligations.TheEnvironmentChoosesEverySample :=
  fun _ _ _ h => (exec_linkRun h).samplesNextChoices

/-! ### The chain after a command (20_memory.md R73, R80) -/

/-- Events were emitted from `s` to `t`, LATCH is High after them and the chain shows the write cache. -/
structure CacheLatched (s t : State) : Prop where
  events : t.events ≠ s.events
  latch : t.lvl.latch = .high
  chainOut : t.chainOut = bytesOf s.byteCount.toNat t.wr

/-- Events were emitted from `s` to `t`, LATCH is High after them and the chain shows an in-range bit's isolation pattern. -/
structure PatternLatched (s t : State) : Prop where
  events : t.events ≠ s.events
  latch : t.lvl.latch = .high
  chainOut : ∃ b < bitCount s, t.chainOut = isolationPattern s b

theorem flushCache_events_ne (s : State) : (flushCache s).events ≠ s.events := by
  rw [flushCache_events]
  exact fun h => List.cons_ne_nil _ _ (List.append_right_eq_self.mp h)

theorem cacheLatched_flushCache (s : State) : CacheLatched s (flushCache s) where
  events := flushCache_events_ne s
  latch := flushCache_latch s
  chainOut := by rw [flushCache_eq]; rfl

theorem cacheLatched_hardWrite (b : Nat) (v : Bool) (s : State) :
    CacheLatched s (flushCache (pwmDisable b (writeWr b v s))) := by
  obtain ⟨he, hl, hc⟩ := cacheLatched_flushCache (pwmDisable b (writeWr b v s))
  rw [pwmDisable_events] at he
  rw [pwmDisable_byteCount] at hc
  exact ⟨he, hl, hc⟩

theorem patternLatched_hardRead {b : Nat} {s : State} (hb : b < bitCount s) : PatternLatched s (hardRead b s) where
  events := (hardReadAll_link (is := [b]) s (List.cons_ne_nil b [])).1
  latch := hardRead_latch b s
  chainOut := ⟨b, hb, hardRead_chainOut b s⟩

/-- The hard reads of all input bits leave the last one's pattern on the chain; with no input bit they do nothing. -/
theorem hardReadInputs_cases (s : State) :
    SameLink s (hardReadAll (inputBits s) s) ∨ PatternLatched s (hardReadAll (inputBits s) s) := by
  by_cases hn : inputBits s = []
  · rw [hn]; exact Or.inl (.refl s)
  · obtain ⟨he, hl, -⟩ := hardReadAll_link s hn
    exact Or.inr ⟨he, hl, _, (mem_inputBits.mp (List.getLast_mem hn)).1, hardReadAll_chainOut s hn⟩

/-- A PWM scan that drives a pin leaves the write cache on the chain; one that drives none does nothing. -/
theorem tickScan_cases (e : Nat) (s : State) : tickScan e s = s ∨ CacheLatched s (tickScan e s) := by
  obtain ⟨-, hev, -, hnone, hsome⟩ := tickScan_closed_form e s
  by_cases hd : drivenPins e s = []
  · exact Or.inl (hnone hd)
  · obtain ⟨hc, hl⟩ := hsome hd
    refine Or.inr ⟨fun he => hd ?_, hl, hc⟩
    rw [he] at hev
    have hlen := driveEvents_length s.byteCount.toNat s.wr (drivenPins e s)
    rw [List.append_right_eq_self.mp hev.symm, List.length_nil] at hlen
    exact List.length_eq_zero_iff.mp ((Nat.mul_eq_zero.mp hlen.symm).resolve_right (Nat.succ_ne_zero _))

/-- What a command without an error leaves on the link: what was there, the write cache, or an isolation pattern. -/
theorem effect_link_cases {i : Instr} {s : State} (hn : reportedError i s = none) :
    SameLink s (effect i s) ∨
    (latchesWriteCache s i = true ∧ CacheLatched s (effect i s)) ∨
    (latchesPattern s i = true ∧ PatternLatched s (effect i s)) := by
  cases i with
  | setcap | setmode | rsoft | getw | bwbegin | brend | setfreq | enroll | unenroll => exact Or.inl ⟨rfl, rfl, rfl, rfl⟩
  | wsoft b v => exact Or.inl (sameLink_softWrite b v s)
  | whard b v => exact Or.inr (Or.inl ⟨rfl, cacheLatched_hardWrite b v s⟩)
  | flush => exact Or.inr (Or.inl ⟨rfl, cacheLatched_flushCache s⟩)
  | bwend => exact Or.inr (Or.inl ⟨rfl, { cacheLatched_flushCache s with }⟩)
  | rhard b => exact Or.inr (Or.inr ⟨rfl, patternLatched_hardRead (lt_bitCount_of_rangeCheck hn)⟩)
  | rall => exact (hardReadInputs_cases s).imp_right fun h => Or.inr ⟨rfl, h⟩
  | brbegin =>
    rcases hardReadInputs_cases s with h | h
    · exact Or.inl { h with }
    · exact Or.inr (Or.inr ⟨rfl, { h with }⟩)
  | writebit b v =>
    cases hw : s.wbActive with
    | true => simp only [effect, hw, if_true]; exact Or.inl (sameLink_softWrite b v s)
    | false =>
      simp only [effect, latchesWriteCache, hw, Bool.false_eq_true, if_false]
      exact Or.inr (Or.inl ⟨rfl, cacheLatched_hardWrite b v s⟩)
  | readbit b =>
    cases hr : s.rbActive with
    | true => simp only [effect, hr, if_true]; exact Or.inl (.refl s)
    | false =>
      simp only [effect, latchesPattern, hr, Bool.false_eq_true, if_false]
      exact Or.inr (Or.inr ⟨rfl, patternLatched_hardRead (lt_bitCount_of_rangeCheck hn)⟩)
  | tick t =>
    have hb := sameLink_beginCycle (operandNow s.cfg t) s
    simp only [effect]
    rcases tickScan_cases (tickElapsed (operandNow s.cfg t) s) (beginCycle (operandNow s.cfg t) s) with h | ⟨he, hl, hc⟩
    · rw [h]; exact Or.inl hb
    · rw [hb.events] at he
      rw [show (beginCycle (operandNow s.cfg t) s).byteCount = s.byteCount by rw [beginCycle_eq]] at hc
      exact Or.inr (Or.inl ⟨rfl, he, hl, hc⟩)

/-- The same of a command's next state. -/
theorem exec_link_cases {i : Instr} {s t : State} (h : exec i s = .next t) :
    SameLink s t ∨ (latchesWriteCache s i = true ∧ CacheLatched s t) ∨ (latchesPattern s i = true ∧ PatternLatched s t) := by
  obtain ⟨r, m, b, rfl | ⟨hn, rfl⟩⟩ := exec_next_storage h
  · exact Or.inl ⟨rfl, rfl, rfl, rfl⟩
  · rcases effect_link_cases hn with h | ⟨hi, h⟩ | ⟨hi, h⟩
    · exact Or.inl { h with }
    · exact Or.inr (Or.inl ⟨hi, { h with }⟩)
    · exact Or.inr (Or.inr ⟨hi, { h with }⟩)

/-- Settles O21: the link is as it was, or events left LATCH High and the chain as long as the buffer. -/
theorem theChainChangesOnlyByLinkEvents : Obligations.TheChainChangesOnlyByLinkEvents := by
  intro i s t h
  rcases exec_link_cases h with h | ⟨-, he, hl, hc⟩ | ⟨-, he, hl, b, -, hc⟩
  · exact ⟨fun _ => ⟨h.chainOut, h.lvl⟩, fun hne => absurd h.events hne⟩
  · exact ⟨fun heq => absurd heq he, fun _ => ⟨hl, by rw [hc, bytesOf_length]⟩⟩
  · exact ⟨fun heq => absurd heq he, fun _ => ⟨hl, by rw [hc, isolationPattern_length]⟩⟩

/-- Settles O30, by `exec_link_cases`: a latched write cache shows each of its bits. -/
theorem afterAFlushTheChainShowsEveryCacheBit : Obligations.AfterAFlushTheChainShowsEveryCacheBit := by
  intro i s t h hne
  rcases exec_link_cases h with h | ⟨hi, -, -, hc⟩ | ⟨hi, -, -, hc⟩
  · exact absurd h.events hne
  · exact Or.inl ⟨hi, fun j hj => by rw [hc]; exact listBit_bytesOf t.wr hj⟩
  · exact Or.inr ⟨hi, hc⟩

/-! ### Serial order (20_memory.md R64) -/

theorem shiftBits_length (b : Byte) : (shiftBits b).length = 8 := by simp [shiftBits]

theorem getElem?_shiftBits (b : Byte) {p : Nat} (hp : p < 8) : (shiftBits b)[p]? = some (b.getLsbD (7 - p)) := by
  simp [shiftBits, List.getElem?_range hp]

/-- A flush puts its bytes on the data line, one after another. -/
theorem serialBits_flushEvents (bytes : List Byte) : serialBits (flushEvents bytes) = bytes.flatMap shiftBits := by
  simp [serialBits, flushEvents, List.flatMap_map]

theorem length_flatMap_shiftBits (bytes : List Byte) : (bytes.flatMap shiftBits).length = 8 * bytes.length := by
  simp [List.length_flatMap, shiftBits_length, Nat.mul_comm]

/-- Serial position p falls in byte p div 8. -/
theorem getElem?_flatMap_shiftBits (bytes : List Byte) {p : Nat} (hp : p < 8 * bytes.length) :
    (bytes.flatMap shiftBits)[p]? = some ((bytes.getD (p / 8) 0#8).getLsbD (7 - p % 8)) := by
  induction bytes generalizing p with
  | nil => exact absurd hp (Nat.not_lt_zero p)
  | cons b bs ih =>
    rw [List.flatMap_cons]
    by_cases hlt : p < 8
    · rw [List.getElem?_append_left (by rwa [shiftBits_length]), getElem?_shiftBits b hlt, Nat.div_eq_of_lt hlt,
        Nat.mod_eq_of_lt hlt]
      rfl
    · obtain ⟨q, rfl⟩ := Nat.exists_eq_add_of_le' (Nat.not_lt.mp hlt)
      rw [List.length_cons] at hp
      rw [List.getElem?_append_right (by rw [shiftBits_length]; omega), shiftBits_length, Nat.add_sub_cancel,
        ih (by omega), Nat.add_div_right q (by omega), Nat.add_mod_right]
      rfl

/-- The same position as a logical bit (20_memory.md R63). -/
theorem getElem?_serialBits_flushEvents (bytes : List Byte) {p : Nat} (hp : p < 8 * bytes.length) :
    (serialBits (flushEvents bytes))[p]? = some (listBit bytes (8 * (p / 8) + 7 - p % 8)) := by
  have hbyte : byteOf (8 * (p / 8) + 7 - p % 8) = p / 8 := by unfold byteOf; omega
  have hoff : offOf (8 * (p / 8) + 7 - p % 8) = 7 - p % 8 := by unfold offOf; omega
  rw [serialBits_flushEvents, getElem?_flatMap_shiftBits bytes hp, listBit, hbyte, hoff]

/-- Settles O29: the first and the last serial bit are positions 0 and 8n - 1 of the general rule. -/
theorem aFlushIsSerialMsbFirstInBufferOrder : Obligations.AFlushIsSerialMsbFirstInBufferOrder := by
  intro bytes p
  refine ⟨by rw [serialBits_flushEvents, length_flatMap_shiftBits], fun hp => ⟨?_, ?_⟩, fun hne => ?_⟩
  · rw [serialBits_flushEvents, getElem?_flatMap_shiftBits bytes hp]
  · exact getElem?_serialBits_flushEvents bytes hp
  · have hpos : 0 < bytes.length := List.length_pos_iff.mpr hne
    have hlast : 8 * ((8 * bytes.length - 1) / 8) + 7 - (8 * bytes.length - 1) % 8 = 8 * bytes.length - 8 := by omega
    refine ⟨getElem?_serialBits_flushEvents bytes (by omega), ?_⟩
    rw [getElem?_serialBits_flushEvents bytes (by omega), hlast]

/-! ### Hung primitives (20_memory.md R77, 70_reset_and_hazards.md R288) -/

theorem step_isNext (s : State) : ∃ t, step s = .next t := by
  by_cases hs : s.commands = [] ∨ s.linkStuck = true
  · exact ⟨s, step_hold hs⟩
  · rw [not_or] at hs
    obtain ⟨k, rest, hc⟩ := List.exists_cons_of_ne_nil hs.1
    rw [step_of_command (Bool.eq_false_of_not_eq_true hs.2) hc]
    cases decode k with
    | ok i => exact exec_isNext i _
    | error e => exact ⟨_, rfl⟩

/-- A command on a reliable link leaves the link reliable and the block running. -/
theorem exec_keeps_reliable {i : Instr} {s t : State} (hl : s.LinkReliable) (hr : s.Running) (h : exec i s = .next t) :
    t.LinkReliable ∧ t.Running := by
  obtain ⟨-, -, -, hhang, hstuck⟩ := effect_fixed i s
  rcases exec_next h with ⟨e, -, -, rfl⟩ | ⟨-, m, hm, rfl⟩ | ⟨-, -, n, hn, -⟩
  · exact ⟨hl, hr⟩
  · exact ⟨(hm hl).trans (hhang.trans hl), hstuck.trans hr⟩
  · rw [hl] at hn; cases hn

/-- Settles O10: a step holds its state, runs a command or rejects a word, and each of these has a next state. -/
theorem stepNeverStops : Obligations.StepNeverStops := by
  refine ⟨step_isNext, fun s t hl hr h => ?_⟩
  rcases step_next h with rfl | ⟨k, rest, -, -, ⟨i, -, hx⟩ | ⟨e, -, rfl⟩⟩
  · exact ⟨hl, hr⟩
  · exact exec_keeps_reliable (s := { s with commands := rest }) hl hr hx
  · exact ⟨hl, hr⟩

/-- Where n more primitives complete, a command that invokes at most n completes and one that invokes more is stuck. -/
theorem complete_of_hang {s : State} {n : Nat} (t : State) (d : Bool) (hn : s.linkHangsAfter = some n) :
    (t.events.length - s.events.length ≤ n →
      complete s t d =
        .next (respond .ok d { t with linkHangsAfter := some (n - (t.events.length - s.events.length)) })) ∧
    (n < t.events.length - s.events.length → complete s t d = .next (stall s)) := by
  simp only [complete, hn]
  exact ⟨fun h => if_pos h, fun h => if_neg (Nat.not_le.mpr h)⟩

/-- A command's outcome where n more primitives complete, from its outcome `u` where all do. -/
theorem exec_of_hang {i : Instr} {s u : State} {n : Nat} (hn : s.linkHangsAfter = some n)
    (hu : exec i { s with linkHangsAfter := none } = .next u) :
    (u.events.length - s.events.length ≤ n →
      exec i s = .next { u with linkHangsAfter := some (n - (u.events.length - s.events.length)) }) ∧
    (n < u.events.length - s.events.length → exec i s = .next (stall s)) := by
  rcases exec_cases i s with ⟨e, he, -, hx⟩ | ⟨hno, hx⟩
  · rw [exec_of_error ((reportedError_hang none i s).trans he)] at hu
    injection hu with hu
    subst hu
    simp only [respond_events, Nat.sub_self, Nat.sub_zero, Nat.not_lt_zero, false_implies, and_true]
    intro _
    rw [hx, raise, ← hn]
    rfl
  · rw [exec_of_no_error rfl ((reportedError_hang none i s).trans hno), effect_hang, returned_hang] at hu
    injection hu with hu
    subst hu
    rw [hx]
    exact complete_of_hang (effect i s) (returned i s) hn

theorem run_of_stuck {s : State} (h : s.linkStuck = true) (n : Nat) : Host.Core.run Sys2Proof.core n s = .next s := by
  induction n with
  | zero => rfl
  | succ n ih =>
    have hstep : Sys2Proof.core.step s = .next s := step_hold (Or.inr h)
    simp only [Host.Core.run, hstep]
    exact ih

/-- Settles O11: `exec_of_hang` compares the two environments, and a stuck block takes no command. -/
theorem aHungPrimitiveLeavesTheBlockStuck : Obligations.AHungPrimitiveLeavesTheBlockStuck :=
  ⟨fun _ _ _ _ hn hu => exec_of_hang hn hu, fun _ n h => run_of_stuck h n⟩

end Sys2Proof.Machine
end

section
/-! The statements of 30_encoding.md about words and commands. The decoder is said once, by the opcode map
(`decodesAsRow_of_mem`, `decode_of_unassigned`), the match under a format's mask by the fields (`masked_eq_iff`), and the
mnemonics once per format (`NamesFA` to `NamesFBD`). -/

namespace Sys2Proof.Machine

/-! ### The decoder by the rows of the opcode map (30_encoding.md R92, R97, R99) -/

/-- The name of the error for a must-be-0 field that is not 0: BIT, where the format reserves it, comes before VAL. -/
def reservedError (f : Format) (c : Word) : DecodeError :=
  match f with
  | .fn => if bitField c ≠ 0 then .reservedBit else .reservedVal
  | .fa => if bitField c ≠ 0 then .reservedBit else .reservedVal
  | .fb => .reservedVal
  | .fbv => .reservedVal
  | .fbd => .reservedVal

/-- `i` is a command of the row `r` and `k` encodes it, up to the argument word that only format FA reads. -/
structure CommandOfRow (r : OpcodeRow) (k : Command) (i : Instr) : Prop where
  mnemonic : r.mnemonic = i.mnemonic
  format : r.format = i.format
  wf : i.wf = true
  encode : encode i = { c := k.c, a := if r.format = .fa then k.a else 0 }

/-- The decoder reads `k` as a command of the row `r` if the must-be-0 fields are 0, and rejects it if not. -/
structure DecodesAsRow (r : OpcodeRow) (k : Command) : Prop where
  ok : reservedZero r.format k.c = true → ∃ i, decode k = .ok i ∧ CommandOfRow r k i
  error : reservedZero r.format k.c = false → decode k = .error (reservedError r.format k.c)

theorem fitsBit_bitField (c : Word) : fitsBit (bitField c) = true := by
  rw [fitsBit, bitField_eq, decide_eq_true_iff]; omega

theorem fitsArg_toNat (a : Word) : fitsArg a.toNat = true := decide_eq_true a.isLt

theorem reservedZero_fn {c : Word} (h : reservedZero .fn c = true) : bitField c = 0 ∧ valField c = 0 := by
  simpa [reservedZero] using h

theorem decodeFN_of_reservedZero {k : Command} (i : Instr) (h : reservedZero .fn k.c = true) : decodeFN k i = .ok i := by
  obtain ⟨hb, hv⟩ := reservedZero_fn h
  simp [decodeFN, hb, hv]

theorem decodeFN_of_reserved {k : Command} (i : Instr) (h : reservedZero .fn k.c = false) :
    decodeFN k i = .error (reservedError .fn k.c) := by
  by_cases hb : bitField k.c = 0
  · have hv : valField k.c ≠ 0 := by simpa [reservedZero, hb] using h
    simp [decodeFN, reservedError, hb, hv]
  · simp [decodeFN, reservedError, hb]

/-- VAL of a word of format FBV is the VAL of the value read from it. -/
theorem valOfBit_decide {n : Nat} (h : n < 2) : valOfBit (decide (n % 2 = 1)) = n := by
  obtain rfl | rfl : n = 0 ∨ n = 1 := by omega
  · rfl
  · rfl

/-! One lemma per format; `mk` gives the row's command from its operands. Formats FN and FA reserve the same fields, and
`decodeFA` is `decodeFN` of the command with its argument. -/

section Formats

variable {op : Nat} {name : String} {k : Command} (ho : opField k.c = op)
include ho

theorem decodesAsRow_fn (i : Instr) (hd : decode k = decodeFN k i)
    (hi : i.mnemonic = name ∧ i.format = .fn ∧ i.wf = true ∧ encode i = wordCommand op 0 0) :
    DecodesAsRow ⟨op, name, .fn⟩ k where
  ok h := by
    obtain ⟨hb, hv⟩ := reservedZero_fn h
    obtain ⟨hm, hf, hw, he⟩ := hi
    have hword := commandWord_fields k.c
    rw [ho, hb, hv] at hword
    exact ⟨i, hd.trans (decodeFN_of_reservedZero i h), hm.symm, hf.symm, hw, by rw [he, wordCommand, hword]; rfl⟩
  error h := hd.trans (decodeFN_of_reserved i h)

theorem decodesAsRow_fa (mk : Nat → Instr) (hd : decode k = decodeFA k mk)
    (hi : ∀ n, (mk n).mnemonic = name ∧ (mk n).format = .fa ∧ (mk n).wf = fitsArg n ∧
      encode (mk n) = argCommand op n) :
    DecodesAsRow ⟨op, name, .fa⟩ k where
  ok h := by
    obtain ⟨hb, hv⟩ := reservedZero_fn h
    obtain ⟨hm, hf, hw, he⟩ := hi k.a.toNat
    have hword := commandWord_fields k.c
    rw [ho, hb, hv] at hword
    exact ⟨mk k.a.toNat, hd.trans (decodeFN_of_reservedZero _ h), hm.symm, hf.symm, hw.trans (fitsArg_toNat _),
      by rw [he, argCommand, hword, BitVec.ofNat_toNat, BitVec.setWidth_eq]; rfl⟩
  error h := hd.trans (decodeFN_of_reserved (mk k.a.toNat) h)

theorem decodesAsRow_fb (mk : Nat → Instr) (hd : decode k = decodeFB k mk)
    (hi : ∀ b, (mk b).mnemonic = name ∧ (mk b).format = .fb ∧ (mk b).wf = fitsBit b ∧
      encode (mk b) = wordCommand op b 0) :
    DecodesAsRow ⟨op, name, .fb⟩ k where
  ok h := by
    have hv : valField k.c = 0 := of_decide_eq_true h
    obtain ⟨hm, hf, hw, he⟩ := hi (bitField k.c)
    have hword := commandWord_fields k.c
    rw [ho, hv] at hword
    exact ⟨mk (bitField k.c), by simp [hd, decodeFB, hv], hm.symm, hf.symm, hw.trans (fitsBit_bitField _),
      by rw [he, wordCommand, hword]; rfl⟩
  error h := by
    have hv : valField k.c ≠ 0 := by simpa [reservedZero] using h
    simp [hd, decodeFB, reservedError, hv]

theorem decodesAsRow_fbv (mk : Nat → Bool → Instr) (hd : decode k = decodeFBV k mk)
    (hi : ∀ b v, (mk b v).mnemonic = name ∧ (mk b v).format = .fbv ∧ (mk b v).wf = fitsBit b ∧
      encode (mk b v) = wordCommand op b (valOfBit v)) :
    DecodesAsRow ⟨op, name, .fbv⟩ k where
  ok h := by
    have hv : valField k.c < 2 := of_decide_eq_true h
    obtain ⟨hm, hf, hw, he⟩ := hi (bitField k.c) (decide (valField k.c % 2 = 1))
    have hword := commandWord_fields k.c
    rw [ho] at hword
    refine ⟨_, ?_, hm.symm, hf.symm, hw.trans (fitsBit_bitField _), ?_⟩
    · rw [hd, decodeFBV, valHigh_eq, valLow_eq, Nat.div_eq_of_lt hv]
      rfl
    · rw [he, wordCommand, valOfBit_decide hv, hword]; rfl
  error h := by
    have hv : 2 ≤ valField k.c := Nat.not_lt.mp (of_decide_eq_false h)
    have hhigh : valField k.c / 2 ≠ 0 := by omega
    simp [hd, decodeFBV, reservedError, valHigh_eq, hhigh]

theorem decodesAsRow_fbd (mk : Nat → Nat → Instr) (hd : decode k = decodeFBD k mk)
    (hi : ∀ b d, (mk b d).mnemonic = name ∧ (mk b d).format = .fbd ∧ (mk b d).wf = (fitsBit b && fitsDuty d) ∧
      encode (mk b d) = wordCommand op b d) :
    DecodesAsRow ⟨op, name, .fbd⟩ k where
  ok h := by
    have hv : valField k.c < 256 := of_decide_eq_true h
    have hduty : fitsDuty (valField k.c) = true := decide_eq_true (Nat.le_of_lt_succ hv)
    obtain ⟨hm, hf, hw, he⟩ := hi (bitField k.c) (valField k.c)
    rw [fitsBit_bitField, hduty] at hw
    have hword := commandWord_fields k.c
    rw [ho] at hword
    refine ⟨_, ?_, hm.symm, hf.symm, hw, by rw [he, wordCommand, hword]; rfl⟩
    rw [hd, decodeFBD, dutyHigh_eq, dutyLow_eq, Nat.div_eq_of_lt hv, Nat.mod_eq_of_lt hv]
    rfl
  error h := by
    have hv : 256 ≤ valField k.c := Nat.not_lt.mp (of_decide_eq_false h)
    have hhigh : valField k.c / 256 ≠ 0 := by omega
    simp [hd, decodeFBD, reservedError, dutyHigh_eq, hhigh]

end Formats

/-- A word whose OP is that of a row decodes as that row. -/
theorem decodesAsRow_of_mem {r : OpcodeRow} (hr : r ∈ opcodeMap) {k : Command} (ho : opField k.c = r.op) :
    DecodesAsRow r k := by
  simp only [opcodeMap, bitBufferRows, transactionRows, pwmRows, List.cons_append, List.nil_append, List.mem_cons,
    List.not_mem_nil, or_false] at hr
  rcases hr with rfl | rfl | rfl | rfl | rfl | rfl | rfl | rfl | rfl | rfl | rfl | rfl | rfl | rfl | rfl | rfl | rfl |
    rfl | rfl
  · exact decodesAsRow_fa ho .setcap (by simp only [decode, ho]) fun _ => ⟨rfl, rfl, rfl, rfl⟩
  · exact decodesAsRow_fbv ho .setmode (by simp only [decode, ho]) fun _ _ => ⟨rfl, rfl, rfl, rfl⟩
  · exact decodesAsRow_fbv ho .wsoft (by simp only [decode, ho]) fun _ _ => ⟨rfl, rfl, rfl, rfl⟩
  · exact decodesAsRow_fbv ho .whard (by simp only [decode, ho]) fun _ _ => ⟨rfl, rfl, rfl, rfl⟩
  · exact decodesAsRow_fn ho .flush (by simp only [decode, ho]) ⟨rfl, rfl, rfl, rfl⟩
  · exact decodesAsRow_fb ho .rhard (by simp only [decode, ho]) fun _ => ⟨rfl, rfl, rfl, rfl⟩
  · exact decodesAsRow_fb ho .rsoft (by simp only [decode, ho]) fun _ => ⟨rfl, rfl, rfl, rfl⟩
  · exact decodesAsRow_fb ho .getw (by simp only [decode, ho]) fun _ => ⟨rfl, rfl, rfl, rfl⟩
  · exact decodesAsRow_fn ho .rall (by simp only [decode, ho]) ⟨rfl, rfl, rfl, rfl⟩
  · exact decodesAsRow_fn ho .bwbegin (by simp only [decode, ho]) ⟨rfl, rfl, rfl, rfl⟩
  · exact decodesAsRow_fn ho .bwend (by simp only [decode, ho]) ⟨rfl, rfl, rfl, rfl⟩
  · exact decodesAsRow_fn ho .brbegin (by simp only [decode, ho]) ⟨rfl, rfl, rfl, rfl⟩
  · exact decodesAsRow_fn ho .brend (by simp only [decode, ho]) ⟨rfl, rfl, rfl, rfl⟩
  · exact decodesAsRow_fbv ho .writebit (by simp only [decode, ho]) fun _ _ => ⟨rfl, rfl, rfl, rfl⟩
  · exact decodesAsRow_fb ho .readbit (by simp only [decode, ho]) fun _ => ⟨rfl, rfl, rfl, rfl⟩
  · exact decodesAsRow_fa ho .setfreq (by simp only [decode, ho]) fun _ => ⟨rfl, rfl, rfl, rfl⟩
  · exact decodesAsRow_fbd ho .enroll (by simp only [decode, ho]) fun _ _ => ⟨rfl, rfl, rfl, rfl⟩
  · exact decodesAsRow_fb ho .unenroll (by simp only [decode, ho]) fun _ => ⟨rfl, rfl, rfl, rfl⟩
  · exact decodesAsRow_fa ho .tick (by simp only [decode, ho]) fun _ => ⟨rfl, rfl, rfl, rfl⟩

/-- The assigned OP values (30_encoding.md R97, R99). -/
def assignedOps : List Nat := opcodeMap.map OpcodeRow.op

theorem mem_assignedOps_iff {op : Nat} :
    op ∈ assignedOps ↔ 0x01 ≤ op ∧ op ≤ 0x09 ∨ 0x10 ≤ op ∧ op ≤ 0x15 ∨ 0x20 ≤ op ∧ op ≤ 0x23 := by
  simp [assignedOps, opcodeMap, bitBufferRows, transactionRows, pwmRows]; omega

theorem decode_of_unassigned {k : Command} (h : opField k.c ∉ assignedOps) : decode k = .error .unassignedOp := by
  unfold decode
  split
  case h_20 => rfl
  all_goals
    rename_i ho
    exact absurd (ho ▸ (by decide)) h

/-- Inversion: what decodes, decodes as the row with its OP. -/
theorem commandOfRow_of_decode {k : Command} {i : Instr} (h : decode k = .ok i) :
    ∃ r ∈ opcodeMap, r.op = opField k.c ∧ reservedZero r.format k.c = true ∧ CommandOfRow r k i := by
  by_cases hop : opField k.c ∈ assignedOps
  · obtain ⟨r, hr, ho⟩ := List.mem_map.mp hop
    have hd := decodesAsRow_of_mem hr ho.symm
    cases hz : reservedZero r.format k.c with
    | true =>
      obtain ⟨j, hj, hrow⟩ := hd.ok hz
      rw [h] at hj
      injection hj with hj
      exact ⟨r, hr, ho, hz, hj ▸ hrow⟩
    | false => rw [hd.error hz] at h; cases h
  · rw [decode_of_unassigned hop] at h; cases h

/-- Settles O1: `decode_encode`, and the row of what decodes gives its encoding back. -/
theorem decodeAndEncodeAgree : Obligations.DecodeAndEncodeAgree := by
  refine ⟨fun _ h => decode_encode h, fun k i h => ?_⟩
  obtain ⟨r, -, -, -, hrow⟩ := commandOfRow_of_decode h
  have he := hrow.encode
  rw [hrow.format] at he
  exact ⟨hrow.wf, by rw [he], fun hf => by rw [he, if_pos hf], fun hf => by rw [he, if_neg hf]; rfl⟩

/-! ### The match under a format's mask (30_encoding.md R98) -/

/-- A field of a masked word is the field under the mask's field. -/
theorem bitsOf_and (x y : Word) (hi lo : Nat) : bitsOf (x &&& y) hi lo = bitsOf x hi lo &&& bitsOf y hi lo := by
  simp only [bitsOf, BitVec.extractLsb_and, BitVec.toNat_and]

/-- Two words are the same if each field is. -/
theorem word_ext {x y : Word} (ho : opField x = opField y) (hb : bitField x = bitField y) (hv : valField x = valField y) :
    x = y := by
  rw [← commandWord_fields x, ← commandWord_fields y, ho, hb, hv]

theorem opField_lt (c : Word) : opField c < 256 := by rw [opField_eq]; omega

theorem bitField_lt (c : Word) : bitField c < 256 := by rw [bitField_eq]; omega

theorem valField_lt (c : Word) : valField c < 65536 := by rw [valField_eq]; omega

/-- A masked word is a match value exactly when its fields under the mask's fields are OP, 0 and 0. -/
theorem masked_eq_matchWord_iff {op : Nat} (ho : op < 256) (c m : Word) :
    c &&& m = BitVec.ofNat 32 (op * 2 ^ 24) ↔
      opField c &&& opField m = op ∧ bitField c &&& bitField m = 0 ∧ valField c &&& valField m = 0 := by
  have hword : BitVec.ofNat 32 (op * 2 ^ 24) = commandWord op 0 0 := by simp [commandWord]
  have hop : opField (c &&& m) = opField c &&& opField m := bitsOf_and c m 31 24
  have hbit : bitField (c &&& m) = bitField c &&& bitField m := bitsOf_and c m 23 16
  have hval : valField (c &&& m) = valField c &&& valField m := bitsOf_and c m 15 0
  rw [hword, ← hop, ← hbit, ← hval]
  constructor
  · intro h
    rw [h]
    exact ⟨opField_commandWord ho (by decide) (by decide), bitField_commandWord ho (by decide) (by decide),
      valField_commandWord ho (by decide) (by decide)⟩
  · rintro ⟨h1, h2, h3⟩
    apply word_ext
    · rw [h1, opField_commandWord ho (by decide) (by decide)]
    · rw [h2, bitField_commandWord ho (by decide) (by decide)]
    · rw [h3, valField_commandWord ho (by decide) (by decide)]

/-- The upper bits of a number are 0 exactly when it is small. -/
theorem and_upperBits_eq_zero_iff {n w x : Nat} (hx : x < 2 ^ n * 2 ^ w) :
    x &&& (2 ^ n - 1) * 2 ^ w = 0 ↔ x < 2 ^ w := by
  have hdiv : (x &&& (2 ^ n - 1) * 2 ^ w) / 2 ^ w = x / 2 ^ w := by
    rw [Nat.and_div_two_pow, Nat.mul_div_cancel _ (Nat.two_pow_pos w), Nat.and_two_pow_sub_one_eq_mod,
      Nat.mod_eq_of_lt (Nat.div_lt_of_lt_mul (by rwa [Nat.mul_comm] at hx))]
  have hmod : (x &&& (2 ^ n - 1) * 2 ^ w) % 2 ^ w = 0 := by
    rw [Nat.and_mod_two_pow, Nat.mul_mod_left, Nat.and_zero]
  constructor
  · intro h
    rw [h, Nat.zero_div] at hdiv
    exact Nat.lt_of_div_eq_zero (Nat.two_pow_pos w) hdiv.symm
  · intro h
    rw [Nat.div_eq_of_lt h] at hdiv
    rw [← Nat.div_add_mod (x &&& (2 ^ n - 1) * 2 ^ w) (2 ^ w), hdiv, hmod, Nat.mul_zero]

theorem opField_and_mask (f : Format) (c : Word) : opField c &&& opField f.mask = opField c := by
  have hm : opField f.mask = 2 ^ 8 - 1 := by cases f <;> decide
  rw [hm, Nat.and_two_pow_sub_one_of_lt_two_pow (opField_lt c)]

/-- The mask keeps the must-be-0 fields: they are 0 in the masked word exactly when they are 0. -/
theorem reservedZero_iff_masked (f : Format) (c : Word) :
    reservedZero f c = true ↔ bitField c &&& bitField f.mask = 0 ∧ valField c &&& valField f.mask = 0 := by
  have hbit : bitField c &&& 255 = bitField c := Nat.and_two_pow_sub_one_of_lt_two_pow (n := 8) (bitField_lt c)
  have hval : valField c &&& 65535 = valField c := Nat.and_two_pow_sub_one_of_lt_two_pow (n := 16) (valField_lt c)
  have hhigh : valField c &&& 65534 = 0 ↔ valField c < 2 := and_upperBits_eq_zero_iff (n := 15) (w := 1) (valField_lt c)
  have hduty : valField c &&& 65280 = 0 ↔ valField c < 256 := and_upperBits_eq_zero_iff (n := 8) (w := 8) (valField_lt c)
  cases f with
  | fn =>
    rw [show bitField Format.fn.mask = 255 by decide, show valField Format.fn.mask = 65535 by decide, hbit, hval]
    simp [reservedZero]
  | fa =>
    rw [show bitField Format.fa.mask = 255 by decide, show valField Format.fa.mask = 65535 by decide, hbit, hval]
    simp [reservedZero]
  | fb =>
    rw [show bitField Format.fb.mask = 0 by decide, show valField Format.fb.mask = 65535 by decide, hval]
    simp [reservedZero]
  | fbv =>
    rw [show bitField Format.fbv.mask = 0 by decide, show valField Format.fbv.mask = 65534 by decide, hhigh]
    simp [reservedZero]
  | fbd =>
    rw [show bitField Format.fbd.mask = 0 by decide, show valField Format.fbd.mask = 65280 by decide, hduty]
    simp [reservedZero]

theorem op_lt_of_mem {r : OpcodeRow} (hr : r ∈ opcodeMap) : r.op < 256 :=
  (by decide : ∀ r ∈ opcodeMap, r.op < 256) r hr

/-- A word matches a row under the mask exactly when it has the row's OP and its must-be-0 fields are 0. -/
theorem masked_eq_iff {r : OpcodeRow} (hr : r ∈ opcodeMap) (c : Word) :
    c &&& r.format.mask = BitVec.ofNat 32 (r.op * 2 ^ 24) ↔ opField c = r.op ∧ reservedZero r.format c = true := by
  rw [masked_eq_matchWord_iff (op_lt_of_mem hr), opField_and_mask, reservedZero_iff_masked]

theorem matches_iff {r : OpcodeRow} (hr : r ∈ opcodeMap) (c : Word) :
    r.matches c = true ↔ opField c = r.op ∧ reservedZero r.format c = true := by
  rw [← masked_eq_iff hr, OpcodeRow.matches, beq_iff_eq, OpcodeRow.matchWord]

/-- No OP stands in two rows. -/
theorem row_eq_of_op_eq : ∀ r ∈ opcodeMap, ∀ r' ∈ opcodeMap, r.op = r'.op → r = r' := by decide

/-- Settles O2: a match is the row's OP with the must-be-0 fields 0 (`masked_eq_iff`), which is what decodes as the row. -/
theorem decoderSelectsTheMatchingRow : Obligations.DecoderSelectsTheMatchingRow := by
  have hselects (k : Command) (i : Instr) (h : decode k = .ok i) :
      ∃ r ∈ opcodeMap, k.c &&& r.format.mask = BitVec.ofNat 32 (r.op * 2 ^ 24) ∧ r.op = opField k.c ∧
        r.mnemonic = i.mnemonic ∧ r.format = i.format := by
    obtain ⟨r, hr, ho, hz, hrow⟩ := commandOfRow_of_decode h
    exact ⟨r, hr, (masked_eq_iff hr k.c).mpr ⟨ho.symm, hz⟩, ho, hrow.mnemonic, hrow.format⟩
  refine ⟨fun k => ⟨fun ⟨i, h⟩ => ?_, fun ⟨r, hr, hm⟩ => ?_⟩, hselects, fun r hr r' hr' c h h' => ?_,
    rfl, rfl, rfl, rfl, rfl, fun k => ?_⟩
  · obtain ⟨r, hr, hm, -⟩ := hselects k i h
    exact ⟨r, hr, hm⟩
  · obtain ⟨ho, hz⟩ := (masked_eq_iff hr k.c).mp hm
    obtain ⟨i, hi, -⟩ := (decodesAsRow_of_mem hr ho).ok hz
    exact ⟨i, hi⟩
  · exact row_eq_of_op_eq r hr r' hr' (((matches_iff hr c).mp h).1.symm.trans ((matches_iff hr' c).mp h').1)
  · cases hd : decode k with
    | ok i => exact Or.inl ⟨i, rfl⟩
    | error e => exact Or.inr ⟨e, rfl⟩

/-! ### Illegal words (30_encoding.md R99) -/

/-- A word that has a row's OP and a must-be-0 field that is not 0 is rejected, with the field named. -/
theorem decode_of_reserved {f : Format} {k : Command} (hrow : ∃ r ∈ opcodeMap, r.op = opField k.c ∧ r.format = f)
    (hz : reservedZero f k.c = false) : decode k = .error (reservedError f k.c) := by
  obtain ⟨r, hr, hop, rfl⟩ := hrow
  exact (decodesAsRow_of_mem hr hop.symm).error hz

/-- The OPs of formats FN and FA, in which BIT and VAL must be 0. -/
theorem row_of_op_fn_fa : ∀ op ∈ [0x01, 0x05, 0x09, 0x10, 0x11, 0x12, 0x13, 0x20, 0x23],
    (∃ r ∈ opcodeMap, r.op = op ∧ r.format = .fn) ∨ ∃ r ∈ opcodeMap, r.op = op ∧ r.format = .fa := by decide

theorem row_of_op_fb : ∀ op ∈ [0x06, 0x07, 0x08, 0x15, 0x22],
    ∃ r ∈ opcodeMap, r.op = op ∧ r.format = .fb := by decide

theorem row_of_op_fbv : ∀ op ∈ [0x02, 0x03, 0x04, 0x14], ∃ r ∈ opcodeMap, r.op = op ∧ r.format = .fbv := by decide

theorem row_of_op_fbd : ∀ op ∈ [0x21], ∃ r ∈ opcodeMap, r.op = op ∧ r.format = .fbd := by decide

/-- The errors of formats FN and FA. -/
theorem decode_of_reserved_fn_fa {k : Command} (ho : opField k.c ∈ [0x01, 0x05, 0x09, 0x10, 0x11, 0x12, 0x13, 0x20, 0x23])
    (h : bitField k.c ≠ 0 ∨ valField k.c ≠ 0) :
    decode k = .error .reservedBit ∨ decode k = .error .reservedVal := by
  have hz : (decide (bitField k.c = 0) && decide (valField k.c = 0)) = false := by
    simpa only [Bool.and_eq_false_iff, decide_eq_false_iff_not] using h
  have herr : decode k = .error (reservedError .fn k.c) := by
    rcases row_of_op_fn_fa _ ho with hrow | hrow
    · exact decode_of_reserved hrow hz
    · have hfa : decode k = .error (reservedError .fa k.c) := decode_of_reserved hrow hz
      exact hfa
  by_cases hb : bitField k.c = 0
  · exact Or.inr (by simpa [reservedError, hb] using herr)
  · exact Or.inl (by simpa [reservedError, hb] using herr)

theorem step_of_illegal {s : State} {k : Command} {rest : List Command} {e : DecodeError} (hr : s.Running)
    (hc : s.commands = k :: rest) (hd : decode k = .error e) :
    step s = .next { s with commands := rest, responses := s.responses ++ [{ status := .illegal, data := false }] } := by
  rw [step_of_command hr hc, hd]; rfl

/-- Settles O3: an unassigned OP has no row, and an assigned one is rejected by its row's format. -/
theorem illegalWordsAreRejected : Obligations.IllegalWordsAreRejected := by
  refine ⟨fun k h => ?_, fun _ ho h => decode_of_reserved_fn_fa ho h, fun k ho h => ?_, fun k ho h => ?_, fun k ho h => ?_,
    fun a => ?_, fun _ _ _ _ hr hc hd => step_of_illegal hr hc hd⟩
  · apply decode_of_unassigned
    rw [mem_assignedOps_iff]
    omega
  · exact decode_of_reserved (row_of_op_fb _ ho) (decide_eq_false h)
  · exact decode_of_reserved (row_of_op_fbv _ ho) (decide_eq_false (Nat.not_lt.mpr h))
  · exact decode_of_reserved (row_of_op_fbd _ (List.mem_singleton.mpr ho)) (decide_eq_false (Nat.not_lt.mpr h))
  · exact decode_of_unassigned (show opField 0#32 ∉ assignedOps by decide)

/-! ### Words written out -/

/-- Settles O4: each word's fields are computed. -/
theorem writtenOutWordsDecode : Obligations.WrittenOutWordsDecode := by
  unfold Obligations.WrittenOutWordsDecode
  decide

/-! ### One command, one response (30_encoding.md R90) -/

/-- A command takes no other command, appends its events and keeps the parameters. -/
theorem exec_frame {i : Instr} {s t : State} (h : exec i s = .next t) :
    t.commands = s.commands ∧ (∃ es, t.events = s.events ++ es) ∧ t.cfg = s.cfg := by
  obtain ⟨r, m, b, rfl | ⟨-, rfl⟩⟩ := exec_next_storage h
  · exact ⟨rfl, ⟨[], (List.append_nil _).symm⟩, rfl⟩
  · obtain ⟨hcfg, hcommands, -⟩ := effect_fixed i s
    exact ⟨hcommands, effect_events i s, hcfg⟩

/-- A command gives one response and leaves the block running, or gives none and leaves it stuck. -/
theorem exec_response {i : Instr} {s t : State} (hr : s.Running) (h : exec i s = .next t) :
    (t.Running ∧ ∃ r, t.responses = s.responses ++ [r]) ∨ (t.linkStuck = true ∧ t.responses = s.responses) := by
  obtain ⟨-, -, hresponses, -, hstuck⟩ := effect_fixed i s
  rcases exec_next h with ⟨e, -, -, rfl⟩ | ⟨-, m, -, rfl⟩ | ⟨-, rfl, -⟩
  · exact Or.inl ⟨hr, _, rfl⟩
  · exact Or.inl ⟨hstuck.trans hr, _, by rw [← hresponses]; rfl⟩
  · exact Or.inr ⟨rfl, rfl⟩

/-- Settles O9: a step takes the command from the list and runs it or rejects its word. -/
theorem everyCommandGivesOneResponse : Obligations.EveryCommandGivesOneResponse := by
  intro s t k rest hr hc h
  rw [step_of_command hr hc] at h
  cases hd : decode k with
  | ok i =>
    rw [hd] at h
    obtain ⟨hcommands, hevents, hcfg⟩ := exec_frame h
    rcases exec_response (s := { s with commands := rest }) hr h with ⟨hrun, hone⟩ | ⟨hstuck, hnone⟩
    · exact ⟨hcommands, fun _ => hone, fun hs => absurd (hs.symm.trans hrun) (by decide), hevents, hcfg⟩
    · exact ⟨hcommands, fun hrun => absurd (hstuck.symm.trans hrun) (by decide), fun _ => hnone, hevents, hcfg⟩
  | error e =>
    rw [hd] at h
    injection h with h
    subst h
    exact ⟨rfl, fun _ => ⟨_, rfl⟩, fun hstuck => absurd (hstuck.symm.trans hr) (by decide),
      ⟨[], (List.append_nil _).symm⟩, rfl⟩

/-! ### The assembler's commands (30_encoding.md R102, R103) -/

/-- The assembler accepts what the parts name, if its operands fit. -/
theorem assembleParts_eq_some_iff {m : String} {ns : List Nat} {i : Instr} :
    assembleParts m ns = some i ↔ instrOfParts m ns = some i ∧ i.wf = true := by
  rw [assembleParts]
  cases instrOfParts m ns with
  | none => simp
  | some j =>
    simp only [Option.ite_none_right_eq_some, Option.some.injEq]
    exact ⟨fun ⟨hw, he⟩ => ⟨he, he ▸ hw⟩, fun ⟨he, hw⟩ => ⟨he ▸ hw, he⟩⟩

theorem wf_of_assembleLine {line : List Char} {i : Instr} (h : assembleLine line = some i) : i.wf = true := by
  simp only [assembleLine] at h
  split at h
  · exact (assembleParts_eq_some_iff.mp h).2
  · cases h

theorem fitsBit_of_le {b : Nat} (h : b ≤ 255) : fitsBit b = true := decide_eq_true h

/-- Settles O5: the assembler checks `Instr.wf` last, and `decode_encode` gives the rest; an expansion is a list of commands
with the operands given. -/
theorem assemblerEmitsDecodableCommands : Obligations.AssemblerEmitsDecodableCommands := by
  refine ⟨fun _ _ h => decode_encode (wf_of_assembleLine h), fun _ _ _ h => decode_encode (assembleParts_eq_some_iff.mp h).2,
    fun _ => ⟨rfl, rfl⟩, fun _ => rfl, fun _ _ => rfl, fun _ => rfl, fun _ => rfl, fun b hb => ?_, fun n hn => ?_,
    fun b hb d hd => ?_, fun ws hws => ?_, fun bs hbs => ?_⟩
  · have hbit := fitsBit_of_le hb
    simp [Pseudo.expand, Instr.wf, hbit]
  · have harg : fitsArg n = true := decide_eq_true hn
    simp [Pseudo.expand, Instr.wf, harg]
  · have hbit := fitsBit_of_le hb
    have hduty : fitsDuty d = true := decide_eq_true hd
    simp [Pseudo.expand, Instr.wf, hbit, hduty]
  · have hwrites : ∀ i ∈ ws.map fun w => Instr.writebit w.1 w.2, i.wf = true :=
      List.forall_mem_map.mpr fun w hw => fitsBit_of_le (hws w hw)
    rw [Pseudo.expand, List.cons_append, List.forall_mem_cons, List.forall_mem_append, List.forall_mem_singleton]
    exact ⟨rfl, hwrites, rfl⟩
  · have hreads : ∀ i ∈ bs.map fun b => Instr.readbit b, i.wf = true :=
      List.forall_mem_map.mpr fun b hb => fitsBit_of_le (hbs b hb)
    rw [Pseudo.expand, List.cons_append, List.forall_mem_cons, List.forall_mem_append, List.forall_mem_singleton]
    exact ⟨rfl, hreads, rfl⟩

/-! #### The mnemonic table -/

/-- A command word as its fields put together bit by bit (30_encoding.md R102). -/
theorem commandWord_eq_or {op b v : Nat} (hb : b < 256) (hv : v < 65536) :
    commandWord op b v = BitVec.ofNat 32 (op * 2 ^ 24) ||| BitVec.ofNat 32 b <<< 16 ||| BitVec.ofNat 32 v := by
  have hlow : b * 2 ^ 16 + v = b * 2 ^ 16 ||| v := by
    rw [Nat.mul_comm]; exact Nat.two_pow_add_eq_or_of_lt hv b
  have hhigh : op * 2 ^ 24 + (b * 2 ^ 16 + v) = op * 2 ^ 24 ||| (b * 2 ^ 16 + v) := by
    rw [Nat.mul_comm op]; exact Nat.two_pow_add_eq_or_of_lt (by omega) op
  have hshift : BitVec.ofNat 32 b <<< 16 = BitVec.ofNat 32 (b * 2 ^ 16) := by
    apply BitVec.eq_of_toNat_eq
    simp [Nat.shiftLeft_eq]
  rw [commandWord, Nat.add_assoc, hhigh, hlow, hshift, BitVec.ofNat_or, BitVec.ofNat_or, BitVec.or_assoc]

theorem assembles_of {m : String} {ns : List Nat} {i : Instr} {c a : Word} (hi : instrOfParts m ns = some i)
    (hw : i.wf = true) (he : encode i = { c := c, a := a }) : Assembles m ns c a := by
  rw [Assembles, assembleParts_eq_some_iff.mpr ⟨hi, hw⟩, Option.map_some, he]

/-! One structure per format with operands: `m` names the commands `mk` gives, whose OP is `op`. -/

structure NamesFA (m : String) (op : Nat) (mk : Nat → Instr) : Prop where
  parts : ∀ n, instrOfParts m [n] = some (mk n)
  wf : ∀ n, (mk n).wf = fitsArg n
  encode : ∀ n, encode (mk n) = argCommand op n

structure NamesFB (m : String) (op : Nat) (mk : Nat → Instr) : Prop where
  parts : ∀ b, instrOfParts m [b] = some (mk b)
  wf : ∀ b, (mk b).wf = fitsBit b
  encode : ∀ b, encode (mk b) = wordCommand op b 0

structure NamesFBV (m : String) (op : Nat) (mk : Nat → Bool → Instr) : Prop where
  parts : ∀ b v, instrOfParts m [b, v] = (valueOperand v).map (mk b)
  wf : ∀ b v, (mk b v).wf = fitsBit b
  encode : ∀ b v, encode (mk b v) = wordCommand op b (valOfBit v)

structure NamesFBD (m : String) (op : Nat) (mk : Nat → Nat → Instr) : Prop where
  parts : ∀ b d, instrOfParts m [b, d] = some (mk b d)
  wf : ∀ b d, (mk b d).wf = (fitsBit b && fitsDuty d)
  encode : ∀ b d, encode (mk b d) = wordCommand op b d

theorem namesFA_setcap : NamesFA "SETCAP" 0x01 .setcap := ⟨fun _ => by simp [instrOfParts], fun _ => rfl, fun _ => rfl⟩
theorem namesFA_setbitcount : NamesFA "SETBITCOUNT" 0x01 .setcap :=
  ⟨fun _ => by simp [instrOfParts], fun _ => rfl, fun _ => rfl⟩
theorem namesFA_setfreq : NamesFA "SETFREQ" 0x20 .setfreq := ⟨fun _ => by simp [instrOfParts], fun _ => rfl, fun _ => rfl⟩
theorem namesFA_tick : NamesFA "TICK" 0x23 .tick := ⟨fun _ => by simp [instrOfParts], fun _ => rfl, fun _ => rfl⟩

theorem namesFB_rhard : NamesFB "RHARD" 0x06 .rhard := ⟨fun _ => by simp [instrOfParts], fun _ => rfl, fun _ => rfl⟩
theorem namesFB_rsoft : NamesFB "RSOFT" 0x07 .rsoft := ⟨fun _ => by simp [instrOfParts], fun _ => rfl, fun _ => rfl⟩
theorem namesFB_getw : NamesFB "GETW" 0x08 .getw := ⟨fun _ => by simp [instrOfParts], fun _ => rfl, fun _ => rfl⟩
theorem namesFB_readbit : NamesFB "READBIT" 0x15 .readbit := ⟨fun _ => by simp [instrOfParts], fun _ => rfl, fun _ => rfl⟩
theorem namesFB_unenroll : NamesFB "UNENROLL" 0x22 .unenroll :=
  ⟨fun _ => by simp [instrOfParts], fun _ => rfl, fun _ => rfl⟩

theorem namesFBV_setmode : NamesFBV "SETMODE" 0x02 .setmode :=
  ⟨fun _ _ => by simp [instrOfParts], fun _ _ => rfl, fun _ _ => rfl⟩
theorem namesFBV_wsoft : NamesFBV "WSOFT" 0x03 .wsoft := ⟨fun _ _ => by simp [instrOfParts], fun _ _ => rfl, fun _ _ => rfl⟩
theorem namesFBV_whard : NamesFBV "WHARD" 0x04 .whard := ⟨fun _ _ => by simp [instrOfParts], fun _ _ => rfl, fun _ _ => rfl⟩
theorem namesFBV_writebit : NamesFBV "WRITEBIT" 0x14 .writebit :=
  ⟨fun _ _ => by simp [instrOfParts], fun _ _ => rfl, fun _ _ => rfl⟩

theorem namesFBD_enroll : NamesFBD "ENROLL" 0x21 .enroll :=
  ⟨fun _ _ => by simp [instrOfParts], fun _ _ => rfl, fun _ _ => rfl⟩
theorem namesFBD_writepwm : NamesFBD "WRITEPWM" 0x21 .enroll :=
  ⟨fun _ _ => by simp [instrOfParts], fun _ _ => rfl, fun _ _ => rfl⟩

theorem assembleParts_eq_none {m : String} {ns : List Nat} {i : Instr} (hi : instrOfParts m ns = some i)
    (hw : i.wf = false) : assembleParts m ns = none := by simp [assembleParts, hi, hw]

theorem fitsBit_of_gt {b : Nat} (h : 255 < b) : fitsBit b = false := decide_eq_false (Nat.not_le.mpr h)

section

variable {m : String} {op : Nat}

theorem NamesFA.assembles {mk : Nat → Instr} (h : NamesFA m op mk) {n : Nat} (hn : n < 2 ^ 32) :
    Assembles m [n] (BitVec.ofNat 32 (op * 2 ^ 24)) (BitVec.ofNat 32 n) :=
  assembles_of (h.parts n) ((h.wf n).trans (decide_eq_true hn)) (by simp [h.encode n, argCommand, commandWord])

theorem NamesFA.rejects {mk : Nat → Instr} (h : NamesFA m op mk) (n : Nat) (hn : 2 ^ 32 - 1 < n) :
    assembleParts m [n] = none :=
  assembleParts_eq_none (h.parts n) ((h.wf n).trans (decide_eq_false (by omega)))

theorem NamesFB.assembles {mk : Nat → Instr} (h : NamesFB m op mk) {b : Nat} (hb : b ≤ 255) :
    Assembles m [b] (BitVec.ofNat 32 (op * 2 ^ 24) ||| BitVec.ofNat 32 b <<< 16) 0#32 := by
  refine assembles_of (h.parts b) ((h.wf b).trans (fitsBit_of_le hb)) ?_
  rw [h.encode b, wordCommand, commandWord_eq_or (Nat.lt_succ_of_le hb) (by decide), BitVec.or_zero]
  rfl

theorem NamesFB.rejects {mk : Nat → Instr} (h : NamesFB m op mk) (b : Nat) (hb : 255 < b) : assembleParts m [b] = none :=
  assembleParts_eq_none (h.parts b) ((h.wf b).trans (fitsBit_of_gt hb))

theorem NamesFBV.assembles {mk : Nat → Bool → Instr} (h : NamesFBV m op mk) {b v : Nat} (hb : b ≤ 255) (hv : v ≤ 1) :
    Assembles m [b, v] (BitVec.ofNat 32 (op * 2 ^ 24) ||| BitVec.ofNat 32 b <<< 16 ||| BitVec.ofNat 32 v) 0#32 := by
  obtain ⟨x, hx, hval⟩ : ∃ x, valueOperand v = some x ∧ valOfBit x = v := by
    rcases Nat.le_one_iff_eq_zero_or_eq_one.mp hv with rfl | rfl
    · exact ⟨false, rfl, rfl⟩
    · exact ⟨true, rfl, rfl⟩
  refine assembles_of (i := mk b x) (by rw [h.parts, hx, Option.map_some]) ((h.wf b x).trans (fitsBit_of_le hb)) ?_
  rw [h.encode b x, hval, wordCommand, commandWord_eq_or (Nat.lt_succ_of_le hb) (by omega)]
  rfl

theorem NamesFBV.rejects {mk : Nat → Bool → Instr} (h : NamesFBV m op mk) (b v : Nat) (hbv : 255 < b ∨ 1 < v) :
    assembleParts m [b, v] = none := by
  cases hx : valueOperand v with
  | none => simp [assembleParts, h.parts b v, hx]
  | some x =>
    have hv : ¬ 1 < v := fun hlt => by simp [valueOperand, show v ≠ 0 by omega, show v ≠ 1 by omega] at hx
    exact assembleParts_eq_none (i := mk b x) (by rw [h.parts, hx, Option.map_some])
      ((h.wf b x).trans (fitsBit_of_gt (hbv.resolve_right hv)))

theorem NamesFBD.assembles {mk : Nat → Nat → Instr} (h : NamesFBD m op mk) {b d : Nat} (hb : b ≤ 255) (hd : d ≤ 255) :
    Assembles m [b, d] (BitVec.ofNat 32 (op * 2 ^ 24) ||| BitVec.ofNat 32 b <<< 16 ||| BitVec.ofNat 32 d) 0#32 := by
  have hduty : fitsDuty d = true := decide_eq_true hd
  refine assembles_of (h.parts b d) (by rw [h.wf, fitsBit_of_le hb, hduty]; rfl) ?_
  rw [h.encode b d, wordCommand, commandWord_eq_or (Nat.lt_succ_of_le hb) (by omega)]
  rfl

theorem NamesFBD.rejects {mk : Nat → Nat → Instr} (h : NamesFBD m op mk) (b d : Nat) (hbd : 255 < b ∨ 255 < d) :
    assembleParts m [b, d] = none := by
  refine assembleParts_eq_none (h.parts b d) ?_
  rw [h.wf, Bool.and_eq_false_iff]
  exact hbd.imp fitsBit_of_gt fun hd => decide_eq_false (Nat.not_le.mpr hd)

end

/-- Settles O6: a mnemonic without operands has one word, and the others assemble and reject by their formats. -/
theorem theAssemblerEncodesTheMnemonicTable : Obligations.TheAssemblerEncodesTheMnemonicTable := by
  simp only [Obligations.TheAssemblerEncodesTheMnemonicTable, List.forall_mem_cons, List.not_mem_nil, false_implies,
    implies_true, and_true]
  refine ⟨fun b hb v hv d hd n hn => ?_, ?_, ?_, ?_, ?_⟩
  · exact ⟨namesFA_setcap.assembles hn, namesFBV_setmode.assembles hb hv, namesFBV_wsoft.assembles hb hv,
      namesFBV_whard.assembles hb hv, assembles_of (i := .flush) (by simp [instrOfParts]) rfl rfl,
      namesFB_rhard.assembles hb, namesFB_rsoft.assembles hb, namesFB_getw.assembles hb,
      assembles_of (i := .rall) (by simp [instrOfParts]) rfl rfl,
      assembles_of (i := .bwbegin) (by simp [instrOfParts]) rfl rfl,
      assembles_of (i := .bwend) (by simp [instrOfParts]) rfl rfl,
      assembles_of (i := .brbegin) (by simp [instrOfParts]) rfl rfl,
      assembles_of (i := .brend) (by simp [instrOfParts]) rfl rfl,
      namesFBV_writebit.assembles hb hv, namesFB_readbit.assembles hb, namesFA_setfreq.assembles hn,
      namesFBD_enroll.assembles hb hd, namesFB_unenroll.assembles hb, namesFA_tick.assembles hn,
      namesFA_setbitcount.assembles hn, namesFBD_writepwm.assembles hb hd⟩
  · exact ⟨namesFBV_setmode.rejects, namesFBV_wsoft.rejects, namesFBV_whard.rejects, namesFBV_writebit.rejects⟩
  · exact ⟨namesFBD_enroll.rejects, namesFBD_writepwm.rejects⟩
  · exact ⟨namesFB_rhard.rejects, namesFB_rsoft.rejects, namesFB_getw.rejects, namesFB_readbit.rejects,
      namesFB_unenroll.rejects⟩
  · exact ⟨namesFA_setcap.rejects, namesFA_setbitcount.rejects, namesFA_setfreq.rejects, namesFA_tick.rejects⟩

end Sys2Proof.Machine
end

section
/-! The statements of 30_encoding.md about lines of assembly text (R102, R103). -/

namespace Sys2Proof.Machine

/-! ### White space and separators -/

/-- No white space at either end. -/
def Trimmed (cs : List Char) : Prop :=
  (∀ c ∈ cs.head?, isBlank c = false) ∧ ∀ c ∈ cs.getLast?, isBlank c = false

theorem trimBlank_of_trimmed {cs : List Char} (h : Trimmed cs) : trimBlank cs = cs := by
  obtain ⟨hhead, hlast⟩ := h
  have hdrop : cs.dropWhile isBlank = cs := by
    cases cs with
    | nil => rfl
    | cons c cs => exact List.dropWhile_cons_of_neg (by simpa using hhead)
  have hdropLast : cs.reverse.dropWhile isBlank = cs.reverse := by
    rw [← List.head?_reverse] at hlast
    cases hrev : cs.reverse with
    | nil => rfl
    | cons c ds => exact List.dropWhile_cons_of_neg (by simpa [hrev] using hlast)
  rw [trimBlank, hdrop, hdropLast, List.reverse_reverse]

/-- What starts with a blank is trimmed like the text after it. -/
theorem trimBlank_blank_cons (cs : List Char) : trimBlank (' ' :: cs) = trimBlank cs := rfl

theorem PlainText.notBlank {cs : List Char} (h : PlainText cs) : ∀ c ∈ cs, isBlank c = false := fun c hc => (h c hc).1

theorem PlainText.noComma {cs : List Char} (h : PlainText cs) : ',' ∉ cs := fun hc => (h ',' hc).2.1 rfl

theorem PlainText.noComment {cs : List Char} (h : PlainText cs) : ';' ∉ cs := fun hc => (h ';' hc).2.2 rfl

theorem PlainText.trimmed {cs : List Char} (h : PlainText cs) : Trimmed cs :=
  ⟨fun c hc => h.notBlank c (List.mem_of_mem_head? hc), fun c hc => h.notBlank c (List.mem_of_mem_getLast? hc)⟩

theorem PlainText.trimBlank {cs : List Char} (h : PlainText cs) : trimBlank cs = cs := trimBlank_of_trimmed h.trimmed

/-- Text between two trimmed texts leaves the whole trimmed. -/
theorem trimmed_append {p q : List Char} (mid : List Char) (hp : Trimmed p) (hq : Trimmed q) (hp0 : p ≠ []) (hq0 : q ≠ []) :
    Trimmed (p ++ (mid ++ q)) := by
  constructor
  · rw [List.head?_append_of_ne_nil _ hp0]
    exact hp.1
  · rw [List.getLast?_append_of_ne_nil _ (List.append_ne_nil_of_right_ne_nil mid hq0),
      List.getLast?_append_of_ne_nil _ hq0]
    exact hq.2

theorem splitAtChar_ne_nil (sep : Char) (cs : List Char) : splitAtChar sep cs ≠ [] := by
  cases cs with
  | nil => exact List.cons_ne_nil _ _
  | cons c cs =>
    rw [splitAtChar]
    split
    · exact List.cons_ne_nil _ _
    · split <;> exact List.cons_ne_nil _ _

theorem splitAtChar_sep (sep : Char) (cs : List Char) : splitAtChar sep (sep :: cs) = [] :: splitAtChar sep cs := by
  rw [splitAtChar]
  cases h : splitAtChar sep cs with
  | nil => exact absurd h (splitAtChar_ne_nil sep cs)
  | cons p ps => simp

theorem splitAtChar_cons_of_ne {sep c : Char} {cs p : List Char} {ps : List (List Char)} (hc : c ≠ sep)
    (h : splitAtChar sep cs = p :: ps) : splitAtChar sep (c :: cs) = (c :: p) :: ps := by
  simp [splitAtChar, h, hc]

theorem splitAtChar_of_notMem {sep : Char} {cs : List Char} (h : sep ∉ cs) : splitAtChar sep cs = [cs] := by
  induction cs with
  | nil => rfl
  | cons c cs ih =>
    rw [List.mem_cons, not_or] at h
    exact splitAtChar_cons_of_ne (Ne.symm h.1) (ih h.2)

/-- The part before the first separator, and the parts after it. -/
theorem splitAtChar_append {sep : Char} {cs : List Char} (ds : List Char) (h : sep ∉ cs) :
    splitAtChar sep (cs ++ sep :: ds) = cs :: splitAtChar sep ds := by
  induction cs with
  | nil => exact splitAtChar_sep sep ds
  | cons c cs ih =>
    rw [List.mem_cons, not_or] at h
    exact splitAtChar_cons_of_ne (Ne.symm h.1) (ih h.2)

/-! ### Operands -/

theorem operandTexts_one {px : List Char} (m : String) (hp : PlainText px) (h0 : px ≠ []) : operandTexts m px = [px] := by
  obtain ⟨c, cs, rfl⟩ := List.exists_cons_of_ne_nil h0
  rw [operandTexts, splitAtChar_of_notMem hp.noComma, List.map_singleton, hp.trimBlank]

/-- The text that stands for the second operand `w`: SETMODE reads direction words (30_encoding.md R103). -/
def valueText (m : String) (w : List Char) : List Char := if m = "SETMODE" then directionWord w else w

theorem operandTexts_two {px w : List Char} (m : String) (hx : PlainText px) (hw : PlainText w) :
    operandTexts m (px ++ ',' :: ' ' :: w) = [px, valueText m w] := by
  have hcomma : ',' ∉ ' ' :: w := by
    rw [List.mem_cons, not_or]; exact ⟨by decide, hw.noComma⟩
  have hparts : (splitAtChar ',' (px ++ ',' :: ' ' :: w)).map trimBlank = [px, w] := by
    rw [splitAtChar_append _ hx.noComma, splitAtChar_of_notMem hcomma, List.map_cons, List.map_singleton,
      trimBlank_blank_cons, hx.trimBlank, hw.trimBlank]
  rw [operandTexts, hparts, valueText]
  by_cases hm : m = "SETMODE" <;> cases px <;> simp [hm]

/-- A number is no direction word. -/
theorem valueText_of_number {w : List Char} {n : Nat} (m : String) (h : parseNumber w = some n) : valueText m w = w := by
  have hin : w ≠ ['i', 'n'] := fun hw => by rw [hw] at h; cases h
  have hout : w ≠ ['o', 'u', 't'] := fun hw => by rw [hw] at h; cases h
  rw [valueText, directionWord, if_neg hin, if_neg hout, ite_self]

theorem ne_nil_of_number {cs : List Char} {n : Nat} (h : parseNumber cs = some n) : cs ≠ [] :=
  fun hcs => by rw [hcs] at h; cases h

theorem parseNumbers_cons {p : List Char} {ps : List (List Char)} {n : Nat} {ns : List Nat} (hp : PlainText p)
    (hn : parseNumber p = some n) (hns : parseNumbers ps = some ns) : parseNumbers (p :: ps) = some (n :: ns) := by
  rw [parseNumbers, hp.trimBlank, hn, hns]

/-! ### Lines -/

theorem takeWhile_comment {line : List Char} (h : ';' ∉ line) : line.takeWhile (fun c => c != ';') = line :=
  List.takeWhile_eq_self_iff.mpr fun c hc => by simpa using fun hcs : c = ';' => h (hcs ▸ hc)

/-- A comment counts for nothing. -/
theorem assembleLine_comment (line comment : List Char) : assembleLine (line ++ ';' :: comment) = assembleLine line := by
  have hcode : (line ++ ';' :: comment).takeWhile (fun c => c != ';') = line.takeWhile (fun c => c != ';') := by
    induction line with
    | nil => rfl
    | cons c cs ih => simp only [List.cons_append, List.takeWhile_cons, ih]
  rw [assembleLine, hcode, assembleLine]

/-- How a line without a comment is read: its mnemonic is the text before the first blank, its operands the rest. -/
theorem assembleLine_of_texts {m rest : List Char} {ns : List Nat} (hm : PlainText m) (hrest : ';' ∉ rest)
    (htrim : Trimmed (m ++ rest)) (hblank : ∀ c ∈ rest.head?, isBlank c = true)
    (hns : parseNumbers (operandTexts (String.ofList m) (trimBlank rest)) = some ns) :
    assembleLine (m ++ rest) = assembleParts (String.ofList m) ns := by
  have hcode : trimBlank ((m ++ rest).takeWhile (fun c => c != ';')) = m ++ rest := by
    rw [takeWhile_comment (by simp [hm.noComment, hrest]), trimBlank_of_trimmed htrim]
  have hname : ∀ c ∈ m, (!isBlank c) = true := fun c hc => by rw [hm.notBlank c hc]; rfl
  have htake : (m ++ rest).takeWhile (fun c => !isBlank c) = m := by
    rw [List.takeWhile_append_of_pos hname]
    cases rest with
    | nil => exact List.append_nil m
    | cons c cs => simp [hblank c rfl]
  have hdrop : (m ++ rest).dropWhile (fun c => !isBlank c) = rest := by
    rw [List.dropWhile_append_of_pos hname]
    cases rest with
    | nil => rfl
    | cons c cs => simp [hblank c rfl]
  simp only [assembleLine, hcode, htake, hdrop, hns]

theorem assembleLine_mnemonic {m : List Char} (hm : PlainText m) : assembleLine m = assembleParts (String.ofList m) [] := by
  have h := assembleLine_of_texts (rest := []) (ns := []) hm List.not_mem_nil (by rw [List.append_nil]; exact hm.trimmed)
    (fun _ hc => by cases hc) rfl
  rwa [List.append_nil] at h

theorem assembleLine_operands {m ops : List Char} {ns : List Nat} (hm : PlainText m) (hm0 : m ≠ []) (hops : ';' ∉ ops)
    (htrim : Trimmed ops) (hops0 : ops ≠ []) (hns : parseNumbers (operandTexts (String.ofList m) ops) = some ns) :
    assembleLine (m ++ ' ' :: ops) = assembleParts (String.ofList m) ns := by
  refine assembleLine_of_texts hm ?_ (trimmed_append [' '] hm.trimmed htrim hm0 hops0) ?_ ?_
  · rw [List.mem_cons, not_or]; exact ⟨by decide, hops⟩
  · intro c hc
    obtain rfl : ' ' = c := by simpa using hc
    rfl
  · rw [trimBlank_blank_cons, trimBlank_of_trimmed htrim]
    exact hns

theorem assembleLine_one {m px : List Char} {x : Nat} (hm0 : m ≠ []) (hm : PlainText m) (hp : PlainText px)
    (hx : parseNumber px = some x) : assembleLine (m ++ ' ' :: px) = assembleParts (String.ofList m) [x] := by
  have hx0 := ne_nil_of_number hx
  refine assembleLine_operands hm hm0 hp.noComment hp.trimmed hx0 ?_
  rw [operandTexts_one _ hp hx0]
  exact parseNumbers_cons hp hx rfl

theorem assembleLine_two {m px w : List Char} {x y : Nat} (hm0 : m ≠ []) (hm : PlainText m) (hp : PlainText px)
    (hw : PlainText w) (hw0 : w ≠ []) (hx : parseNumber px = some x) (hv : PlainText (valueText (String.ofList m) w))
    (hy : parseNumber (valueText (String.ofList m) w) = some y) :
    assembleLine (m ++ ' ' :: (px ++ ',' :: ' ' :: w)) = assembleParts (String.ofList m) [x, y] := by
  refine assembleLine_operands hm hm0 ?_ (trimmed_append [',', ' '] hp.trimmed hw.trimmed (ne_nil_of_number hx) hw0)
    (by simp) ?_
  · simp [hp.noComment, hw.noComment]
  · rw [operandTexts_two _ hp hw]
    exact parseNumbers_cons hp hx (parseNumbers_cons hv hy rfl)

/-- A direction word in the place of SETMODE's value operand (30_encoding.md R103). -/
theorem assembleLine_setmode {px w v : List Char} {x y : Nat} (hp : PlainText px) (hx : parseNumber px = some x)
    (hw : PlainText w) (hw0 : w ≠ []) (hd : directionWord w = v) (hv : PlainText v) (hy : parseNumber v = some y) :
    assembleLine ("SETMODE".toList ++ ' ' :: (px ++ ',' :: ' ' :: w)) = assembleParts "SETMODE" [x, y] := by
  have hm : PlainText "SETMODE".toList := by simp [PlainText, isBlank]
  have hvalue : valueText (String.ofList "SETMODE".toList) w = v := by
    rw [String.ofList_toList, valueText, if_pos rfl, hd]
  have h := assembleLine_two (by simp) hm hp hw hw0 hx (hvalue ▸ hv) (hvalue ▸ hy)
  rwa [String.ofList_toList] at h

/-! ### Numbers -/

theorem digitsValue_append {base v : Nat} {ds : List Char} (acc : Nat) (es : List Char)
    (h : digitsValue base acc ds = some v) : digitsValue base acc (ds ++ es) = digitsValue base v es := by
  induction ds generalizing acc with
  | nil => injection h with h; rw [h]; rfl
  | cons d ds ih =>
    rw [List.cons_append, digitsValue]
    rw [digitsValue] at h
    cases hd : digitValue base d with
    | none => rw [hd] at h; cases h
    | some u => rw [hd] at h; exact ih _ h

/-- The digits of a number write it, in a base whose digits are read as their values. -/
theorem digitsValue_toDigits {base : Nat} (h1 : 1 < base) (hdigit : ∀ d < base, digitValue base d.digitChar = some d)
    (n : Nat) : digitsValue base 0 (Nat.toDigits base n) = some n := by
  induction n using Nat.strong_induction_on with
  | h n ih =>
    rw [Nat.toDigits_eq_if h1]
    split
    · rename_i hn
      simp [digitsValue, hdigit n hn]
    · rename_i hn
      have hlt : n / base < n := Nat.div_lt_self (by omega) h1
      rw [digitsValue_append 0 _ (ih _ hlt), digitsValue, hdigit _ (Nat.mod_lt n (by omega))]
      simp only [digitsValue, Nat.div_add_mod']

/-- Decimal digits do not begin with `0x`, which is no decimal number. -/
theorem parseNumber_of_decimal {ds : List Char} {n : Nat} (h0 : ds ≠ []) (h : digitsValue 10 0 ds = some n) :
    parseNumber ds = some n := by
  unfold parseNumber
  split
  · exact absurd rfl h0
  · cases h
  · cases h
  · exact h

theorem parseNumber_of_hex {ds : List Char} {n : Nat} (h0 : ds ≠ []) (h : digitsValue 16 0 ds = some n) :
    parseNumber ('0' :: 'x' :: ds) = some n := by
  cases ds with
  | nil => exact absurd rfl h0
  | cons d ds => exact h

/-- Settles O7: a line without a comment splits at its first blank and its comma, and a number's digits write it. -/
theorem theAssemblerReadsOneCommandPerLine : Obligations.TheAssemblerReadsOneCommandPerLine := by
  refine ⟨assembleLine_comment, fun m px py x y hm0 hm hp hq hx hy => ?_, fun px x hp hx => ⟨?_, ?_⟩,
    fun n => ⟨?_, ?_⟩⟩
  · have hvalue := valueText_of_number (String.ofList m) hy
    exact ⟨assembleLine_mnemonic hm, assembleLine_one hm0 hm hp hx,
      assembleLine_two hm0 hm hp hq (ne_nil_of_number hy) hx (hvalue.symm ▸ hq) (hvalue.symm ▸ hy)⟩
  · have hword : PlainText ['i', 'n'] := by simp [PlainText, isBlank]
    have hdigit : PlainText ['1'] := by simp [PlainText, isBlank]
    have h := assembleLine_setmode (y := 1) hp hx hword (by decide) rfl hdigit (by decide)
    simpa using h
  · have hword : PlainText ['o', 'u', 't'] := by simp [PlainText, isBlank]
    have hdigit : PlainText ['0'] := by simp [PlainText, isBlank]
    have h := assembleLine_setmode (y := 0) hp hx hword (by decide) rfl hdigit (by decide)
    simpa using h
  · exact parseNumber_of_decimal Nat.toDigits_ne_nil (digitsValue_toDigits (by decide) (by decide) n)
  · exact parseNumber_of_hex Nat.toDigits_ne_nil (digitsValue_toDigits (by decide) (by decide) n)

end Sys2Proof.Machine
end

section
/-! The statements of 40_bit_buffer.md. A command's rejections come from `reportedError` (`rejected_of_error`). Its next
state is its effect with the response, and one lemma per operation says that the effect is what the statement names:
`softWritten_softWrite`, `hardWritten_hardWrite`, `hardlyRead_hardRead`. -/

namespace Sys2Proof.Machine

/-! ### Rejections and range checks (60_exceptions.md R241, R243) -/

theorem rejected_of_error {i : Instr} {s : State} {e : Status} (h : reportedError i s = some e) :
    Rejected (exec i s) e s :=
  exec_of_error h

/-- A range check passes for a bit in range. -/
theorem rangeCheck_of_lt {s : State} {b : Nat} (hb : b < bitCount s) (o : Option Status) :
    (if decide (8 * s.byteCount.toNat ≤ b) = true then some Status.address else o) = o := by
  simp [inRange_decide hb]

/-- A range check reports E_ADDRESS for a bit out of range. -/
theorem rangeCheck_of_ge {s : State} {b : Nat} (hb : bitCount s ≤ b) (o : Option Status) :
    (if decide (8 * s.byteCount.toNat ≤ b) = true then some Status.address else o) = some .address := by
  simp [outOfRange_decide hb]

/-! ### The shared operations, field by field -/

@[simp] theorem flushCache_chainOut (s : State) : (flushCache s).chainOut = wrBytes s := rfl
@[simp] theorem flushCache_wr (s : State) : (flushCache s).wr = s.wr := flushBytes_wr (wrBytes s) s
@[simp] theorem flushCache_duty (s : State) : (flushCache s).duty = s.duty := flushBytes_duty (wrBytes s) s

theorem dutyAt_congr {s t : State} (h : t.duty = s.duty) (j : Nat) : dutyAt t j = dutyAt s j := by
  unfold dutyAt; rw [h]

theorem trackAt_congr {s t : State} (h : t.track = s.track) (j : Nat) : trackAt t j = trackAt s j := by
  unfold trackAt; rw [h]

@[simp] theorem dutyAt_respond (st : Status) (d : Bool) (s : State) (j : Nat) :
    dutyAt (respond st d s) j = dutyAt s j := rfl

@[simp] theorem dutyAt_flushCache (s : State) (j : Nat) : dutyAt (flushCache s) j = dutyAt s j :=
  dutyAt_congr (flushCache_duty s) j

/-- The frame of a flush of the write cache. -/
theorem flushCache_frame (s : State) :
    flushCache s = { s with
      chainOut := (flushCache s).chainOut, events := (flushCache s).events, lvl := (flushCache s).lvl
      draws := (flushCache s).draws } := by
  rw [flushCache_events]
  exact flushCache_eq s

/-! ### Configuration (40_bit_buffer.md R121, R123) -/

/-- Settles O24: the new byteCount is n div 8, which 5 bits hold, and every array is replaced by one of equal entries. -/
theorem setcapConfiguresAndZeroes : Obligations.SetcapConfiguresAndZeroes := by
  refine ⟨commandForm_fa fun k ho => by simp [decode, ho], fun n s hle hmod => ?_, fun n s hbad => ?_⟩
  · have hcount : (BitVec.ofNat 5 (n / 8)).toNat = n / 8 := by
      rw [BitVec.toNat_ofNat, Nat.mod_eq_of_lt (by omega)]
    have hno : reportedError (.setcap n) s = none := if_neg (by omega)
    refine ⟨_, exec_of_no_event hno rfl, ?_, hcount, fun k _ => ⟨byteAt_zero k, byteAt_zero k, byteAt_zero k⟩,
      fun i hi => ?_, rfl⟩
    · simp only [bitCount, effect, respond_byteCount, hcount]
      omega
    · rw [trackAt_of_lt _ hi]
      simp [effect]
  · exact rejected_of_error (if_pos hbad)

/-- Settles O25: a direction write is `bitRead_bitWrite` on the direction mask. -/
theorem setmodeWritesOneDirectionBit : Obligations.SetmodeWritesOneDirectionBit :=
  ⟨commandForm_fbv fun k ho => by simp [decode, ho],
    fun _ v s hn hb =>
      ⟨_, exec_of_no_event (rangeCheck_of_lt hb none) rfl, fun j => bitRead_bitWrite s.dir j v (lt_capacity hn hb), rfl⟩,
    fun _ _ _ hb => rejected_of_error (rangeCheck_of_ge hb none)⟩

/-! ### Ordinary writes (40_bit_buffer.md R125, R127) -/

theorem bitRead_softWrite {b : Nat} (v : Bool) (s : State) (hb : b < 128) (j : Nat) :
    bitRead (pwmDisable b (writeWr b v s)).wr j = if j = b then v else bitRead s.wr j := by
  rw [pwmDisable_wr]
  exact bitRead_bitWrite s.wr j v hb

theorem dutyAt_softWrite (b : Nat) (v : Bool) (s : State) (j : Nat) :
    dutyAt (pwmDisable b (writeWr b v s)) j = if j = b then .disabled else dutyAt s j :=
  dutyAt_pwmDisable b j (writeWr b v s)

/-- The frame of a soft write: it changes the write cache and the duty table, and nothing else. -/
theorem softWrite_frame (b : Nat) (v : Bool) (s : State) :
    pwmDisable b (writeWr b v s) =
      { s with wr := (pwmDisable b (writeWr b v s)).wr, duty := (pwmDisable b (writeWr b v s)).duty } := by
  rw [pwmDisable_wr]
  exact pwmDisable_eq b (writeWr b v s)

/-- A flush after updates of the write cache and the duty table adds the frame of the flush to them. -/
theorem flushCache_frame_of {s w : State} (h : w = { s with wr := w.wr, duty := w.duty }) :
    flushCache w = { s with
      wr := (flushCache w).wr, duty := (flushCache w).duty, chainOut := (flushCache w).chainOut
      events := (flushCache w).events, lvl := (flushCache w).lvl, draws := (flushCache w).draws } := by
  rw [flushCache_wr, flushCache_duty]
  refine (flushCache_frame w).trans ?_
  generalize flushCache w = f
  exact congrArg
    (fun x : State => { x with chainOut := f.chainOut, events := f.events, lvl := f.lvl, draws := f.draws }) h

theorem softWritten_softWrite {b : Nat} (v : Bool) (s : State) (hb : b < 128) :
    SoftWritten b v s (respond .ok false (pwmDisable b (writeWr b v s))) :=
  ⟨bitRead_softWrite v s hb, dutyAt_softWrite b v s, congrArg (respond .ok false) (softWrite_frame b v s)⟩

theorem hardWritten_hardWrite {b : Nat} (v : Bool) (s : State) (hb : b < 128) :
    HardWritten b v s (respond .ok false (flushCache (pwmDisable b (writeWr b v s)))) := by
  have hbytes : wrBytes (pwmDisable b (writeWr b v s)) =
      bytesOf s.byteCount.toNat (pwmDisable b (writeWr b v s)).wr := by
    rw [wrBytes, pwmDisable_byteCount]; rfl
  refine ⟨fun j => ?_, fun j => ?_, ?_, ?_, flushCache_latch _,
    congrArg (respond .ok false) (flushCache_frame_of (softWrite_frame b v s))⟩
  · rw [respond_wr, flushCache_wr, bitRead_softWrite v s hb]
  · rw [dutyAt_respond, dutyAt_flushCache, dutyAt_softWrite]
  · rw [respond_chainOut, respond_wr, flushCache_chainOut, flushCache_wr, hbytes]
  · rw [respond_events, respond_wr, flushCache_events, flushCache_wr, hbytes, pwmDisable_events]; rfl

/-- Settles O26, by `softWritten_softWrite`: WSOFT emits nothing, so it completes whatever the link does. -/
theorem wsoftChangesOneCacheBit : Obligations.WsoftChangesOneCacheBit :=
  ⟨commandForm_fbv fun k ho => by simp [decode, ho],
    fun b v s hn hb =>
      ⟨_, exec_of_no_event (rangeCheck_of_lt hb none) (pwmDisable_events b (writeWr b v s)),
        softWritten_softWrite v s (lt_capacity hn hb)⟩,
    fun _ _ _ hb => rejected_of_error (rangeCheck_of_ge hb none)⟩

/-- Settles O27, by `hardWritten_hardWrite`: WHARD reads no batch flag. -/
theorem whardFlushesTheWholeCache : Obligations.WhardFlushesTheWholeCache :=
  ⟨commandForm_fbv fun k ho => by simp [decode, ho],
    fun _ v s hl hn hb =>
      ⟨_, exec_of_no_error hl (rangeCheck_of_lt hb none), hardWritten_hardWrite v s (lt_capacity hn hb)⟩,
    fun _ _ _ hb => rejected_of_error (rangeCheck_of_ge hb none)⟩

/-- Settles O28: the next state is `flushCache s`, and with no byte the cache is the empty sequence. -/
theorem flushTransfersTheWriteCache : Obligations.FlushTransfersTheWriteCache := by
  refine ⟨commandForm_fn fun k ho => by simp [decode, ho], fun s hl =>
    ⟨_, exec_of_no_error hl rfl, flushCache_events s, rfl, flushCache_latch s, fun h0 => ?_,
      congrArg (respond .ok false) (flushCache_frame s)⟩⟩
  have hnil : wrBytes s = [] := by rw [wrBytes, h0]; rfl
  simp only [effect, respond_lvl, respond_events, flushCache, hnil, flushBytes_events]
  exact ⟨flushBytes_nil_clock s, rfl⟩

/-! ### Soft reads (40_bit_buffer.md R135, R137) -/

/-- Settles O33: a soft read's effect is the state itself. -/
theorem softReadsReturnTheCachedBit : Obligations.SoftReadsReturnTheCachedBit :=
  ⟨commandForm_fb fun k ho => by simp [decode, ho], commandForm_fb fun k ho => by simp [decode, ho],
    fun _ _ hb => ⟨exec_of_no_event (rangeCheck_of_lt hb none) rfl, exec_of_no_event (rangeCheck_of_lt hb none) rfl⟩,
    fun _ _ hb => ⟨rejected_of_error (rangeCheck_of_ge hb none), rejected_of_error (rangeCheck_of_ge hb none)⟩⟩

/-- Settles O35: WSOFT (O26) leaves byteCount alone, so GETW (O33) finds the bit in range and returns what was written. -/
theorem aSoftWriteIsReadBack : Obligations.ASoftWriteIsReadBack := by
  intro b v s hn hb
  obtain ⟨-, hwrite, -⟩ := wsoftChangesOneCacheBit
  obtain ⟨-, -, hread, -⟩ := softReadsReturnTheCachedBit
  obtain ⟨t, ht, hbit, -, hframe⟩ := hwrite b v s hn hb
  have hcount : bitCount t = bitCount s := by rw [hframe]; rfl
  have hresponses : t.responses = s.responses ++ [{ status := .ok, data := false }] := by rw [hframe]
  refine ⟨t, _, ht, (hread b t (hcount ▸ hb)).2, ?_⟩
  simp [hbit, hresponses]

/-! ### The isolation pattern (40_bit_buffer.md R120, R132) -/

theorem getLsbD_offMask {o p : Nat} (ho : o < 8) (hp : p < 8) : (offMask o).getLsbD p = decide (p = o) := by
  have h := getLsbD_withBit 0#8 true ho hp
  simpa [withBit] using h

/-- Over the whole buffer, the bytes M_k of the pattern hold bit b alone. -/
theorem getLsbD_selectedByte (b j : Nat) :
    (if byteOf j = byteOf b then offMask (offOf b) else 0#8).getLsbD (offOf j) = decide (j = b) := by
  by_cases hbyte : byteOf j = byteOf b
  · have hoff : offOf j = offOf b ↔ j = b := by unfold byteOf at hbyte; unfold offOf; omega
    rw [if_pos hbyte, getLsbD_offMask (offOf_lt b) (offOf_lt j), decide_eq_decide.mpr hoff]
  · have hne : j ≠ b := fun h => hbyte (h ▸ rfl)
    simp [hbyte, hne]

/-- The pattern for b presents an output's write cache bit, and of the inputs raises b alone. -/
theorem listBit_isolationPattern {s : State} (b : Nat) {j : Nat} (hj : j < bitCount s) :
    listBit (isolationPattern s b) j = if bitRead s.dir j then decide (j = b) else bitRead s.wr j := by
  have hbyte : byteOf j < s.byteCount.toNat := byteOf_lt hj
  have hat : listBit (isolationPattern s b) j = (isolationByte s b (byteOf j)).getLsbD (offOf j) := by
    simp [listBit, isolationPattern, List.getD, hbyte]
  have hdir : (byteAt s.dir (byteOf j)).getLsbD (offOf j) = bitRead s.dir j := rfl
  have hwr : (byteAt s.wr (byteOf j)).getLsbD (offOf j) = bitRead s.wr j := rfl
  rw [hat, isolationByte, BitVec.getLsbD_or, BitVec.getLsbD_and, BitVec.getLsbD_and, BitVec.getLsbD_not,
    getLsbD_selectedByte, hdir, hwr, decide_eq_true (offOf_lt j)]
  cases bitRead s.dir j <;> simp

/-- Settles O31, by `listBit_isolationPattern` at j and at b. -/
theorem theIsolationPatternSelectsOneInput : Obligations.TheIsolationPatternSelectsOneInput := by
  intro s b j hb hj
  refine ⟨isolationPattern_length s b, fun hout => ?_, fun hin hne => ?_, fun hin => ?_⟩
  · simp [listBit_isolationPattern b hj, hout]
  · simp [listBit_isolationPattern b hj, hin, hne]
  · simp [listBit_isolationPattern b hb, hin]

/-! ### Hard reads (40_bit_buffer.md R131, R139) -/

theorem hardlyRead_hardRead {b : Nat} (s : State) (hb : b < 128) :
    HardlyRead b (hardReadLevel b s) s (respond .ok (hardReadBit b s) (hardRead b s)) := by
  have hbit : hardReadBit b s = decide (hardReadLevel b s = .high) := bitOfLevel_eq _
  refine ⟨?_, fun j => ?_, hardRead_chainOut b s, hardRead_latch b s, ?_⟩
  · rw [respond_events, hardRead_events, hardReadEvents, List.append_assoc]
  · rw [respond_rd, hardRead_rd, bitRead_bitWrite _ _ _ hb, hbit]
  · conv_lhs => rw [hardRead_eq, hbit]
    simp [respond, hbit]

/-- Settles O32, by `hardlyRead_hardRead`; the range check comes before that of the read line. -/
theorem rhardFlushesSamplesAndStores : Obligations.RhardFlushesSamplesAndStores := by
  refine ⟨commandForm_fb fun k ho => by simp [decode, ho], fun b s hl hn hb hsense => ?_, fun b s hb hsense => ?_,
    fun b s hb => rejected_of_error (rangeCheck_of_ge hb _)⟩
  · have hno : reportedError (.rhard b) s = none := (rangeCheck_of_lt hb _).trans (if_pos hsense)
    exact ⟨_, _, exec_of_no_error hl hno, hardlyRead_hardRead s (lt_capacity hn hb)⟩
  · have herror : reportedError (.rhard b) s = some .noSense := (rangeCheck_of_lt hb _).trans (by simp [hsense])
    exact rejected_of_error herror

/-- RALL needs a read line exactly where there is an input bit (40_bit_buffer.md R140). -/
theorem reportedError_rall (s : State) :
    reportedError .rall s = if s.cfg.sensePresent = true ∨ inputBits s = [] then none else some .noSense := by
  simp only [inputBits_eq_nil, reportedError, Bool.or_eq_true]

/-- Settles O34: RALL is the hard reads of the input bits (`hardReadAll_closed_form`), each of which is below the capacity
and read once. -/
theorem rallReadsEveryInputOnce : Obligations.RallReadsEveryInputOnce := by
  refine ⟨commandForm_fn fun k ho => by simp [decode, ho], fun s hsense ⟨j, hj, hin⟩ => ?_, fun s hl hn hcan => ?_⟩
  · have hne : inputBits s ≠ [] := List.ne_nil_of_mem (mem_inputBits.mpr ⟨hj, hin⟩)
    exact rejected_of_error (by simp [reportedError_rall, hsense, hne])
  · have hno : reportedError .rall s = none := by
      rw [reportedError_rall, if_pos (hcan.imp_right fun hout => ?_)]
      refine List.eq_nil_iff_forall_not_mem.mpr fun i hi => ?_
      obtain ⟨hlt, hin⟩ := mem_inputBits.mp hi
      simp [hout i hlt] at hin
    have hlt : ∀ i ∈ inputBits s, i < 128 := fun i hi => lt_capacity hn (mem_inputBits.mp hi).1
    obtain ⟨ls, hlen, hevents, hread, -, -⟩ :=
      hardReadAll_closed_form (inputBits s) s hlt (List.nodup_range.filter _)
    refine ⟨_, ls, exec_of_no_error hl hno, hlen, hevents, hread, fun j hj => ?_, fun h => hardReadAll_chainOut s h,
      congrArg (respond .ok false) (hardReadAll_eq (inputBits s) s)⟩
    refine bitRead_hardReadAll_other s hlt fun hmem => ?_
    obtain ⟨hjlt, hin⟩ := mem_inputBits.mp hmem
    rcases hj with hge | hout
    · exact absurd hjlt (Nat.not_lt.mpr hge)
    · rw [hout] at hin; cases hin

/-! ### Ordinary writes and PWM (40_bit_buffer.md R128, 42_pwm.md R210) -/

/-- A write of another entry, or of Disabled, leaves a disabled entry disabled. -/
theorem setDuty_keeps_disabled {s : State} {b c : Nat} {x : Duty} (h : dutyAt s b = .disabled)
    (hx : b ≠ c ∨ x = .disabled) : dutyAt (setDuty c x s) b = .disabled := by
  by_cases hc : c < 64
  · rw [dutyAt_setDuty s b x hc]
    split_ifs with hbc
    · exact hx.resolve_left (not_not_intro hbc)
    · exact h
  · rw [← h]
    exact dutyAt_congr (Vector.setIfInBounds_eq_of_size_le (Nat.not_lt.mp hc)) b

/-- Of the commands whose row of the access matrix holds the duty table, ENROLL alone enables a pin: its own. -/
theorem effect_keeps_disabled {i : Instr} {s : State} {b : Nat} (hi : ∀ d, i ≠ .enroll b d)
    (h : dutyAt s b = .disabled) : dutyAt (effect i s) b = .disabled := by
  have hsoft (c : Nat) (v : Bool) : dutyAt (pwmDisable c (writeWr c v s)) b = .disabled := by
    rw [dutyAt_softWrite, h, ite_self]
  have hhard (c : Nat) (v : Bool) : dutyAt (flushCache (pwmDisable c (writeWr c v s))) b = .disabled := by
    rw [dutyAt_flushCache, hsoft]
  obtain ⟨-, -, -, -, -, -, -, -, hframe, -⟩ := effect_writesOnly i s
  cases i with
  | wsoft c v => exact hsoft c v
  | whard c v => exact hhard c v
  | writebit c v =>
    simp only [effect]
    split
    · exact hsoft c v
    · exact hhard c v
  | enroll c d => exact setDuty_keeps_disabled h (Or.inl fun hbc => hi d (hbc ▸ rfl))
  | unenroll c => exact setDuty_keeps_disabled h (Or.inr rfl)
  | setcap | setmode | flush | rhard | rsoft | getw | rall | bwbegin | bwend | brbegin | brend | readbit | setfreq | tick =>
    rw [dutyAt_congr (hframe (by simp [mayWrite]))]
    exact h

theorem exec_keeps_disabled {i : Instr} {s t : State} {b : Nat} (hx : exec i s = .next t) (hi : ∀ d, i ≠ .enroll b d)
    (h : dutyAt s b = .disabled) : dutyAt t b = .disabled := by
  obtain ⟨r, m, k, rfl | ⟨-, rfl⟩⟩ := exec_next_storage hx
  · exact h
  · exact effect_keeps_disabled hi h

theorem execAll_keeps_disabled {is : List Instr} {s t : State} {b : Nat} (hx : execAll is s = .next t)
    (his : ∀ i ∈ is, ∀ d, i ≠ .enroll b d) (h : dutyAt s b = .disabled) : dutyAt t b = .disabled :=
  execAll_induction hx (fun s t => dutyAt s b = .disabled → dutyAt t b = .disabled) (fun _ h => h)
    (fun h1 h2 h => h2 (h1 h)) (fun i hi _ _ hx h => exec_keeps_disabled hx (his i hi) h) h

/-- TICK skips a disabled pin (42_pwm.md R210). -/
theorem scanTarget_of_disabled {e : Nat} {s : State} {b : Nat} (h : dutyAt s b = .disabled) : scanTarget e s b = none := by
  simp [scanTarget, h]

theorem drivenPin_of_disabled {e : Nat} {s : State} {b : Nat} (h : dutyAt s b = .disabled) : drivenPin e s b = none := by
  simp [drivenPin, scanTarget_of_disabled h]

/-- A scan leaves the write cache bit and the tracked state of a disabled pin alone. -/
theorem tickScan_skips_disabled {e : Nat} {s : State} {b : Nat} (h : dutyAt s b = .disabled) :
    bitRead (tickScan e s).wr b = bitRead s.wr b ∧ trackAt (tickScan e s) b = trackAt s b := by
  obtain ⟨hwr, -, htrack, -, -⟩ := tickScan_closed_form e s
  constructor
  · rw [hwr, bitRead_drivenCache, drivenPin_of_disabled h]
  · rw [htrack, scanTarget_of_disabled h, Option.getD_none, ite_self]

theorem effect_tick_skips_disabled {s : State} {tm b : Nat} (h : dutyAt s b = .disabled) :
    bitRead (effect (.tick tm) s).wr b = bitRead s.wr b ∧ trackAt (effect (.tick tm) s) b = trackAt s b := by
  have hcycle := beginCycle_eq (operandNow s.cfg tm) s
  have hduty : dutyAt (beginCycle (operandNow s.cfg tm) s) b = .disabled := by rw [hcycle]; exact h
  obtain ⟨hwr, htrack⟩ := tickScan_skips_disabled (e := tickElapsed (operandNow s.cfg tm) s) hduty
  simp only [effect]
  rw [hwr, htrack, hcycle]
  exact ⟨rfl, rfl⟩

/-- So does TICK; one that is stuck leaves everything alone. -/
theorem tick_skips_disabled {s t : State} {tm b : Nat} (hx : exec (.tick tm) s = .next t) (h : dutyAt s b = .disabled) :
    bitRead t.wr b = bitRead s.wr b ∧ trackAt t b = trackAt s b := by
  have heffect := effect_tick_skips_disabled (tm := tm) h
  obtain ⟨r, m, k, rfl | ⟨-, rfl⟩⟩ := exec_next_storage hx
  · exact ⟨rfl, rfl⟩
  · generalize effect (.tick tm) s = T at heffect ⊢
    exact heffect

/-- An ordinary write that is not stuck stores the value and disables PWM on its pin, in either batch state. -/
theorem exec_ordinaryWrite {i : Instr} {b : Nat} {v : Bool} {s t : State} (hb : b < bitCount s) (hcap : b < 128)
    (hi : i = .wsoft b v ∨ i = .whard b v ∨ i = .writebit b v) (hx : exec i s = .next t) (hr : t.Running) :
    bitRead t.wr b = v ∧ dutyAt t b = .disabled := by
  have hno : reportedError i s = none := by
    rcases hi with rfl | rfl | rfl <;> exact rangeCheck_of_lt hb none
  have heffect : effect i s = pwmDisable b (writeWr b v s) ∨ effect i s = flushCache (pwmDisable b (writeWr b v s)) := by
    rcases hi with rfl | rfl | rfl
    · exact Or.inl rfl
    · exact Or.inr rfl
    · exact ite_eq_or_eq _ _ _
  have hbit := bitRead_softWrite v s hcap b
  have hduty := dutyAt_softWrite b v s b
  rw [if_pos rfl] at hbit hduty
  rcases exec_next_running hr hx with ⟨e, he, -⟩ | ⟨-, m, -, rfl⟩
  · rw [hno] at he; cases he
  · rcases heffect with h | h
    · rw [h]; exact ⟨hbit, hduty⟩
    · rw [h, flushCache_eq]; exact ⟨hbit, hduty⟩

theorem track_notMem_of_ordinaryWrite {i : Instr} {b : Nat} {v : Bool}
    (hi : i = .wsoft b v ∨ i = .whard b v ∨ i = .writebit b v) : Element.track ∉ mayWrite i := by
  rcases hi with rfl | rfl | rfl <;> simp [mayWrite]

/-- Settles O54: the write disables the pin (`exec_ordinaryWrite`), every command but an ENROLL of it keeps it disabled
(`execAll_keeps_disabled`), and TICK skips a disabled pin. -/
theorem anOrdinaryWriteStopsPwmOnThePin : Obligations.AnOrdinaryWriteStopsPwmOnThePin := by
  intro i b v is s t u w tm hn hb hi hwrite hr his hall htick
  obtain ⟨hbit, hduty⟩ := exec_ordinaryWrite hb (lt_capacity hn hb) hi hwrite hr
  obtain ⟨-, -, -, -, -, -, -, -, -, htrack⟩ := exec_writesOnly hwrite
  obtain ⟨-, -, -, -, -, -, -, -, hkeep, -⟩ := exec_writesOnly htick
  have hu := execAll_keeps_disabled hall his hduty
  obtain ⟨hwr, htr⟩ := tick_skips_disabled htick hu
  exact ⟨hbit, hduty, trackAt_congr (htrack (track_notMem_of_ordinaryWrite hi)) b, drivenPin_of_disabled hu, hwr, htr,
    hkeep (by simp [mayWrite])⟩

end Sys2Proof.Machine
end

section
/-! The statements of 41_transaction.md. A batch command's next state is its effect with the response. What the commands of a
batch keep is said once for one command (`exec_inWriteBatch`, `exec_keeps_snapshot`) and carried along the sequence. -/

namespace Sys2Proof.Machine

/-! ### The write batch's two commands (41_transaction.md R171, R172) -/

theorem exec_bwbegin {s : State} (hw : s.wbActive = false) :
    exec .bwbegin s = .next (respond .ok false (setWbActive true s)) :=
  exec_of_no_event (by simp [reportedError, hw]) rfl

theorem reportedError_bwend {s : State} (hw : s.wbActive = true) : reportedError .bwend s = none := by
  simp [reportedError, hw]

/-- Settles O37: BWBEGIN sets the flag, and BWEND is the flush of the write cache (`flushCache_frame`) and clears it. -/
theorem writeBatchOpensAndCloses : Obligations.WriteBatchOpensAndCloses :=
  ⟨commandForm_fn fun k ho => by simp [decode, ho], commandForm_fn fun k ho => by simp [decode, ho],
    fun _ hw => exec_bwbegin hw,
    fun s hl hw => ⟨_, exec_of_no_error hl (reportedError_bwend hw), rfl, flushCache_events s, rfl, flushCache_latch s,
      congrArg (fun f => respond .ok false (setWbActive false f)) (flushCache_frame s)⟩,
    fun _ hw => rejected_of_error (by simp [reportedError, hw]),
    fun _ hw => rejected_of_error (by simp [reportedError, hw])⟩

/-! ### The read batch's two commands (41_transaction.md R173, R174) -/

theorem inputBits_eq_nil_of_outputs {s : State} (h : ∀ j < bitCount s, bitRead s.dir j = false) : inputBits s = [] :=
  List.filter_eq_nil_iff.mpr fun j hj => by simp [h j (List.mem_range.mp hj)]

/-- With the flag Idle, BRBEGIN reports what RALL reports. -/
theorem reportedError_brbegin {s : State} (hr : s.rbActive = false) : reportedError .brbegin s = reportedError .rall s := by
  simp [reportedError, hr]

/-- Settles O38: from the Idle flag BRBEGIN has RALL's errors and RALL's effect, and then the flag. -/
theorem readBatchOpensAndCloses : Obligations.ReadBatchOpensAndCloses := by
  refine ⟨commandForm_fn fun k ho => by simp [decode, ho], commandForm_fn fun k ho => by simp [decode, ho],
    fun s hl hr hcan => ?_, fun s hr hsense ⟨j, hj, hin⟩ => ?_, fun s hr => rejected_of_error (by simp [reportedError, hr]),
    fun s hr => exec_of_no_event (by simp [reportedError, hr]) rfl,
    fun s hr => rejected_of_error (by simp [reportedError, hr])⟩
  · have hno : reportedError .rall s = none := by
      rw [reportedError_rall, if_pos (hcan.imp_right inputBits_eq_nil_of_outputs)]
    obtain ⟨-, -, hresponses, -, -⟩ := effect_fixed .rall s
    exact ⟨_, exec_of_no_error hl hno, by rw [respond_responses, hresponses]; rfl,
      exec_of_no_error hl ((reportedError_brbegin hr).trans hno)⟩
  · have hne : inputBits s ≠ [] := List.ne_nil_of_mem (mem_inputBits.mpr ⟨hj, hin⟩)
    exact rejected_of_error (by simp [reportedError_brbegin hr, reportedError_rall, hsense, hne])

/-! ### The routed accesses (41_transaction.md R176, R178) -/

theorem effect_writebit_inBatch {s : State} (b : Nat) (v : Bool) (hw : s.wbActive = true) :
    effect (.writebit b v) s = pwmDisable b (writeWr b v s) := by
  simp [effect, hw]

theorem effect_writebit_outside {s : State} (b : Nat) (v : Bool) (hw : s.wbActive = false) :
    effect (.writebit b v) s = flushCache (pwmDisable b (writeWr b v s)) := by
  simp [effect, hw]

/-- Inside a write batch WRITEBIT emits nothing, so it completes whatever the link does. -/
theorem exec_writebit_inBatch {s : State} {b : Nat} (v : Bool) (hw : s.wbActive = true) (hb : b < bitCount s) :
    exec (.writebit b v) s = .next (respond .ok false (pwmDisable b (writeWr b v s))) := by
  have hno : reportedError (.writebit b v) s = none := rangeCheck_of_lt hb none
  rw [exec_of_no_event hno (by simp [effect_writebit_inBatch b v hw]), effect_writebit_inBatch b v hw]
  rfl

/-- Settles O39: WRITEBIT has the effect of WSOFT (O26) inside a write batch and that of WHARD (O27) outside one. -/
theorem writebitIsRoutedByTheWriteBatch : Obligations.WritebitIsRoutedByTheWriteBatch := by
  refine ⟨commandForm_fbv fun k ho => by simp [decode, ho], fun b v s hn hb hw => ?_, fun b v s hl hn hb hw => ?_,
    fun _ _ _ hb => rejected_of_error (rangeCheck_of_ge hb none)⟩
  · exact ⟨_, exec_writebit_inBatch v hw hb, softWritten_softWrite v s (lt_capacity hn hb)⟩
  · refine ⟨_, exec_of_no_error hl (rangeCheck_of_lt hb none), ?_⟩
    rw [effect_writebit_outside b v hw]
    exact hardWritten_hardWrite v s (lt_capacity hn hb)

theorem effect_readbit_inBatch {s : State} (b : Nat) (hr : s.rbActive = true) : effect (.readbit b) s = s := if_pos hr

/-- Inside a read batch READBIT returns the cached bit, with no read line and whatever the link does. -/
theorem exec_readbit_inBatch {s : State} {b : Nat} (hr : s.rbActive = true) (hb : b < bitCount s) :
    exec (.readbit b) s = .next (respond .ok (bitRead s.rd b) s) := by
  have hno : reportedError (.readbit b) s = none := (rangeCheck_of_lt hb _).trans (by simp [hr])
  have heffect := effect_readbit_inBatch b hr
  have hreturned : returned (.readbit b) s = bitRead s.rd b := if_pos hr
  rw [exec_of_no_event hno (by rw [heffect]), heffect, hreturned]

/-- Settles O40: READBIT is a soft read inside a read batch; outside one it has RHARD's checks and effect (O32). -/
theorem readbitIsRoutedByTheReadBatch : Obligations.ReadbitIsRoutedByTheReadBatch := by
  refine ⟨commandForm_fb fun k ho => by simp [decode, ho], fun _ _ hb hr => exec_readbit_inBatch hr hb,
    fun b s hl hn hb hr hsense => ?_, fun b s hb hr hsense => ?_,
    fun _ _ hb => rejected_of_error (rangeCheck_of_ge hb _)⟩
  · have hno : reportedError (.readbit b) s = none := (rangeCheck_of_lt hb _).trans (by simp [hsense])
    have heffect : effect (.readbit b) s = hardRead b s := by simp [effect, hr]
    have hreturned : returned (.readbit b) s = hardReadBit b s := by simp [returned, hr]
    exact ⟨_, _, exec_of_no_error hl hno, by rw [heffect, hreturned]; exact hardlyRead_hardRead s (lt_capacity hn hb)⟩
  · have herror : reportedError (.readbit b) s = some .noSense := (rangeCheck_of_lt hb _).trans (by simp [hr, hsense])
    exact rejected_of_error herror

/-! ### The byte count in a batch (10_state.md R38) -/

theorem byteCount_mem_mayWrite {i : Instr} (h : Element.byteCount ∈ mayWrite i) : ∃ n, i = .setcap n := by
  cases i <;> simp [mayWrite] at h ⊢

theorem exec_keeps_byteCount {i : Instr} {s t : State} (hi : ∀ n, i ≠ .setcap n) (h : exec i s = .next t) :
    t.byteCount = s.byteCount := by
  obtain ⟨-, -, -, hframe, -⟩ := exec_writesOnly h
  refine hframe fun hmem => ?_
  obtain ⟨n, hn⟩ := byteCount_mem_mayWrite hmem
  exact hi n hn

/-! ### A write batch (41_transaction.md R177) -/

/-- The write cache after the pending writes of these commands, in order, for a buffer of n bytes. -/
def pendingCache (n : Nat) (is : List Instr) (arr : ByteArray16) : ByteArray16 :=
  (is.filterMap (pendingWrite n)).foldl (fun a w => bitWrite a w.1 w.2) arr

theorem pendingCache_cons (n : Nat) (i : Instr) (is : List Instr) (arr : ByteArray16) :
    pendingCache n (i :: is) arr = pendingCache n is (pendingCache n [i] arr) := by
  rw [pendingCache, ← List.singleton_append, List.filterMap_append, List.foldl_append]; rfl

theorem pendingCache_of_none {n : Nat} {i : Instr} (h : pendingWrite n i = none) (arr : ByteArray16) :
    pendingCache n [i] arr = arr := by
  simp [pendingCache, h]

theorem pendingCache_of_some {n b : Nat} {v : Bool} {i : Instr} (h : pendingWrite n i = some (b, v)) (arr : ByteArray16) :
    pendingCache n [i] arr = bitWrite arr b v := by
  simp [pendingCache, h]

/-- A rejected command adds no write. -/
theorem pendingWrite_of_error {i : Instr} {s : State} {e : Status} (h : reportedError i s = some e) :
    pendingWrite s.byteCount.toNat i = none := by
  have hrange (b : Nat) (v : Bool)
      (hcheck : (if decide (8 * s.byteCount.toNat ≤ b) = true then some Status.address else none) = some e) :
      (if b < 8 * s.byteCount.toNat then some (b, v) else none) = none := by
    refine if_neg fun hb => ?_
    rw [rangeCheck_of_lt hb] at hcheck
    cases hcheck
  cases i with
  | wsoft b v => exact hrange b v h
  | writebit b v => exact hrange b v h
  | _ => rfl

/-- A TICK that emits nothing drives no pin, so it leaves the write cache alone. -/
theorem effect_tick_wr_of_no_event {s : State} {tm : Nat} (he : (effect (.tick tm) s).events = s.events) :
    (effect (.tick tm) s).wr = s.wr := by
  have hcycle := beginCycle_eq (operandNow s.cfg tm) s
  simp only [effect] at he ⊢
  rcases tickScan_cases (tickElapsed (operandNow s.cfg tm) s) (beginCycle (operandNow s.cfg tm) s) with h | h
  · rw [h, hcycle]
  · exact absurd (he.trans (by rw [hcycle])) h.events

/-- A command of a write batch that emits nothing makes its pending write, if it has one, and no other. -/
theorem effect_wr_inWriteBatch {i : Instr} {s : State} (hw : s.wbActive = true) (hi : ∀ n, i ≠ .setcap n)
    (hn : reportedError i s = none) (he : (effect i s).events = s.events) :
    (effect i s).wr = pendingCache s.byteCount.toNat [i] s.wr := by
  obtain ⟨-, hframe, -⟩ := effect_writesOnly i s
  cases i with
  | setcap n => exact absurd rfl (hi n)
  | whard b v => exact absurd he (cacheLatched_hardWrite b v s).events
  | tick tm => exact effect_tick_wr_of_no_event he
  | wsoft b v =>
    have hpending : pendingWrite s.byteCount.toNat (.wsoft b v) = some (b, v) := if_pos (lt_bitCount_of_rangeCheck hn)
    rw [pendingCache_of_some hpending]
    exact pwmDisable_wr b (writeWr b v s)
  | writebit b v =>
    have hpending : pendingWrite s.byteCount.toNat (.writebit b v) = some (b, v) :=
      if_pos (lt_bitCount_of_rangeCheck hn)
    rw [pendingCache_of_some hpending, effect_writebit_inBatch b v hw]
    exact pwmDisable_wr b (writeWr b v s)
  | setmode | flush | rhard | rsoft | getw | rall | bwbegin | bwend | brbegin | brend | readbit | setfreq | enroll | unenroll =>
    rw [pendingCache_of_none rfl]
    exact hframe (by simp [mayWrite])

/-- From `s` to `t`, inside a write batch, these commands made their pending writes and did nothing to the chain. -/
structure InWriteBatch (is : List Instr) (s t : State) : Prop where
  wbActive : t.wbActive = true
  byteCount : t.byteCount = s.byteCount
  chainOut : t.chainOut = s.chainOut
  wr : t.wr = pendingCache s.byteCount.toNat is s.wr

theorem InWriteBatch.cons {i : Instr} {is : List Instr} {s t u : State} (h1 : InWriteBatch [i] s t)
    (h2 : InWriteBatch is t u) : InWriteBatch (i :: is) s u where
  wbActive := h2.wbActive
  byteCount := h2.byteCount.trans h1.byteCount
  chainOut := h2.chainOut.trans h1.chainOut
  wr := by rw [h2.wr, h1.byteCount, h1.wr, ← pendingCache_cons]

theorem exec_inWriteBatch {i : Instr} {s t : State} (hw : s.wbActive = true) (hi : ∀ n, i ≠ .setcap n)
    (h : exec i s = .next t) (hr : t.Running) (he : t.events = s.events) : InWriteBatch [i] s t where
  wbActive := by
    by_contra hne
    rcases exec_changes_wbActive h (hw.symm ▸ hne) with ⟨-, hidle, -⟩ | ⟨-, -, -, hflush⟩
    · rw [hw] at hidle; cases hidle
    · exact flushCache_events_ne s ((flushCache_events s).trans (hflush.symm.trans he))
  byteCount := exec_keeps_byteCount hi h
  chainOut := ((theChainChangesOnlyByLinkEvents i s t h).1 he).1
  wr := by
    rcases exec_next_running hr h with ⟨e, herror, -, rfl⟩ | ⟨hn, m, -, rfl⟩
    · exact (pendingCache_of_none (pendingWrite_of_error herror) s.wr).symm
    · exact effect_wr_inWriteBatch hw hi hn he

theorem execAll_events_prefix {is : List Instr} {s t : State} (h : execAll is s = .next t) : s.events <+: t.events :=
  execAll_induction h (fun s t => s.events <+: t.events) (fun s => List.prefix_refl s.events) List.IsPrefix.trans
    fun _ _ _ _ hx => by
      obtain ⟨-, ⟨es, hes⟩, -⟩ := exec_frame hx
      exact ⟨es, hes.symm⟩

theorem execAll_cons {i : Instr} {s t : State} (is : List Instr) (h : exec i s = .next t) :
    execAll (i :: is) s = execAll is t := by
  simp only [execAll, h]

/-- Events only grow, so in a batch that emits none no command emits one. -/
theorem execAll_inWriteBatch {is : List Instr} {s t : State} (hw : s.wbActive = true) (his : ∀ i ∈ is, ∀ n, i ≠ .setcap n)
    (h : execAll is s = .next t) (hr : t.Running) (he : t.events = s.events) : InWriteBatch is s t := by
  induction is generalizing s with
  | nil =>
    cases h
    exact ⟨hw, rfl, rfl, rfl⟩
  | cons i is ih =>
    obtain ⟨u, hu⟩ := exec_isNext i s
    rw [execAll_cons is hu] at h
    obtain ⟨-, ⟨es, hgrow⟩, -⟩ := exec_frame hu
    have hsame : u.events = s.events :=
      (he ▸ execAll_events_prefix h).eq_of_length_le (by rw [hgrow, List.length_append]; omega)
    have hone := exec_inWriteBatch hw (his i List.mem_cons_self) hu (running_of_execAll hr h) hsame
    exact hone.cons (ih hone.wbActive (fun j hj => his j (List.mem_cons_of_mem i hj)) h (he.trans hsame.symm))

@[simp] theorem pwmDisable_wbActive (b : Nat) (s : State) : (pwmDisable b s).wbActive = s.wbActive := by
  rw [pwmDisable_eq]
@[simp] theorem pwmDisable_linkHangsAfter (b : Nat) (s : State) :
    (pwmDisable b s).linkHangsAfter = s.linkHangsAfter := by
  rw [pwmDisable_eq]

/-- In-range WRITEBITs of a write batch run to their end: they make their writes and emit nothing. -/
theorem execAll_writebits {ws : List (Nat × Bool)} {s : State} (hw : s.wbActive = true)
    (hb : ∀ w ∈ ws, w.1 < bitCount s) :
    ∃ t, execAll (ws.map fun w => .writebit w.1 w.2) s = .next t ∧ t.events = s.events ∧ t.wbActive = true ∧
      t.linkHangsAfter = s.linkHangsAfter ∧ t.wr = ws.foldl (fun a w => bitWrite a w.1 w.2) s.wr := by
  induction ws generalizing s with
  | nil => exact ⟨s, rfl, rfl, hw, rfl, rfl⟩
  | cons w ws ih =>
    obtain ⟨hfirst, hrest⟩ := List.forall_mem_cons.mp hb
    obtain ⟨t, ht, hevents, hactive, hhang, hwr⟩ :=
      ih (s := respond .ok false (pwmDisable w.1 (writeWr w.1 w.2 s))) (by simpa using hw) (by simpa [bitCount] using hrest)
    exact ⟨t, (execAll_cons _ (exec_writebit_inBatch w.2 hw hfirst)).trans ht, by simpa using hevents, hactive,
      by simpa using hhang, by simpa using hwr⟩

/-- Settles O41: the commands of the batch leave the chain alone and make their writes (`execAll_inWriteBatch`), and BWEND is
one flush of the write cache; WRITEBITs are such commands (`execAll_writebits`). -/
theorem aWriteBatchIsOneFlush : Obligations.AWriteBatchIsOneFlush := by
  refine ⟨fun is s t u hw his hbatch he hend hr => ?_, fun ws s hl hw hb => ?_⟩
  · rw [execAll_cons is (exec_bwbegin hw)] at hbatch
    obtain ⟨hactive, hcount, hchain, hwr⟩ := execAll_inWriteBatch rfl his hbatch (running_of_exec hr hend) he
    rcases exec_next_running hr hend with ⟨e, herror, -⟩ | ⟨-, m, -, rfl⟩
    · rw [reportedError_bwend hactive] at herror; cases herror
    · simp [effect, wrBytes, hactive, hchain, hcount, he, hwr, pendingCache]
  · obtain ⟨t, ht, hevents, hactive, hhang, hwr⟩ :=
      execAll_writebits (s := respond .ok false (setWbActive true s)) rfl hb
    refine ⟨t, _, (execAll_cons _ (exec_bwbegin hw)).trans ht,
      exec_of_no_error (hhang.trans hl) (reportedError_bwend hactive), hevents, ?_⟩
    exact (flushCache_wr t).trans hwr

/-! ### A read batch (41_transaction.md R179) -/

/-- From `s` to `t` a read batch stayed open, with the snapshot and the range of bits it was taken of. -/
structure SnapshotKept (s t : State) : Prop where
  rd : t.rd = s.rd
  rbActive : t.rbActive = true
  byteCount : t.byteCount = s.byteCount

theorem SnapshotKept.trans {s t u : State} (h1 : SnapshotKept s t) (h2 : SnapshotKept t u) : SnapshotKept s u :=
  ⟨h2.rd.trans h1.rd, h2.rbActive, h2.byteCount.trans h1.byteCount⟩

/-- Of the commands whose row of the access matrix holds the read cache, BRBEGIN is rejected inside a read batch and READBIT
is soft. -/
theorem exec_keeps_snapshot {i : Instr} {s t : State} (hs : s.rbActive = true)
    (hi : (∀ x, i ≠ .rhard x) ∧ i ≠ .rall ∧ (∀ n, i ≠ .setcap n) ∧ i ≠ .brend) (h : exec i s = .next t) :
    SnapshotKept s t where
  rd := by
    obtain ⟨hrhard, hrall, hsetcap, -⟩ := hi
    obtain ⟨-, -, hframe, -⟩ := exec_writesOnly h
    cases i with
    | setcap n => exact absurd rfl (hsetcap n)
    | rhard b => exact absurd rfl (hrhard b)
    | rall => exact absurd rfl hrall
    | brbegin =>
      rw [exec_of_error (show reportedError .brbegin s = some .batch from if_pos hs)] at h
      cases h
      rfl
    | readbit b =>
      obtain ⟨r, m, k, rfl | ⟨-, rfl⟩⟩ := exec_next_storage h
      · rfl
      · rw [effect_readbit_inBatch b hs]
    | setmode | wsoft | whard | flush | rsoft | getw | bwbegin | bwend | brend | writebit | setfreq | enroll | unenroll | tick =>
      exact hframe (by simp [mayWrite])
  rbActive := by
    obtain ⟨-, -, -, hbrend⟩ := hi
    by_contra hne
    rcases exec_changes_rbActive h (hs.symm ▸ hne) with ⟨-, hidle, -⟩ | ⟨hend, -⟩
    · rw [hs] at hidle; cases hidle
    · exact hbrend hend
  byteCount := by
    obtain ⟨-, -, hsetcap, -⟩ := hi
    exact exec_keeps_byteCount hsetcap h

/-- Settles O42: each command keeps the snapshot (`exec_keeps_snapshot`), and READBIT reads it. -/
theorem readBatchValuesAreStable : Obligations.ReadBatchValuesAreStable := by
  intro is b s t hs his h hb
  obtain ⟨hrd, hactive, hcount⟩ := execAll_induction h (fun s t => s.rbActive = true → SnapshotKept s t)
    (fun _ ha => ⟨rfl, ha, rfl⟩)
    (fun h1 h2 ha => (h1 ha).trans (h2 (h1 ha).rbActive))
    (fun i hi _ _ hx ha => exec_keeps_snapshot ha (his i hi) hx) hs
  have hbt : b < bitCount t := by unfold bitCount; rw [hcount]; exact hb
  exact ⟨hrd, hactive, hrd ▸ exec_readbit_inBatch hactive hbt⟩

end Sys2Proof.Machine
end

section
/-! The statements of 42_pwm.md. The three settings change one entry or one number. TICK's outcome is said once, with its
frame (`Ticked`); what the commands between an ENROLL and a TICK keep is said once for one command (`exec_keeps_pending`) and
carried along the sequence. -/

namespace Sys2Proof.Machine

/-! ### The settings (42_pwm.md R200, R202, R204) -/

/-- A period that SETFREQ computes fits its 20 bits. -/
theorem toNat_period_setfreq (hz : Nat) : (BitVec.ofNat 20 (1000000 / hz)).toNat = 1000000 / hz := by
  have hle : 1000000 / hz ≤ 1000000 := Nat.div_le_self _ _
  rw [BitVec.toNat_ofNat, Nat.mod_eq_of_lt (by omega)]

/-- Settles O43: the checks are those of `reportedError`, and the period fits. -/
theorem setfreqSetsOrRejectsThePeriod : Obligations.SetfreqSetsOrRejectsThePeriod := by
  refine ⟨commandForm_fa fun k ho => by simp [decode, ho], fun hz s h0 hmin => ?_,
    fun hz s h => rejected_of_error (if_pos h)⟩
  have hno : reportedError (.setfreq hz) s = none := if_neg (not_or.mpr ⟨h0, Nat.not_lt.mpr hmin⟩)
  exact ⟨_, exec_of_no_event hno rfl, toNat_period_setfreq hz, rfl⟩

theorem reportedError_enroll_of_lt {b : Nat} {s : State} (d : Nat) (hb : b < 64) (hlt : b < bitCount s) :
    reportedError (.enroll b d) s = none := by
  simp [reportedError, inRange_decide hlt, Nat.not_le.mpr hb]

theorem reportedError_enroll_of_ge {b : Nat} {s : State} (d : Nat) (h : 64 ≤ b ∨ bitCount s ≤ b) :
    reportedError (.enroll b d) s = some .address :=
  if_pos (h.imp_right outOfRange_decide)

/-- An ENROLL in range completes with its effect: it emits nothing. -/
theorem exec_enroll {b : Nat} {s : State} (d : Nat) (hb : b < 64) (hlt : b < bitCount s) :
    exec (.enroll b d) s = .next (respond .ok false (effect (.enroll b d) s)) :=
  exec_of_no_event (reportedError_enroll_of_lt d hb hlt) rfl

theorem dutyAt_effect_enroll {b : Nat} (d : Nat) (s : State) (hb : b < 64) (j : Nat) :
    dutyAt (effect (.enroll b d) s) j = if j = b then .enabled (BitVec.ofNat 8 d) else dutyAt s j :=
  dutyAt_setDuty s j _ hb

theorem trackAt_effect_enroll {b : Nat} (d : Nat) (s : State) (hb : b < 64) (j : Nat) :
    trackAt (effect (.enroll b d) s) j = if j = b then .unknown else trackAt s j :=
  trackAt_setTrack (setDuty b (.enabled (BitVec.ofNat 8 d)) s) j .unknown hb

/-- Settles O44: one entry of each table is written. -/
theorem enrollEnablesOnePin : Obligations.EnrollEnablesOnePin := by
  refine ⟨commandForm_fbd fun k ho => by simp [decode, ho], fun b d s hb hlt hd => ?_,
    fun b d s h => rejected_of_error (reportedError_enroll_of_ge d h)⟩
  have hduty : (BitVec.ofNat 8 d).toNat = d := by rw [BitVec.toNat_ofNat, Nat.mod_eq_of_lt (by omega)]
  exact ⟨_, exec_enroll d hb hlt, dutyAt_effect_enroll d s hb, hduty, trackAt_effect_enroll d s hb, rfl⟩

/-- Settles O45: UNENROLL checks the table's size alone. -/
theorem unenrollDisablesOnePin : Obligations.UnenrollDisablesOnePin := by
  refine ⟨commandForm_fb fun k ho => by simp [decode, ho], fun b s hb => ?_, fun b s h => rejected_of_error (if_pos h)⟩
  have hno : reportedError (.unenroll b) s = none := if_neg (Nat.not_le.mpr hb)
  exact ⟨_, exec_of_no_event hno rfl, fun j => dutyAt_setDuty s j .disabled hb,
    fun j => trackAt_setTrack (setDuty b .disabled s) j .unknown hb, rfl⟩

/-! ### The on-window (42_pwm.md R211) -/

theorem onWindow_zero (period : Nat) : onWindow period 0 = 0 := by simp [onWindow]

theorem onWindow_dutyMax (period : Nat) : onWindow period 255 = period := Nat.mul_div_cancel period (by decide)

theorem onWindow_mono (period : Nat) {d d' : Nat} (h : d ≤ d') : onWindow period d ≤ onWindow period d' :=
  Nat.div_le_div_right (Nat.mul_le_mul_left period h)

theorem pwmTarget_eq_on_iff {period d e : Nat} : pwmTarget period d e = .on ↔ e < onWindow period d := by
  simp [pwmTarget]

theorem pwmTarget_eq_off_iff {period d e : Nat} : pwmTarget period d e = .off ↔ onWindow period d ≤ e := by
  simp [pwmTarget]

/-- No target is Unknown. -/
theorem pwmTarget_ne_unknown (period d e : Nat) : pwmTarget period d e ≠ .unknown := by
  unfold pwmTarget
  split <;> decide

/-- Settles O51: the on-window grows with the duty up to that of 255, which is the period; 1,000,000 * 255 < 2^28. -/
theorem theOnWindowScalesWithDuty : Obligations.TheOnWindowScalesWithDuty := by
  refine ⟨fun period d e => ⟨rfl, onWindow_zero period, onWindow_dutyMax period, pwmTarget_eq_on_iff,
    pwmTarget_eq_off_iff⟩, fun period d d' h h' => ⟨onWindow_mono period h, ?_⟩, fun period d hp hd => ?_, by decide⟩
  · exact (onWindow_mono period h').trans_eq (onWindow_dutyMax period)
  · calc period * d ≤ 1000000 * 255 := Nat.mul_le_mul hp hd
      _ < 2 ^ 28 := by norm_num

/-! ### The outcome of TICK (42_pwm.md R208, R213) -/

/-- `t` is `s` after a TICK at `now` with elapsed time e, but for the response and the link's two fields. -/
structure Ticked (now e : Nat) (s t : State) : Prop where
  tickStart : t.tickStart = (beginCycle now s).tickStart
  events : t.events = s.events ++ driveEvents s.byteCount.toNat s.wr (drivenPins e s)
  wr : t.wr = cacheAfter (drivenPins e s) s.wr
  track : ∀ i < 64, trackAt t i = (scanTarget e s i).getD (trackAt s i)
  chainOut : t.chainOut = if drivenPins e s = [] then s.chainOut else bytesOf s.byteCount.toNat t.wr
  link : drivenPins e s = [] → t.lvl = s.lvl ∧ t.draws = s.draws
  frame : t = { s with
    tickStart := t.tickStart, wr := t.wr, track := t.track, chainOut := t.chainOut, events := t.events
    lvl := t.lvl, draws := t.draws, responses := t.responses, linkHangsAfter := t.linkHangsAfter
    linkStuck := t.linkStuck }

/-- The scan after the beginning of a cycle: `tickScan_closed_form`, from a state that differs from `s` in tickStart. -/
theorem ticked_tickScan (now e : Nat) (s : State) : Ticked now e s (tickScan e (beginCycle now s)) := by
  obtain ⟨k, hcycle⟩ : ∃ k, beginCycle now s = { s with tickStart := k } := ⟨_, beginCycle_eq now s⟩
  obtain ⟨hwr, hevents, htrack, hnone, hsome⟩ := tickScan_closed_form e (beginCycle now s)
  rw [drivenPins_beginCycle] at hwr hevents hnone hsome
  have hscan := tickScan_eq e (beginCycle now s)
  rw [hcycle] at hwr hevents htrack hnone hsome hscan ⊢
  refine ⟨by rw [hscan, hcycle], hevents, hwr, fun i hi => (htrack i).trans (if_pos hi), ?_,
    fun h => by rw [hnone h]; exact ⟨rfl, rfl⟩, ?_⟩
  · split_ifs with h
    · rw [hnone h]
    · exact (hsome h).1
  · generalize tickScan e { s with tickStart := k } = t at hscan ⊢
    rw [hscan]

theorem ticked_effect (tm : Nat) (s : State) :
    Ticked (operandNow s.cfg tm) (tickElapsed (operandNow s.cfg tm) s) s (effect (.tick tm) s) :=
  ticked_tickScan _ _ s

/-- A TICK that is not stuck has this outcome. -/
theorem ticked_of_running {s t : State} {tm : Nat} (hr : t.Running) (h : exec (.tick tm) s = .next t) :
    Ticked (operandNow s.cfg tm) (tickElapsed (operandNow s.cfg tm) s) s t := by
  obtain ⟨m, T, -, hT, rfl⟩ := tick_next hr h
  have hdone := ticked_effect tm s
  rw [show effect (.tick tm) s = T from hT.symm] at hdone
  exact { hdone with frame := congrArg (fun x : State => respond .ok false { x with linkHangsAfter := m }) hdone.frame }

/-- Settles O46: the command form of TICK, and `ticked_effect`. -/
theorem tickDrivesThePinsWhoseTargetChanged : Obligations.TickDrivesThePinsWhoseTargetChanged := by
  refine ⟨commandForm_fa fun k ho => by simp [decode, ho], fun s tm hl hc => ?_⟩
  intro now start e
  have hnow : now < 2 ^ 32 := operandNow_lt_word tm hc
  have he : tickElapsed now s = e := tickElapsed_eq hnow
  obtain ⟨hstart, hevents, hwr, htrack, hchain, hlink, hframe⟩ : Ticked now (tickElapsed now s) s (effect (.tick tm) s) :=
    ticked_effect tm s
  obtain ⟨-, -, hresponses, hhang, hstuck⟩ := effect_fixed (.tick tm) s
  rw [he] at hevents hwr htrack hchain hlink
  rw [hresponses, hhang, hstuck] at hframe
  have hexec : exec (.tick tm) s = .next (respond .ok false (effect (.tick tm) s)) := exec_of_no_error hl rfl
  generalize effect (.tick tm) s = t at *
  refine ⟨_, hexec, ?_, hevents, hwr, fun i hi => ?_, hchain, hlink, congrArg (respond .ok false) hframe⟩
  · rw [respond_tickStart, hstart, tickStart_beginCycle hnow]
  · refine (htrack i hi).trans ?_
    cases scanTarget e s i <;> rfl

/-- Settles O48, by the write cache after the drives, bit by bit. -/
theorem tickWritesOnlyTheDrivenBits : Obligations.TickWritesOnlyTheDrivenBits := by
  intro s t tm j h hr
  rw [tick_wr hr h]
  exact bitRead_drivenCache _ s s.wr j

/-! ### The period boundary (42_pwm.md R209) -/

theorem one_le_period {s : State} (hs : s.Legal) : 1 ≤ s.period.toNat := by
  obtain ⟨hc, -, -, ⟨hmin, -⟩, -⟩ := hs
  obtain ⟨-, hpos, -⟩ := (config_wf_iff s.cfg).mp hc
  exact hpos.trans hmin

/-- A TICK that has not reached the boundary begins no cycle. -/
theorem beginCycle_of_lt {now : Nat} {s : State} (h : elapsed s.cfg now s.tickStart.toNat < s.period.toNat) :
    beginCycle now s = s := by
  simp [beginCycle, boundaryReached, h]

/-- After step 1 of TICK the elapsed time is below the period: at a boundary it is 0 (42_pwm.md R216). -/
theorem tickElapsed_lt_period {s : State} (tm : Nat) (hs : s.Legal) :
    tickElapsed (operandNow s.cfg tm) s < s.period.toNat := by
  have ⟨hc, _⟩ := hs
  rw [tickElapsed_eq (operandNow_lt_word tm hc)]
  split_ifs with h
  · rw [elapsed_self]
    exact one_le_period hs
  · exact Nat.not_le.mp h

/-- The modular difference where the host's time has stepped backward by x. -/
theorem elapsed_of_backward {cfg : Config} {now start x : Nat} (hx : 1 ≤ x) (hle : x ≤ start)
    (hstart : start < 2 ^ cfg.timeBits) (hnow : now = start - x) : elapsed cfg now start = 2 ^ cfg.timeBits - x := by
  rw [elapsed_eq hstart.le, hnow, show start - x + 2 ^ cfg.timeBits - start = 2 ^ cfg.timeBits - x by omega,
    Nat.mod_eq_of_lt (by omega)]

/-- Settles O49: `tick_tickStart`, with the modular difference written out. -/
theorem theTickBoundaryIsModular : Obligations.TheTickBoundaryIsModular := by
  intro s t tm hs h hr
  have hstart := (ticked_of_running hr h).tickStart
  obtain ⟨hc, -, -, -, hfits⟩ := hs
  have hnow : operandNow s.cfg tm < 2 ^ 32 := operandNow_lt_word tm hc
  have hreached (hp : s.period.toNat ≤ elapsed s.cfg (operandNow s.cfg tm) s.tickStart.toNat) :
      t.tickStart.toNat = operandNow s.cfg tm := (tick_tickStart hc hr h).trans (if_pos hp)
  have hbefore (hp : elapsed s.cfg (operandNow s.cfg tm) s.tickStart.toNat < s.period.toNat) :
      t.tickStart = s.tickStart := by rw [hstart, beginCycle_of_lt hp]
  have hmod := elapsed_eq (now := operandNow s.cfg tm) hfits.le
  refine ⟨fun hp => hreached (hmod ▸ hp), fun hp => hbefore (hmod ▸ hp), fun x hx hle hp hback => ?_,
    fun x hx hle hp hback => ?_⟩
  · have hback' := elapsed_of_backward (now := operandNow s.cfg tm) hx hle hfits hback
    exact hreached (by omega)
  · have hback' := elapsed_of_backward (now := operandNow s.cfg tm) hx hle hfits hback
    have hlt : elapsed s.cfg (operandNow s.cfg tm) s.tickStart.toNat < s.period.toNat := by omega
    refine ⟨hbefore hlt, ?_⟩
    rw [tickElapsed, beginCycle_of_lt hlt, hback']

/-! ### Targets (42_pwm.md R210, R211) -/

/-- The target of an enrolled pin in range. -/
theorem scanTarget_of_enabled {e i : Nat} {s : State} {d : Byte} (hd : dutyAt s i = .enabled d) (hi : i < bitCount s) :
    scanTarget e s i = some (pwmTarget s.period.toNat d.toNat e) := by
  simp [scanTarget, hd, hi]

/-- TICK skips a pin out of range. -/
theorem scanTarget_of_ge {e i : Nat} {s : State} (h : bitCount s ≤ i) : scanTarget e s i = none :=
  Option.eq_none_iff_forall_ne_some.mpr fun _ hg => Nat.not_lt.mpr h (lt_bitCount_of_scanTarget hg)

/-- Settles O50: duty 0 has the empty on-window and duty 255 the whole period, which the elapsed time is below. -/
theorem boundaryDutiesAreAlwaysOffAndAlwaysOn : Obligations.BoundaryDutiesAreAlwaysOffAndAlwaysOn := by
  intro s t tm i hs h hr hi hlt
  have helapsed := tickElapsed_lt_period tm hs
  have htrack := (ticked_of_running hr h).track i hi
  refine ⟨helapsed, fun hd => ?_, fun hd => ?_⟩
  · rw [htrack, scanTarget_of_enabled hd hlt]
    exact pwmTarget_eq_off_iff.mpr ((onWindow_zero _).le.trans (Nat.zero_le _))
  · rw [htrack, scanTarget_of_enabled hd hlt]
    exact pwmTarget_eq_on_iff.mpr (helapsed.trans_eq (onWindow_dutyMax _).symm)

/-! ### Enrolled pins out of range (42_pwm.md R210) -/

/-- A pin that a command leaves enrolled and out of range was enrolled before: ENROLL checks the range. -/
theorem enrolled_before {i : Instr} {b : Nat} {s t : State} (h : exec i s = .next t) (hd : dutyAt t b ≠ .disabled)
    (hout : bitCount t ≤ b) : dutyAt s b ≠ .disabled := by
  intro hs
  by_cases henroll : ∃ d, i = .enroll b d
  · obtain ⟨d, rfl⟩ := henroll
    have hout' : bitCount s ≤ b := by
      rwa [bitCount, exec_keeps_byteCount (fun _ => Instr.noConfusion) h] at hout
    rw [exec_of_error (reportedError_enroll_of_ge d (Or.inr hout'))] at h
    cases h
    exact hd hs
  · exact hd (exec_keeps_disabled h (not_exists.mp henroll) hs)

/-- SETCAP keeps the capacity or sets it to its operand. -/
theorem bitCount_setcap {n : Nat} {s t : State} (h : exec (.setcap n) s = .next t) :
    bitCount t = bitCount s ∨ bitCount t = n := by
  obtain ⟨r, m, k, rfl | ⟨hn, rfl⟩⟩ := exec_next_storage h
  · exact Or.inl rfl
  · have hok : ¬ (128 < n ∨ n % 8 ≠ 0) := fun hbad => by simp [reportedError, hbad] at hn
    refine Or.inr ?_
    simp only [bitCount, effect, BitVec.toNat_ofNat]
    omega

/-- Settles O47: `enrolled_before`, and SETCAP alone moves bitCount. -/
theorem onlySetcapLeavesAnEnrolledPinOutOfRange : Obligations.OnlySetcapLeavesAnEnrolledPinOutOfRange := by
  intro i b s t h hd hout
  refine ⟨enrolled_before h hd hout, ?_⟩
  by_cases hcap : ∃ n, i = .setcap n
  · obtain ⟨n, rfl⟩ := hcap
    rcases bitCount_setcap h with hsame | hn
    · exact Or.inl (hsame ▸ hout)
    · exact (Nat.lt_or_ge b (bitCount s)).symm.imp_right fun hb => ⟨n, rfl, hn.symm, hout.trans_lt hb⟩
  · have hsame : bitCount t = bitCount s := by
      rw [bitCount, exec_keeps_byteCount (not_exists.mp hcap) h, bitCount]
    exact Or.inl (hsame ▸ hout)

/-! ### The first drive after an ENROLL (42_pwm.md R203) -/

/-- The commands that give pin b no other duty. -/
abbrev SparesDuty (b : Nat) (i : Instr) : Prop :=
  (∀ d, i ≠ .enroll b d) ∧ i ≠ .unenroll b ∧ ∀ v, i ≠ .wsoft b v ∧ i ≠ .whard b v ∧ i ≠ .writebit b v

theorem dutyAt_setDuty_other {b c : Nat} (x : Duty) (s : State) (h : b ≠ c) :
    dutyAt (setDuty c x s) b = dutyAt s b := by
  simp [dutyAt, Ne.symm h]

theorem setTrack_unknown_keeps_unknown {b : Nat} (c : Nat) {s : State} (h : trackAt s b = .unknown) :
    trackAt (setTrack c .unknown s) b = .unknown := by
  by_cases hc : c < 64
  · rw [trackAt_setTrack s b .unknown hc, h, ite_self]
  · rw [← h]
    exact trackAt_congr (Vector.setIfInBounds_eq_of_size_le (Nat.not_lt.mp hc)) b

/-- Of the commands whose row of the access matrix holds the duty table, each changes its own pin's entry alone. -/
theorem effect_keeps_duty {i : Instr} {b : Nat} (s : State) (hi : SparesDuty b i) :
    dutyAt (effect i s) b = dutyAt s b := by
  obtain ⟨henroll, hunenroll, hwrite⟩ := hi
  have hsoft {c : Nat} (v : Bool) (hc : b ≠ c) : dutyAt (pwmDisable c (writeWr c v s)) b = dutyAt s b := by
    rw [dutyAt_softWrite, if_neg hc]
  have hhard {c : Nat} (v : Bool) (hc : b ≠ c) :
      dutyAt (flushCache (pwmDisable c (writeWr c v s))) b = dutyAt s b := by
    rw [dutyAt_flushCache, hsoft v hc]
  obtain ⟨-, -, -, -, -, -, -, -, hframe, -⟩ := effect_writesOnly i s
  cases i with
  | wsoft c v => exact hsoft v fun hbc => (hwrite v).1 (hbc ▸ rfl)
  | whard c v => exact hhard v fun hbc => (hwrite v).2.1 (hbc ▸ rfl)
  | writebit c v =>
    have hc : b ≠ c := fun hbc => (hwrite v).2.2 (hbc ▸ rfl)
    simp only [effect]
    split
    · exact hsoft v hc
    · exact hhard v hc
  | enroll c d => exact dutyAt_setDuty_other _ s fun hbc => henroll d (hbc ▸ rfl)
  | unenroll c => exact dutyAt_setDuty_other _ s fun hbc => hunenroll (hbc ▸ rfl)
  | setcap | setmode | flush | rhard | rsoft | getw | rall | bwbegin | bwend | brbegin | brend | readbit | setfreq | tick =>
    exact dutyAt_congr (hframe (by simp [mayWrite])) b

/-- A pin of unknown drive state is made known by a TICK at which it is in range, and by nothing else. -/
theorem effect_keeps_unknown {i : Instr} {b : Nat} {s : State} (hb : b < 64) (hi : ∀ tm, i = .tick tm → bitCount s ≤ b)
    (h : trackAt s b = .unknown) : trackAt (effect i s) b = .unknown := by
  obtain ⟨-, -, -, -, -, -, -, -, -, hframe⟩ := effect_writesOnly i s
  cases i with
  | setcap n =>
    rw [trackAt_of_lt _ hb]
    simp [effect]
  | enroll c d => exact setTrack_unknown_keeps_unknown c h
  | unenroll c => exact setTrack_unknown_keeps_unknown c h
  | tick tm => rw [(ticked_effect tm s).track b hb, scanTarget_of_ge (hi tm rfl), Option.getD_none, h]
  | setmode | wsoft | whard | flush | rhard | rsoft | getw | rall | bwbegin | bwend | brbegin | brend | writebit | readbit | setfreq =>
    exact (trackAt_congr (hframe (by simp [mayWrite])) b).trans h

/-- Pin b is enrolled with duty d and has not been driven since. -/
structure DrivePending (b : Nat) (d : Byte) (s : State) : Prop where
  duty : dutyAt s b = .enabled d
  track : trackAt s b = .unknown

theorem exec_keeps_pending {i : Instr} {b : Nat} {d : Byte} {s t : State} (hb : b < 64) (hi : SparesDuty b i)
    (htick : ∀ tm, i = .tick tm → bitCount s ≤ b) (h : exec i s = .next t) (hs : DrivePending b d s) :
    DrivePending b d t := by
  obtain ⟨r, m, k, rfl | ⟨-, rfl⟩⟩ := exec_next_storage h
  · exact ⟨hs.duty, hs.track⟩
  · exact ⟨(effect_keeps_duty s hi).trans hs.duty, effect_keeps_unknown hb htick hs.track⟩

theorem execAll_keeps_pending {is : List Instr} {b : Nat} {d : Byte} {s t : State} (hb : b < 64)
    (his : ∀ i ∈ is, SparesDuty b i)
    (hout : ∀ (pre post : List Instr) (tm : Nat) (r : State), is = pre ++ .tick tm :: post → execAll pre s = .next r →
      bitCount r ≤ b)
    (h : execAll is s = .next t) (hs : DrivePending b d s) : DrivePending b d t := by
  induction is generalizing s with
  | nil =>
    cases h
    exact hs
  | cons i is ih =>
    obtain ⟨u, hu⟩ := exec_isNext i s
    rw [execAll_cons is hu] at h
    obtain ⟨hfirst, hrest⟩ := List.forall_mem_cons.mp his
    have hnow : ∀ tm, i = .tick tm → bitCount s ≤ b := fun tm hi => hout [] is tm s (hi ▸ rfl) rfl
    have hlater (pre post : List Instr) (tm : Nat) (r : State) (hsplit : is = pre ++ .tick tm :: post)
        (hr : execAll pre u = .next r) : bitCount r ≤ b :=
      hout (i :: pre) post tm r (hsplit ▸ rfl) ((execAll_cons pre hu).trans hr)
    exact ih hrest hlater h (exec_keeps_pending hb hfirst hnow hu hs)

/-- A pending pin in range is driven, whatever its target: the target is not Unknown. -/
theorem drivenPin_of_pending {b : Nat} {d : Byte} {s : State} (e : Nat) (hs : DrivePending b d s)
    (hlt : b < bitCount s) : ∃ g, scanTarget e s b = some g ∧ drivenPin e s b = some (b, g) := by
  have hg := scanTarget_of_enabled (e := e) hs.duty hlt
  refine ⟨_, hg, ?_⟩
  rw [drivenPin, hg, hs.track]
  exact if_neg (pwmTarget_ne_unknown _ _ e).symm

/-- What a TICK that drives pin b to g leaves of it, in range: at least its flush, and cache, chain and track at g. -/
theorem Ticked.of_drivenPin {now e b : Nat} {g : Track} {s t : State} (h : Ticked now e s t) (hb : b < 64)
    (hlt : b < bitCount s) (hg : scanTarget e s b = some g) (hd : drivenPin e s b = some (b, g)) :
    trackAt t b = g ∧ s.events.length + s.byteCount.toNat + 3 ≤ t.events.length ∧
      bitRead t.wr b = decide (g = .on) ∧ listBit t.chainOut b = decide (g = .on) := by
  have hmem : (b, g) ∈ drivenPins e s := mem_drivenPins.mpr ⟨hb, hd⟩
  have hbit : bitRead t.wr b = decide (g = .on) := by rw [h.wr, bitRead_drivenCache, hd]
  refine ⟨by rw [h.track b hb, hg, Option.getD_some], ?_, hbit, ?_⟩
  · have hone := Nat.le_mul_of_pos_left (s.byteCount.toNat + 3) (List.length_pos_of_mem hmem)
    rw [h.events, List.length_append, driveEvents_length]
    omega
  · rw [h.chainOut, if_neg (List.ne_nil_of_mem hmem), listBit_bytesOf t.wr hlt, hbit]

/-- Settles O52: the pin is pending after the ENROLL, stays so up to the TICK (`execAll_keeps_pending`), and is driven. -/
theorem theFirstTickAfterEnrollDrivesThePin : Obligations.TheFirstTickAfterEnrollDrivesThePin := by
  intro b d tm is s t u w hb hlt henroll his hout hall hin htick hr
  have ht : DrivePending b (BitVec.ofNat 8 d) t := by
    rw [exec_enroll d hb hlt] at henroll
    cases henroll
    exact ⟨(dutyAt_effect_enroll d s hb b).trans (if_pos rfl), (trackAt_effect_enroll d s hb b).trans (if_pos rfl)⟩
  have hu := execAll_keeps_pending hb his hout hall ht
  obtain ⟨g, hg, hd⟩ := drivenPin_of_pending (tickElapsed (operandNow u.cfg tm) u) hu hin
  exact ⟨g, hg, hu.duty, (ticked_of_running hr htick).of_drivenPin hb hin hg hd⟩

/-! ### Unchanged targets (42_pwm.md R213, R217) -/

/-- A pin tracked at its target, or with none, is not driven. -/
theorem drivenPin_of_tracked {e i : Nat} {s : State} (h : ∀ g, scanTarget e s i = some g → trackAt s i = g) :
    drivenPin e s i = none := by
  unfold drivenPin
  cases hg : scanTarget e s i with
  | none => rfl
  | some g => exact if_pos (h g hg)

/-- TICK leaves a pin that has a target tracked at it. -/
theorem Ticked.track_of_target {now e i : Nat} {g : Track} {s t : State} (h : Ticked now e s t) (hi : i < 64)
    (hg : scanTarget e s i = some g) : trackAt t i = g := by
  rw [h.track i hi, hg, Option.getD_some]

/-- TICK changes nothing that targets are computed from. -/
theorem Ticked.scanTarget_eq {now e : Nat} {s t : State} (h : Ticked now e s t) (e' i : Nat) :
    scanTarget e' t i = scanTarget e' s i := by
  rw [h.frame]; rfl

/-- A TICK right after another at the same instant, which left the elapsed time below the period: no cycle begins and no pin
is driven. -/
theorem Ticked.effect_again {tm : Nat} {s t : State} (hs : s.Legal)
    (h : Ticked (operandNow s.cfg tm) (tickElapsed (operandNow s.cfg tm) s) s t) : effect (.tick tm) t = t := by
  have hcfg : t.cfg = s.cfg := by rw [h.frame]
  have hperiod : t.period = s.period := by rw [h.frame]
  have helapsed : elapsed s.cfg (operandNow s.cfg tm) t.tickStart.toNat = tickElapsed (operandNow s.cfg tm) s := by
    rw [h.tickStart, tickElapsed]
  have hcycle : beginCycle (operandNow s.cfg tm) t = t := by
    apply beginCycle_of_lt
    rw [hcfg, hperiod, helapsed]
    exact tickElapsed_lt_period tm hs
  have hnone : drivenPins (tickElapsed (operandNow s.cfg tm) s) t = [] :=
    List.filterMap_eq_nil_iff.mpr fun i hi => drivenPin_of_tracked fun g hg =>
      h.track_of_target (List.mem_range.mp hi) ((h.scanTarget_eq _ i).symm.trans hg)
  obtain ⟨-, -, -, hscan, -⟩ := tickScan_closed_form (tickElapsed (operandNow s.cfg tm) s) t
  rw [effect, hcfg, tickElapsed, hcycle, hcfg, helapsed]
  exact hscan hnone

theorem track_mem_mayWrite {i : Instr} (h : Element.track ∈ mayWrite i) :
    (∃ n, i = .setcap n) ∨ (∃ b d, i = .enroll b d) ∨ (∃ b, i = .unenroll b) ∨ ∃ tm, i = .tick tm := by
  cases i <;> simp [mayWrite] at h ⊢

/-- Commands other than TICK, ENROLL, UNENROLL and SETCAP leave the tracked state alone. -/
theorem execAll_keeps_track {is : List Instr} {s t : State} (h : execAll is s = .next t)
    (his : ∀ j ∈ is, (∀ x, j ≠ .tick x) ∧ (∀ b d, j ≠ .enroll b d) ∧ (∀ b, j ≠ .unenroll b) ∧ ∀ n, j ≠ .setcap n) :
    t.track = s.track := by
  refine execAll_induction h (fun s t => t.track = s.track) (fun _ => rfl) (fun h1 h2 => h2.trans h1) fun i hi a b hx => ?_
  obtain ⟨-, -, -, -, -, -, -, -, -, hframe⟩ := exec_writesOnly hx
  obtain ⟨htick, henroll, hunenroll, hsetcap⟩ := his i hi
  refine hframe fun hmem => ?_
  rcases track_mem_mayWrite hmem with ⟨n, rfl⟩ | ⟨b, d, rfl⟩ | ⟨b, rfl⟩ | ⟨tm, rfl⟩
  · exact hsetcap n rfl
  · exact henroll b d rfl
  · exact hunenroll b rfl
  · exact htick tm rfl

/-- Settles O53: after the first TICK the pin is tracked at its target, and the commands between leave it so; right after
it, `Ticked.effect_again`. -/
theorem anUnchangedTargetIsNotDrivenAgain : Obligations.AnUnchangedTargetIsNotDrivenAgain := by
  refine ⟨fun is s t u t1 t2 i hfirst hall his hi hsame hr => ?_, fun s t tm hs h hr => ?_⟩
  · refine drivenPin_of_tracked fun g hg => ?_
    rw [trackAt_congr (execAll_keeps_track hall his)]
    exact (ticked_of_running hr hfirst).track_of_target hi (hsame g hg)
  · have hagain := (ticked_of_running hr h).effect_again hs
    rw [exec_of_no_event rfl (by rw [hagain]), hagain]
    rfl

end Sys2Proof.Machine
end

section
/-! The statements of 60_exceptions.md. Which case a command ends in is `exec_next`; the one response it appended tells a
rejection from a completion. -/

namespace Sys2Proof.Machine

/-! ### The response appended (30_encoding.md R95) -/

/-- The last response of a block that just responded is the one it gave. -/
theorem response_of_respond {st : Status} {d : Bool} {s : State} {rs : List Response} {r : Response}
    (hrs : s.responses = rs) (h : (respond st d s).responses = rs ++ [r]) : r = { status := st, data := d } := by
  rw [respond_responses, hrs] at h
  exact (List.singleton_inj.mp (List.append_cancel_left h)).symm

theorem responses_ne_append (s : State) (r : Response) : s.responses ≠ s.responses ++ [r] := by
  simp [List.self_eq_append_right]

/-- A rejection's response has DATA 0, and is all that changed. -/
theorem rejection_of_response {st : Status} {s : State} {r : Response}
    (h : (respond st false s).responses = s.responses ++ [r]) :
    r.data = false ∧ respond st false s = { s with responses := s.responses ++ [r] } := by
  obtain rfl := response_of_respond rfl h
  exact ⟨rfl, rfl⟩

/-! ### Rejected commands (60_exceptions.md R241) -/

/-- A command whose response is an error changed nothing else: a completed one responds OK, and a stuck one not at all. -/
theorem exec_of_error_response {i : Instr} {s t : State} {r : Response} (h : exec i s = .next t)
    (hresponse : t.responses = s.responses ++ [r]) (hr : r.status ≠ .ok) :
    r.data = false ∧ t = { s with responses := s.responses ++ [r] } := by
  rcases exec_next h with ⟨e, -, -, rfl⟩ | ⟨-, m, -, rfl⟩ | ⟨-, rfl, -⟩
  case inl => exact rejection_of_response hresponse
  case inr.inl =>
    obtain ⟨-, -, hresponses, -⟩ := effect_fixed i s
    obtain rfl := response_of_respond hresponses hresponse
    exact absurd rfl hr
  case inr.inr => exact absurd hresponse (responses_ne_append s r)

/-- Settles O17: a step that responds took a command, and ran it (`exec_of_error_response`) or rejected its word. -/
theorem aRejectedCommandHasNoEffect : Obligations.ARejectedCommandHasNoEffect := by
  intro s t r h hresponse hr
  rcases step_next h with rfl | ⟨k, rest, -, hc, ⟨i, -, hx⟩ | ⟨e, -, rfl⟩⟩
  · exact absurd hresponse (responses_ne_append t r)
  · rw [hc]
    exact exec_of_error_response hx hresponse hr
  · rw [hc]
    exact rejection_of_response hresponse

/-! ### Which error is reported (60_exceptions.md R243, R244) -/

/-- A command that returns no data bit responds with DATA 0. -/
theorem returned_of_no_data {i : Instr} {s : State} (h : returnsData i = false) : returned i s = false := by
  cases i with
  | rhard | rsoft | getw | readbit => cases h
  | setcap | setmode | wsoft | whard | flush | rall | bwbegin | bwend | brbegin | brend | writebit | setfreq | enroll
  | unenroll | tick => rfl

/-- Settles O18: with an error the command is rejected (`exec_of_error`), and without one it completes
(`exec_of_no_error`). -/
theorem eachCommandReportsItsFirstError : Obligations.EachCommandReportsItsFirstError := by
  refine fun i s hl => ⟨fun e he => exec_of_error he, fun hno => ⟨_, returned i s, exec_of_no_error hl hno, ?_,
    returned_of_no_data⟩⟩
  obtain ⟨-, -, hresponses, -⟩ := effect_fixed i s
  rw [respond_responses, hresponses]

/-! ### The STATUS codes (60_exceptions.md R240) -/

theorem statusCode_eq_zero_iff (st : Status) : statusCode st = 0#8 ↔ st = .ok := by
  cases st <;> decide

theorem statusCode_le (st : Status) : (statusCode st).toNat ≤ 0x06 := by
  cases st <;> decide

/-- Settles O16: the table of codes, of which OK's alone is 0 and E_NOSENSE's is the largest. -/
theorem statusCodesAreTheSpecs : Obligations.StatusCodesAreTheSpecs :=
  ⟨rfl, rfl, rfl, rfl, rfl, rfl, rfl, fun st => ⟨statusCode_eq_zero_iff st, statusCode_le st⟩⟩

end Sys2Proof.Machine
end

section
/-! The statements of 70_reset_and_hazards.md. The reset values are read off `State.resetWith`. A command's event count is one
lemma about its effect, from one per operation that touches the link. -/

namespace Sys2Proof.Machine

/-! ### Reset (70_reset_and_hazards.md R270, 10_state.md R36) -/

theorem dutyAt_resetWith (cfg : Config) {i : Nat} (h : i < 64) : dutyAt (State.resetWith cfg) i = .disabled := by
  rw [dutyAt_of_lt _ h]
  exact Vector.getElem_replicate h

theorem trackAt_resetWith (cfg : Config) {i : Nat} (h : i < 64) : trackAt (State.resetWith cfg) i = .unknown := by
  rw [trackAt_of_lt _ h]
  exact Vector.getElem_replicate h

/-- Settles O12: `State.reset` is the reset state of the default parameters, and the parameters decide no reset value. -/
theorem resetHoldsTheStatedValues : Obligations.ResetHoldsTheStatedValues := by
  intro s hs
  obtain ⟨cfg, rfl⟩ : ∃ cfg, s = State.resetWith cfg := hs.elim (fun h => ⟨Config.default, h⟩) id
  exact ⟨fun k _ => ⟨byteAt_zero k, byteAt_zero k, byteAt_zero k⟩, rfl, rfl, rfl, rfl, rfl,
    fun _ => dutyAt_resetWith cfg, fun _ => trackAt_resetWith cfg, rfl⟩

/-! ### Event counts (70_reset_and_hazards.md R291) -/

theorem flushCache_events_length (s : State) :
    (flushCache s).events.length = s.events.length + (s.byteCount.toNat + 3) := by
  rw [flushCache_events, List.length_append, flushEvents_length, wrBytes_length]

theorem softWrite_events_length (b : Nat) (v : Bool) (s : State) :
    (pwmDisable b (writeWr b v s)).events.length = s.events.length := by
  rw [pwmDisable_events, writeWr_events]

theorem hardWrite_events_length (b : Nat) (v : Bool) (s : State) :
    (flushCache (pwmDisable b (writeWr b v s))).events.length = s.events.length + (s.byteCount.toNat + 3) := by
  rw [flushCache_events_length, softWrite_events_length, pwmDisable_byteCount, writeWr_byteCount]

theorem hardRead_events_length (b : Nat) (s : State) :
    (hardRead b s).events.length = s.events.length + (s.byteCount.toNat + 4) := by
  simp [hardReadEvents]

theorem tick_events_length (tm : Nat) (s : State) :
    (effect (.tick tm) s).events.length = s.events.length + eventCount (.tick tm) s := by
  rw [(ticked_effect tm s).events, List.length_append, driveEvents_length]
  rfl

/-- A command's effect appends as many events as R291 counts for it. -/
theorem effect_events_length (i : Instr) (s : State) :
    (effect i s).events.length = s.events.length + eventCount i s := by
  cases i with
  | setcap | setmode | rsoft | getw | bwbegin | brend | setfreq | enroll | unenroll => rfl
  | wsoft b v => exact softWrite_events_length b v s
  | whard b v => exact hardWrite_events_length b v s
  | flush | bwend => exact flushCache_events_length s
  | rhard b => exact hardRead_events_length b s
  | rall | brbegin => exact hardReadAll_events_length (inputBits s) s
  | writebit b v =>
    simp only [effect, eventCount]
    split
    · exact softWrite_events_length b v s
    · exact hardWrite_events_length b v s
  | readbit b =>
    simp only [effect, eventCount]
    split
    · rfl
    · exact hardRead_events_length b s
  | tick tm => exact tick_events_length tm s

/-- Settles O20: a rejection emits nothing, and a completed command has the events of its effect. -/
theorem commandsEmitTheCountedEvents : Obligations.CommandsEmitTheCountedEvents := by
  intro i s hl
  cases he : reportedError i s with
  | some e => exact ⟨_, exec_of_error he, rfl⟩
  | none => exact ⟨_, exec_of_no_error hl he, effect_events_length i s⟩

end Sys2Proof.Machine
end
